-- ==== Sys2Proof/Word.lean ====
section
/-! DEFINITION. The word types of the PM block (00_scope.md R7, R8; 30_encoding.md R82, R90).
Bit 0 is the least significant bit of every word (R8). All values are unsigned (R7). -/

namespace Sys2Proof

/-- A frame byte, 8 bits (R7). -/
abbrev Byte := BitVec 8

/-- A measurement or a 16-bit operand (R7). -/
abbrev Half := BitVec 16

/-- A host command word, 24 bits, one parallel word on the command port (R63, R82). -/
abbrev CmdWord := BitVec 24

/-- An event word, 12 bits (R90). -/
abbrev EventWord := BitVec 12

/-- A measurement mode as MODE and the command's MODE field hold it: 0 PM1_0, 1 PM2_5, 2 PM10, and 3, which is no mode
(R7, R30, R84). -/
abbrev ModeBits := BitVec 2

end Sys2Proof
end

