-- ==== Sys2Proof/Config.lean ====
section
/-! DEFINITION. The implementation parameters of 00_scope.md R6. A model takes each source value as the default of a named
parameter and each OPEN parameter as an argument (R6, 92_eei_decisions.md D40): `Params` holds them all, and the machine's
state carries one `Params` that no step changes, so a statement over every state is a statement over every parameter value.
`Config.platform` is the one State.reset carries: the source's values, and constants without a body for the OPEN ones. -/

namespace Sys2Proof

/-- RX_OVERRUN_POLICY (R6, R111, D23): which byte is lost when a byte arrives at a full receive FIFO. -/
inductive OverrunPolicy where
  /-- `drop_new`: the arriving byte is lost. -/
  | dropNew
  /-- `drop_oldest`: the oldest waiting byte is lost. -/
  | dropOldest
  deriving DecidableEq, Repr, Inhabited

/-- EDGE_PENDING_POLICY (R6, R160, D24): what a falling edge seen while the handler is busy does. -/
inductive EdgePolicy where
  /-- `discard`: it is dropped. -/
  | discard
  /-- `latch_one`: at most one pending run is remembered. -/
  | latchOne
  deriving DecidableEq, Repr, Inhabited

/-- The polarity of an output bus (R6, R33, D20). -/
inductive Level where
  /-- `active_high` drives the logical value. -/
  | activeHigh
  /-- `active_low` drives its complement. -/
  | activeLow
  deriving DecidableEq, Repr, Inhabited

/-- The parameters of R6, in its order. The defaults are the source's values; the OPEN parameters have none. TONE_CYCLES and
TONE_STROBE_HZ are derived (below). That State holds them: DESIGN CHOICE (log 3). -/
structure Params where
  /-- FRAME_LEN: bytes per frame. -/
  frameLen : Nat := 32
  /-- HDR0: required byte 0. -/
  hdr0 : Byte := 0x42#8
  /-- HDR1: required byte 1. -/
  hdr1 : Byte := 0x4D#8
  /-- OFF_PM1_0. -/
  offPm1_0 : Nat := 8
  /-- OFF_PM2_5. -/
  offPm2_5 : Nat := 10
  /-- OFF_PM10. -/
  offPm10 : Nat := 12
  /-- NUM_MODES: measurement modes, the length of the cycle of MODE (R30, R163; log 11). -/
  numModes : Nat := 3
  /-- NUM_DIGITS: display digit positions, the length of POS's cycle and of a SETDIG (R141, R145; log 11). -/
  numDigits : Nat := 4
  /-- DISPLAY_MAX: the saturation limit. -/
  displayMax : Nat := 999
  /-- TICK_PERIOD_MS: the nominal period of `ms_strobe` (R246). It scales time, and no rule reads it. -/
  tickPeriodMs : Nat := 1
  /-- DEBOUNCE_MS: debounce interval in `ms_strobe` pulses. -/
  debounceMs : Nat := 20
  /-- RELEASE_POLL_MS: release-wait poll period in `ms_strobe` pulses (R165; log 23). -/
  releasePollMs : Nat := 1
  /-- TONE_FREQ_HZ (nominal). -/
  toneFreqHz : Nat := 2000
  /-- TONE_DURATION_MS (nominal). -/
  toneDurationMs : Nat := 300
  /-- POLL_INTERVAL_MS (nominal), read by the host program and by WAITPOLL only (R94, R216). -/
  pollIntervalMs : Nat := 500
  /-- ALARM_THRESHOLD. -/
  alarmThreshold : Nat := 75
  /-- RESET_MODE (OPEN): MODE after reset, one of 0, 1, 2. -/
  resetMode : Fin 3
  /-- RX_FIFO_DEPTH (OPEN): bytes the receive FIFO holds, at least 1 (`Params.wf`). -/
  rxFifoDepth : Nat
  /-- RX_OVERRUN_POLICY (OPEN). -/
  rxOverrunPolicy : OverrunPolicy
  /-- EDGE_PENDING_POLICY (OPEN). -/
  edgePendingPolicy : EdgePolicy
  /-- SEGTAB (OPEN): the digit-to-segment table on 0..9 (R150). -/
  segTab : Vector Byte 10
  /-- DIGIT_WRITE_ORDER, decided [0, 1, 2, 3] and kept as a parameter (D15). -/
  digitWriteOrder : Vector (Fin 4) 4 := #v[0, 1, 2, 3]
  /-- SEG_LEVEL (OPEN). -/
  segLevel : Level
  /-- DSEL_LEVEL (OPEN). -/
  dselLevel : Level
  /-- IND_LEVEL (OPEN). -/
  indLevel : Level
  /-- TONE_LEVEL (OPEN). -/
  toneLevel : Level
  deriving DecidableEq, Repr

/-- TONE_CYCLES = TONE_DURATION_MS x TONE_FREQ_HZ / 1000, full periods per tone (R6). -/
def Params.toneCycles (p : Params) : Nat := p.toneDurationMs * p.toneFreqHz / 1000

/-- TONE_STROBE_HZ = 2 x TONE_FREQ_HZ, the nominal `tone_strobe` rate (R6, R246). No rule reads it. -/
def Params.toneStrobeHz (p : Params) : Nat := 2 * p.toneFreqHz

/-- What R6, R35, R64, R247 and D15 require of the parameters: a frame holds a header and at least one payload byte and its
last offset fits IDX; every field lies inside the frame; the FIFO holds at least one byte; the write order visits each digit
once; the modes are among the three that IND and the offsets are given for, RESET_MODE one of them; there are the four digits
that DIGITS and the select bus have; the poll period is at least one strobe. DEDUCED (log 11, 14). -/
def Params.wf (p : Params) : Bool :=
  decide (3 ≤ p.frameLen) && decide (p.frameLen ≤ 32)
    && decide (p.offPm1_0 + 1 < p.frameLen) && decide (p.offPm2_5 + 1 < p.frameLen) && decide (p.offPm10 + 1 < p.frameLen)
    && decide (1 ≤ p.rxFifoDepth) && decide (p.resetMode.val < p.numModes) && decide (p.numModes ≤ 3)
    && decide (p.numDigits = 4) && decide (1 ≤ p.releasePollMs) && decide p.digitWriteOrder.toList.Nodup

namespace Config

/-- RX_FIFO_DEPTH less one: the depth is an integer of at least 1 and the spec gives no value. -/
opaque rxFifoDepthLessOne : Nat

/-- RX_OVERRUN_POLICY: the spec gives no value. -/
opaque rxOverrunPolicy : OverrunPolicy

/-- EDGE_PENDING_POLICY: the spec gives no value. -/
opaque edgePendingPolicy : EdgePolicy

/-- SEGTAB: its contents are out of the spec's scope (R4, R150). -/
opaque segTab : Vector Byte 10

/-- SEG_LEVEL: the spec gives no value. -/
opaque segLevel : Level

/-- DSEL_LEVEL: the spec gives no value. -/
opaque dselLevel : Level

/-- IND_LEVEL: the spec gives no value. -/
opaque indLevel : Level

/-- TONE_LEVEL: the spec gives no value. -/
opaque toneLevel : Level

/-- The parameters State.reset carries: the source's literals (R6), no value for the OPEN ones, and RESET_MODE = 0, the one
value the model names so that the reset state can be run (DESIGN CHOICE, log 3). -/
def platform : Params where
  resetMode := 0
  rxFifoDepth := rxFifoDepthLessOne + 1
  rxOverrunPolicy := rxOverrunPolicy
  edgePendingPolicy := edgePendingPolicy
  segTab := segTab
  segLevel := segLevel
  dselLevel := dselLevel
  indLevel := indLevel
  toneLevel := toneLevel

end Config

end Sys2Proof
end

