-- ==== Sys2Proof/Syntax.lean ====
section
/-! DEFINITION. The commands and events of the PM block: one constructor of `Instr` for each row of spec/opcode_table.json
(30_encoding.md R87, R88) and one of `Event` for each event kind of R90. -/

namespace Sys2Proof

/-- A host command as CMD decodes (R87). -/
inductive Instr where
  /-- NOP (R213). -/
  | nop
  /-- RDFRAME, the source's `read_frame()` (R126). -/
  | rdframe
  /-- EXTRACT with C = 0 and an explicit MODE, 0..3 (R86, R123). -/
  | extract (mode : ModeBits)
  /-- EXTRACT CUR, C = 1 (R123). -/
  | extractCur
  /-- MEASURE with C = 0 and an explicit MODE, 0..3 (R86, R127). -/
  | measure (mode : ModeBits)
  /-- MEASURE CUR, C = 1 (R127). -/
  | measureCur
  /-- SETDIG #v (R140). -/
  | setdig (imm : Half)
  /-- ALARMCHK #v (R194). -/
  | alarmchk (imm : Half)
  /-- BEEP (R191). -/
  | beep
  /-- WAITMS #n (R215). -/
  | waitms (imm : Half)
  /-- ILLEGAL: any word no other row matches (R88, R214); it carries the word. -/
  | illegal (word : CmdWord)
  deriving DecidableEq, Repr

/-- An input event (R90). -/
inductive Event where
  /-- RESET with the level of `btn_n` at reset (R262). -/
  | reset (btn : Bool)
  /-- One `ms_strobe` pulse (R240). -/
  | ms
  /-- One `tone_strobe` pulse (R192). -/
  | tone
  /-- One byte arrives (R111). -/
  | rxByte (b : Byte)
  /-- The button line takes a level; `true` is 1, released (R160). -/
  | btn (level : Bool)
  deriving DecidableEq, Repr

end Sys2Proof
end

