-- ==== Sys2Proof/WellFormed.lean ====
section
/-! DEFINITION. Which terms of `Instr` are commands: every operand fits its field by type, and `illegal w` stands only for a
word that 30_encoding.md R88 makes illegal. -/

namespace Sys2Proof

/-- The format of an operation code (R83, R87). -/
inductive Format where
  /-- No operand: NOP, RDFRAME, BEEP. -/
  | n
  /-- Mode operand: EXTRACT, MEASURE. -/
  | m
  /-- 16-bit immediate: SETDIG, ALARMCHK, WAITMS. -/
  | i
  deriving DecidableEq, Repr

/-- The opcode map's format column (R87); OP 0x8 to 0xF are reserved. -/
def formatOf (op : BitVec 4) : Option Format :=
  if op = 0x0#4 ∨ op = 0x1#4 ∨ op = 0x6#4 then some .n
  else if op = 0x2#4 ∨ op = 0x3#4 then some .m
  else if op = 0x4#4 ∨ op = 0x5#4 ∨ op = 0x7#4 then some .i
  else none

/-- A command word is illegal when one of R88 (a) to (e) holds. -/
def illegalWord (w : CmdWord) : Bool :=
  match formatOf (w.extractLsb' 20 4) with
  | none => true
  | some .n => w.extractLsb' 0 20 != 0#20
  | some .m =>
    w.extractLsb' 18 1 != 0#1 || w.extractLsb' 0 16 != 0#16
      || (w.extractLsb' 19 1 == 1#1 && w.extractLsb' 16 2 != 0#2)
  | some .i => w.extractLsb' 16 4 != 0#4

/-- A well-formed command: operands fit by type, and ILLEGAL stands for an illegal word (R88, R89). -/
def Instr.wellFormed : Instr → Bool
  | .nop => true
  | .rdframe => true
  | .extract _ => true
  | .extractCur => true
  | .measure _ => true
  | .measureCur => true
  | .setdig _ => true
  | .alarmchk _ => true
  | .beep => true
  | .waitms _ => true
  | .illegal w => illegalWord w

end Sys2Proof
end

