-- ==== Sys2Proof/Decode.lean ====
section
/-! DEFINITION. The decoder and the encoder of the command word (30_encoding.md R82 to R89) and of the event word (R90, R91).
The decoder is total: a word that no row of the opcode table matches is the ILLEGAL row's (R89). -/

namespace Sys2Proof

/-- OP = CMD[23:20] (R84). -/
def CmdWord.op (w : CmdWord) : BitVec 4 := w.extractLsb' 20 4

/-- C = CMD[19]: use the MODE register (R84). -/
def CmdWord.c (w : CmdWord) : Bool := w.getLsbD 19

/-- MODE = CMD[17:16] (R84). -/
def CmdWord.modeField (w : CmdWord) : ModeBits := w.extractLsb' 16 2

/-- IMM16 = CMD[15:0], zero-extended (R84, R85). -/
def CmdWord.imm16 (w : CmdWord) : Half := w.extractLsb' 0 16

/-- A row of the opcode table: a word matches when its bits under `mask` are `value`. -/
structure Row where
  mask : CmdWord
  value : CmdWord
  build : CmdWord → Instr

/-- Whether a word belongs to a row. -/
def Row.hits (r : Row) (w : CmdWord) : Bool := w &&& r.mask == r.value

/-- The rows of the opcode table but ILLEGAL, in the table's order (R83, R87, R88). -/
def rows : List Row :=
  [ ⟨0xFFFFFF#24, 0x000000#24, fun _ => .nop⟩,
    ⟨0xFFFFFF#24, 0x100000#24, fun _ => .rdframe⟩,
    ⟨0xFCFFFF#24, 0x200000#24, fun w => .extract (CmdWord.modeField w)⟩,
    ⟨0xFFFFFF#24, 0x280000#24, fun _ => .extractCur⟩,
    ⟨0xFCFFFF#24, 0x300000#24, fun w => .measure (CmdWord.modeField w)⟩,
    ⟨0xFFFFFF#24, 0x380000#24, fun _ => .measureCur⟩,
    ⟨0xFF0000#24, 0x400000#24, fun w => .setdig (CmdWord.imm16 w)⟩,
    ⟨0xFF0000#24, 0x500000#24, fun w => .alarmchk (CmdWord.imm16 w)⟩,
    ⟨0xFFFFFF#24, 0x600000#24, fun _ => .beep⟩,
    ⟨0xFF0000#24, 0x700000#24, fun w => .waitms (CmdWord.imm16 w)⟩ ]

/-- The command of the first row that matches, and ILLEGAL where none does. -/
def firstRow (rs : List Row) (w : CmdWord) : Instr :=
  match rs with
  | [] => .illegal w
  | r :: rest => if r.hits w then r.build w else firstRow rest w

/-- The command a word is: the row that matches it, else ILLEGAL (R89). -/
def decode (w : CmdWord) : Instr := firstRow rows w

/-- A format N word (R83): OP, then twenty zeros. -/
def encodeN (op : BitVec 4) : CmdWord := op ++ 0#20

/-- A format M word (R83): OP, C, a zero, MODE, sixteen zeros. -/
def encodeM (op : BitVec 4) (c : BitVec 1) (m : ModeBits) : CmdWord := op ++ c ++ 0#1 ++ m ++ 0#16

/-- A format I word (R83): OP, four zeros, IMM16. -/
def encodeI (op : BitVec 4) (imm : Half) : CmdWord := op ++ 0#4 ++ imm

/-- The word of a command (R83, R87). -/
def encode : Instr → CmdWord
  | .nop => encodeN 0x0#4
  | .rdframe => encodeN 0x1#4
  | .extract m => encodeM 0x2#4 0#1 m
  | .extractCur => encodeM 0x2#4 1#1 0#2
  | .measure m => encodeM 0x3#4 0#1 m
  | .measureCur => encodeM 0x3#4 1#1 0#2
  | .setdig v => encodeI 0x4#4 v
  | .alarmchk v => encodeI 0x5#4 v
  | .beep => encodeN 0x6#4
  | .waitms n => encodeI 0x7#4 n
  | .illegal w => w

/-- The command the decoder reads from a table row's word: a command is one 24-bit parallel word (R63, R82), bits above
`nbits` are 0, and no wider word fits the port. -/
def decodeTableWord (nbits w : Nat) : Option Instr :=
  if nbits ≤ 24 then some (decode (BitVec.ofNat 24 (w % 2 ^ nbits))) else none

/-- The event an event word names: KIND = EV[11:8], DATA = EV[7:0] (R90). A reserved KIND or a 1 in an SBZ bit names no
event (R91). -/
def decodeEvent (w : EventWord) : Option Event :=
  let kind := w.extractLsb' 8 4
  let data := w.extractLsb' 0 8
  let sbz7 := w.extractLsb' 1 7
  if kind = 0x0#4 then
    if sbz7 = 0#7 then some (.reset (w.getLsbD 0)) else none
  else if kind = 0x1#4 then
    if data = 0#8 then some .ms else none
  else if kind = 0x2#4 then
    if data = 0#8 then some .tone else none
  else if kind = 0x3#4 then some (.rxByte data)
  else if kind = 0x4#4 then
    if sbz7 = 0#7 then some (.btn (w.getLsbD 0)) else none
  else none

/-- The word of an event (R90). -/
def encodeEvent : Event → EventWord
  | .reset b => 0x0#4 ++ 0#7 ++ BitVec.ofBool b
  | .ms => 0x1#4 ++ 0#8
  | .tone => 0x2#4 ++ 0#8
  | .rxByte b => 0x3#4 ++ b
  | .btn l => 0x4#4 ++ 0#7 ++ BitVec.ofBool l

end Sys2Proof
end

