-- ==== Sys2Proof/Machine/Operands.lean ====
section
/-! DEFINITION. The operand forms and the pure functions over values that the rules name: effective mode, field offset,
big-endian assembly, saturation and decomposition, the indicator function, the segment table. -/

namespace Sys2Proof.Machine

/-- Big-endian assembly of a field: the byte at the lower offset is the most significant (R61). -/
def bigEndian (hi lo : Byte) : Half := BitVec.ofNat 16 (hi.toNat * 256 + lo.toNat)

/-- The offset of mode m's field: OFF_PM1_0, OFF_PM2_5 or OFF_PM10, and none for 3, which is no mode (R6, R80, R124). -/
def fieldOffset (p : Params) (m : ModeBits) : Option Nat :=
  if m = 0#2 then some p.offPm1_0
  else if m = 1#2 then some p.offPm2_5
  else if m = 2#2 then some p.offPm10
  else none

/-- Saturate: min(v, DISPLAY_MAX) (R12, R142). -/
def saturate (p : Params) (v : Half) : Nat := min v.toNat p.displayMax

/-- The saturated value as RESULT.VALUE and a digit write hold it, 16 bits (R7, R141). -/
def saturated (p : Params) (v : Half) : Half := BitVec.ofNat 16 (saturate p v)

/-- Digit(s, i) (R142): 0, the hundreds, the tens and the units of s, most significant first. -/
def digitOf (s : Nat) (i : Fin 4) : BitVec 4 :=
  match i with
  | 0 => 0#4
  | 1 => BitVec.ofNat 4 (s / 100 % 10)
  | 2 => BitVec.ofNat 4 (s / 10 % 10)
  | 3 => BitVec.ofNat 4 (s % 10)

/-- The successor in the cycle PM1_0, PM2_5, PM10 of NUM_MODES modes (R6, R30, R163). -/
def nextMode (p : Params) (m : ModeBits) : ModeBits := BitVec.ofNat 2 ((m.toNat + 1) % p.numModes)

/-- IND(m): cumulative indicator lines, bit 0 = line 1; undefined at 3 (R31, D22). -/
def indicator (m : ModeBits) : Option (BitVec 3) :=
  if m = 0#2 then some 0b001#3
  else if m = 1#2 then some 0b011#3
  else if m = 2#2 then some 0b111#3
  else none

/-- RESET_MODE as MODE holds it (R262). -/
def resetModeBits (p : Params) : ModeBits := BitVec.ofNat 2 p.resetMode.val

/-- IND(RESET_MODE) (R262). -/
def resetIndicator (p : Params) : BitVec 3 :=
  match p.resetMode with
  | 0 => 0b001#3
  | 1 => 0b011#3
  | 2 => 0b111#3

/-- SEGTAB(d), defined on 0..9 only (R150). -/
def segCode (p : Params) (d : BitVec 4) : Option Byte := p.segTab[d.toNat]?

/-- DSEL_OUT for position p: 1 << p (R145). -/
def selectLine (p : Fin 4) : BitVec 4 := 1#4 <<< p.val

/-- The position after i: POS advances modulo NUM_DIGITS (R6, R145). -/
def nextPosition (p : Params) (i : Fin 4) : Fin 4 := Fin.ofNat 4 ((i.val + 1) % p.numDigits)

/-- A SETDIG with k digit writes done is over: K = NUM_DIGITS (R6, R141). -/
def writesDone (p : Params) (k : BitVec 3) : Bool := k.toNat == p.numDigits

/-- The number of half-periods of one tone: 2 x TONE_CYCLES (R190). -/
def toneHalfPeriods (p : Params) : Nat := 2 * p.toneCycles

end Sys2Proof.Machine
end

