-- ==== Sys2Proof/Machine/State.lean ====
section
/-! DEFINITION. The state of the PM block: every register of 10_state.md R22 under its own name, the frame buffers of R60, and
three fields of the model's own: the release poll count (R6), the parameters (R6) and the schedule of steps still to come
(R10). Plain data throughout. -/

namespace Sys2Proof.Machine

/-- A foreground context (R12): HOST, the host's command, or SW, the switch handler. -/
inductive Ctx where
  | host
  | sw
  deriving DecidableEq, Repr

/-- HOST_PHASE, 3 bits (R24). -/
inductive HostPhase where
  /-- 0: no command. -/
  | idle
  /-- 1: the command's first micro-step is due. -/
  | start
  /-- 2: frame reception in progress. -/
  | read
  /-- 3: the MEASURE extraction is due. -/
  | extract
  /-- 4: SETDIG digit writes in progress. -/
  | write
  /-- 5: waiting for TONE_ACTIVE = 0. -/
  | toneWait
  /-- 6: WAITMS countdown. -/
  | count
  /-- 7: never written; a model that finds it faults. -/
  | reserved
  deriving DecidableEq, Repr

/-- SW_STATE, 3 bits (R25). -/
inductive SwState where
  /-- 0: waiting for a falling edge. -/
  | idle
  /-- 1: counting DEBOUNCE_MS. -/
  | debounce
  /-- 2: the mode advance is due. -/
  | actMode
  /-- 3: the handler's reception. -/
  | read
  /-- 4: the handler's extraction is due. -/
  | extract
  /-- 5: the handler's digit writes. -/
  | write
  /-- 6: waiting for release. -/
  | release
  /-- 7: never written; a model that finds it faults. -/
  | reserved
  deriving DecidableEq, Repr

/-- PH of RD[c], 2 bits (R35). -/
inductive RxPhase where
  /-- 0: no reception. -/
  | none
  /-- 1: header byte 0 due. -/
  | h0
  /-- 2: header byte 1 due. -/
  | h1
  /-- 3: payload byte IDX due. -/
  | pay
  deriving DecidableEq, Repr

/-- RD[c], the progress of context c's reception: PH and IDX (R35). -/
structure Rd where
  ph : RxPhase
  idx : BitVec 5
  deriving DecidableEq, Repr

/-- RESULT (R26): OK [16] and VALUE [15:0]. -/
structure Result where
  ok : Bool
  value : Half
  deriving DecidableEq, Repr

/-- DIGITS[0..3], element 0 most significant, 4 bits each (R29). -/
structure Digits where
  d0 : BitVec 4
  d1 : BitVec 4
  d2 : BitVec 4
  d3 : BitVec 4
  deriving DecidableEq, Repr

/-- One frame buffer (R34, R60): the written bytes as (offset, byte) cells, offsets strictly rising. An offset that is not
listed is unwritten (`U`) and holds no value (R22, R43; log 6). -/
abbrev Memory := List Host.Cell

/-- One step still to come (R10): an input event as its 12-bit word (R90), a command presented on the command port (R211), or
a turn of the foreground sequencer (R23). -/
inductive Stimulus where
  | event (w : EventWord)
  | command (w : CmdWord)
  | foreground
  deriving DecidableEq, Repr

/-- Why the machine stops. Every reason is SAFE: the model stops, and by R234 (and 93_implementation_defined.md) no state from
which it stops so is reachable under the rules. -/
inductive Fault where
  /-- HOST_PHASE = 7 found at a step (R24, R234). Safe. -/
  | hostPhaseReserved
  /-- SW_STATE = 7 found at a step (R25, R234). Safe. -/
  | swStateReserved
  /-- MODE = 3 found at a step, read as the current mode, or given to IND (R30, R31, R234). Safe. -/
  | modeReserved
  /-- STATUS.ERR = 5, 6 or 7 found at a step (R27, 93_implementation_defined.md). Safe. -/
  | errReserved
  /-- A DIGITS element over 9 found at a step, or given to SEGTAB (R29, R150, R234). Safe. -/
  | digitRange
  /-- DIGITS[0] other than 0 found at a step (R29, R234). Safe. -/
  | digitZeroNonzero
  /-- A read of an unwritten FRAME byte, raised by an extraction (R43, R234). Safe. -/
  | unwrittenFrameByte
  /-- Outcome INVALID_MODE of the handler's extraction (R164, R234). Safe. -/
  | swInvalidMode
  /-- The registers hold values over which the due rule's pseudocode is not defined: a digit write with K past the write
  order, a reception outcome while CMD is neither RDFRAME nor MEASURE, a count below 0. DESIGN CHOICE (log 8). Safe. -/
  | noRule
  deriving DecidableEq, Repr

/-- Why a step is refused. -/
inductive Refusal where
  /-- An instruction whose meaning is not written; raised by exec's arm alone. Safe. -/
  | notModelled (mnemonic : String)
  /-- A reserved event word: it names no event and the environment never presents one (R91). Raised by a step whose
  scheduled input is such a word. Safe. -/
  | reservedEvent
  /-- A command presented while BUSY = 1: a host duty, no step of any run (R211, R217). Raised by a step whose scheduled
  input is such a command. Unsafe of a host that breaks the duty (93_implementation_defined.md; log 13). -/
  | commandWhileBusy
  deriving DecidableEq, Repr

/-- The machine's state: the registers of R22 in its order, then the parameters and the schedule. -/
structure State where
  /-- CMD, 24 bits (R28). -/
  cmd : CmdWord
  /-- BUSY (R39). -/
  busy : Bool
  /-- RESULT, 17 bits (R26). -/
  result : Result
  /-- STATUS, 3 bits: ERR (R27). -/
  status : BitVec 3
  /-- HOST_PHASE (R24). -/
  hostPhase : HostPhase
  /-- HOST_CNT, 16 bits: WAITMS countdown (R215). -/
  hostCnt : BitVec 16
  /-- HOST_VAL, 16 bits: the operand latched at acceptance (R211). -/
  hostVal : Half
  /-- HOST_K, 3 bits: digit writes done by the host's SETDIG (R141). -/
  hostK : BitVec 3
  /-- MODE, 2 bits (R30). -/
  mode : ModeBits
  /-- IND_OUT, 3 bits (R31). -/
  indOut : BitVec 3
  /-- DIGITS (R29). -/
  digits : Digits
  /-- POS, 2 bits: the scan position (R32). -/
  pos : Fin 4
  /-- SEG_OUT, 8 bits (R33). -/
  segOut : Byte
  /-- DSEL_OUT, 4 bits (R33). -/
  dselOut : BitVec 4
  /-- FRAME_VALID[HOST] (R34). -/
  frameValidHost : Bool
  /-- FRAME_VALID[SW] (R34). -/
  frameValidSw : Bool
  /-- RD[HOST] (R35). -/
  rdHost : Rd
  /-- RD[SW] (R35). -/
  rdSw : Rd
  /-- RXQ, oldest byte first (R36). -/
  rxq : List Byte
  /-- BTN_LINE: `true` is 1, released (R37). -/
  btnLine : Bool
  /-- SW_STATE (R25). -/
  swState : SwState
  /-- SW_CNT, the debounce countdown, sized to hold DEBOUNCE_MS (R247; log 10). -/
  swCnt : Nat
  /-- SW_DUE: a release sample is due (R165). -/
  swDue : Bool
  /-- SW_PENDING: a falling edge was latched while busy (R160). -/
  swPending : Bool
  /-- SW_VAL, 16 bits: the handler's measured value (R164). -/
  swVal : Half
  /-- SW_K, 3 bits: digit writes done by the handler's SETDIG (R141). -/
  swK : BitVec 3
  /-- TONE_ACTIVE (R38). -/
  toneActive : Bool
  /-- TONE_LEFT, half-periods left, sized to hold 2 x TONE_CYCLES (R247; log 10). -/
  toneLeft : Nat
  /-- TONE_OUT (R38). -/
  toneOut : Bool
  /-- FRAME[HOST][0..31] (R34). -/
  frameHost : Memory
  /-- FRAME[SW][0..31] (R34). -/
  frameSw : Memory
  /-- `ms_strobe` pulses counted in RELEASE since a sample last fell due: the period RELEASE_POLL_MS of R6, which is 1 by
  default, and there this count stays 0. DESIGN CHOICE (log 23). -/
  swPoll : Nat
  /-- The parameters (R6); no step writes them. -/
  params : Params
  /-- The steps still to come, next first; with none, FG moves. DESIGN CHOICE (log 1). -/
  stim : List Stimulus
  deriving DecidableEq, Repr

/-- The state the RESET event leaves, with parameters p, button level b and the schedule still to come (R262). -/
def State.resetWith (p : Params) (b : Bool) (stim : List Stimulus) : State where
  cmd := 0x000000#24
  busy := false
  result := { ok := false, value := 0x0000#16 }
  status := 0#3
  hostPhase := .idle
  hostCnt := 0#16
  hostVal := 0x0000#16
  hostK := 0#3
  mode := resetModeBits p
  indOut := resetIndicator p
  digits := { d0 := 0#4, d1 := 0#4, d2 := 0#4, d3 := 0#4 }
  pos := 0
  segOut := 0x00#8
  dselOut := 0b0000#4
  frameValidHost := false
  frameValidSw := false
  rdHost := { ph := .none, idx := 0#5 }
  rdSw := { ph := .none, idx := 0#5 }
  rxq := []
  btnLine := b
  swState := .idle
  swCnt := 0
  swDue := false
  swPending := false
  swVal := 0x0000#16
  swK := 0#3
  toneActive := false
  toneLeft := 0
  toneOut := false
  frameHost := []
  frameSw := []
  swPoll := 0
  params := p
  stim := stim

/-- The machine right after reset (R262) with the button released, the platform's parameters and nothing scheduled.
BTN_LINE = 1 and RESET_MODE = 0 are DESIGN CHOICES (log 3, 4). -/
def State.reset : State := State.resetWith Config.platform true []

end Sys2Proof.Machine
end

