-- ==== Sys2Proof/Machine/Flags.lean ====
section
/-! DEFINITION. The flags of R39: RESULT and STATUS (written together by `Complete`, R212), BUSY, FRAME_VALID[c], and the codes
of R24, R25, R27 and R35. SW_PENDING and SW_DUE are written by the switch operations of Ops.lean and Switch.lean. -/

namespace Sys2Proof.Machine

/-- ERR 0 NONE (R27). -/
def errNone : BitVec 3 := 0#3

/-- ERR 1 HDR_MISMATCH (R27). -/
def errHdrMismatch : BitVec 3 := 1#3

/-- ERR 2 INVALID_MODE (R27). -/
def errInvalidMode : BitVec 3 := 2#3

/-- ERR 3 NO_FRAME (R27). -/
def errNoFrame : BitVec 3 := 3#3

/-- ERR 4 ILLEGAL_CMD (R27). -/
def errIllegalCmd : BitVec 3 := 4#3

/-- RESULT as its 17-bit register: OK [16], VALUE [15:0] (R22, R26). -/
def resultWord (r : Result) : BitVec 17 := BitVec.ofBool r.ok ++ r.value

/-- RD[c] as its 7-bit register: PH [6:5], IDX [4:0] (R22, R35). -/
def rxPhaseCode : RxPhase → BitVec 2
  | .none => 0#2
  | .h0 => 1#2
  | .h1 => 2#2
  | .pay => 3#2

/-- RD[c] as its register (R22). -/
def rdWord (r : Rd) : BitVec 7 := rxPhaseCode r.ph ++ r.idx

/-- HOST_PHASE as its register (R24). -/
def hostPhaseCode : HostPhase → BitVec 3
  | .idle => 0#3
  | .start => 1#3
  | .read => 2#3
  | .extract => 3#3
  | .write => 4#3
  | .toneWait => 5#3
  | .count => 6#3
  | .reserved => 7#3

/-- SW_STATE as its register (R25). -/
def swStateCode : SwState → BitVec 3
  | .idle => 0#3
  | .debounce => 1#3
  | .actMode => 2#3
  | .read => 3#3
  | .extract => 4#3
  | .write => 5#3
  | .release => 6#3
  | .reserved => 7#3

/-- `Complete(ok, value, err)` (R212): RESULT and STATUS.ERR take the outcome, BUSY falls, HOST_PHASE is IDLE. -/
def complete (ok : Bool) (value : Half) (err : BitVec 3) (s : State) : State :=
  { s with result := { ok := ok, value := value }, status := err, busy := false, hostPhase := .idle }

/-- `Complete(0, 0x0000, err)`: the form of every failure (R230, R231). -/
def completeFail (err : BitVec 3) (s : State) : State := complete false 0x0000#16 err s

/-- `Complete(1, value, NONE)`: the form of every success (R231). -/
def completeOk (value : Half) (s : State) : State := complete true value errNone s

/-- FRAME_VALID[c] (R34). -/
def frameValid (c : Ctx) (s : State) : Bool :=
  match c with
  | .host => s.frameValidHost
  | .sw => s.frameValidSw

/-- FRAME_VALID[c] <- v; the other context's flag is not touched (R34, R39). -/
def setFrameValid (c : Ctx) (v : Bool) (s : State) : State :=
  match c with
  | .host => { s with frameValidHost := v }
  | .sw => { s with frameValidSw := v }

end Sys2Proof.Machine
end

