-- ==== Sys2Proof/Machine/Ops.lean ====
section
/-! DEFINITION. The named operations over the storage structures and registers (20_memory.md R60 to R67), the handler's entry and
exit, which are what the block has in place of taking an interrupt and returning from it (R161, R167, R241, R242), and the
test for the states that R234 says a model must fault on. -/

namespace Sys2Proof.Machine

/-! ## A frame buffer -/

/-- The number of offsets of a frame buffer's index, 5 bits (R22, R35). -/
def frameCells : Nat := 32

/-- Every cell's offset is at least `lo`, below the buffer's end, and offsets strictly rise. -/
def cellsFrom (lo : Nat) : Memory → Bool
  | [] => true
  | (a, _) :: t => decide (lo ≤ a) && decide (a < frameCells) && cellsFrom (a + 1) t

/-- The canonical form of a frame buffer: offsets strictly rising and inside the buffer. An unlisted offset holds no value, so
no cell can equal what an unlisted offset reads as (log 6). -/
def Memory.wf (m : Memory) : Bool := cellsFrom 0 m

/-- The byte at an offset, or none where no byte has been written (R43). -/
def Memory.read (m : Memory) (a : Nat) : Option Byte :=
  match m with
  | [] => none
  | (k, v) :: t => if a = k then some v else Memory.read t a

/-- `MemWrite(a, 1, b)` on one buffer (R9). -/
def Memory.write (m : Memory) (a : Nat) (b : Byte) : Memory :=
  match m with
  | [] => [(a, b)]
  | (k, v) :: t =>
    if a < k then (a, b) :: (k, v) :: t
    else if a = k then (a, b) :: t
    else (k, v) :: Memory.write t a b

/-- `MemRead(off, 2)` on one buffer (R9, R61): big-endian, and none where a byte read is unwritten. -/
def Memory.read16 (m : Memory) (off : Nat) : Option Half :=
  match Memory.read m off, Memory.read m (off + 1) with
  | some hi, some lo => some (bigEndian hi lo)
  | _, _ => none

/-- FRAME[c] (R34). -/
def frame (c : Ctx) (s : State) : Memory :=
  match c with
  | .host => s.frameHost
  | .sw => s.frameSw

/-- FRAME[c] <- m; the other context's buffer is not touched (R34, R77). -/
def setFrame (c : Ctx) (m : Memory) (s : State) : State :=
  match c with
  | .host => { s with frameHost := m }
  | .sw => { s with frameSw := m }

/-- `MemWrite(a, 1, b)` for context c: FRAME[c][a] <- b (R9). -/
def writeFrame (c : Ctx) (a : Nat) (b : Byte) (s : State) : State := setFrame c (Memory.write (frame c s) a b) s

/-! ## Reception registers and the receive FIFO -/

/-- RD[c] (R35). -/
def rd (c : Ctx) (s : State) : Rd :=
  match c with
  | .host => s.rdHost
  | .sw => s.rdSw

/-- RD[c] <- r; the other context's progress is not touched (R35). -/
def setRd (c : Ctx) (r : Rd) (s : State) : State :=
  match c with
  | .host => { s with rdHost := r }
  | .sw => { s with rdSw := r }

/-- `RxPop()` (R112): the oldest byte and the state without it; none while RXQ is empty. -/
def rxPop (s : State) : Option (Byte × State) :=
  match s.rxq with
  | [] => none
  | b :: q => some (b, { s with rxq := q })

/-- A byte arrives at a FIFO of the given depth (R76, R111). -/
def rxPush (depth : Nat) (policy : OverrunPolicy) (q : List Byte) (b : Byte) : List Byte :=
  if q.length < depth then q ++ [b]
  else match policy with
    | .dropNew => q
    | .dropOldest => q.tail ++ [b]

/-- `StartRx(c)` (R120): FRAME_VALID[c] <- 0 and RD[c] <- (H0, 0). The buffer's bytes stay. -/
def startRx (c : Ctx) (s : State) : State :=
  setRd c { ph := .h0, idx := 0#5 } (setFrameValid c false s)

/-! ## Digits -/

/-- DIGITS[i] (R29). -/
def Digits.get (d : Digits) (i : Fin 4) : BitVec 4 :=
  match i with
  | 0 => d.d0
  | 1 => d.d1
  | 2 => d.d2
  | 3 => d.d3

/-- DIGITS[i] <- v (R29). -/
def Digits.set (d : Digits) (i : Fin 4) (v : BitVec 4) : Digits :=
  match i with
  | 0 => { d with d0 := v }
  | 1 => { d with d1 := v }
  | 2 => { d with d2 := v }
  | 3 => { d with d3 := v }

/-- One element of a digit write (R141): with k writes done of the value v, DIGITS[ORDER[k]] takes Digit(min(v, DISPLAY_MAX),
ORDER[k]). None where k is past the order (log 8). -/
def putDigit (k : BitVec 3) (v : Half) (s : State) : Option State :=
  match s.params.digitWriteOrder[k.toNat]? with
  | none => none
  | some i => some { s with digits := Digits.set s.digits i (digitOf (saturate s.params v) i) }

/-! ## The handler's entry and exit -/

/-- `HandlerEntry()` (R161, R241): SW becomes the running context. Nothing is saved, for nothing moves: the host's registers
stay as they are, and there is no vector. -/
def handlerEntry (s : State) : State :=
  { s with swState := .debounce, swCnt := s.params.debounceMs }

/-- `Exit()` (R167, R242): back to IDLE, or, on a latched edge, into a new handler in the same step. -/
def handlerExit (s : State) : State :=
  if s.swPending then handlerEntry { s with swState := .idle, swPending := false }
  else { s with swState := .idle }

/-- Entering RELEASE (R165): the first sample is due at once, and the poll clock starts (log 23). -/
def enterRelease (s : State) : State := { s with swState := .release, swDue := true, swPoll := 0 }

/-! ## The tone -/

/-- `ToneStart()` (R190): the first half-period is high; no tone when 2 x TONE_CYCLES = 0. -/
def toneStart (s : State) : State :=
  if toneHalfPeriods s.params = 0 then s
  else { s with toneActive := true, toneLeft := toneHalfPeriods s.params, toneOut := true }

/-! ## The mode register -/

/-- MODE read as the current mode: one of 0, 1, 2; none where it holds 3, which a model must fault on (R30, R234). -/
def currentMode (s : State) : Option ModeBits := if s.mode = 3#2 then none else some s.mode

/-! ## States outside the rules -/

/-- The fault a model must record in a state that R234 (or 93_implementation_defined.md) says no rule reaches, if it is one.
A fault ends the run, so no later step clears it (log 7). -/
def outsideRules (s : State) : Option Fault :=
  if s.hostPhase = .reserved then some .hostPhaseReserved
  else if s.swState = .reserved then some .swStateReserved
  else if s.mode = 3#2 then some .modeReserved
  else if 4 < s.status.toNat then some .errReserved
  else if 9 < s.digits.d0.toNat ∨ 9 < s.digits.d1.toNat ∨ 9 < s.digits.d2.toNat ∨ 9 < s.digits.d3.toNat then
    some .digitRange
  else if s.digits.d0 ≠ 0#4 then some .digitZeroNonzero
  else none

end Sys2Proof.Machine
end

