-- ==== Sys2Proof/Machine/Alarm.lean ====
section
/-! DEFINITION. The TONE unit (43_alarm_tone.md): the START micro-steps of BEEP and ALARMCHK (R191, R194), the tone-wait end (R193)
and the TONE event (R192). -/

namespace Sys2Proof.Machine

/-- ALARMCHK fires exactly when min(v, DISPLAY_MAX) is at least ALARM_THRESHOLD (R194). -/
def alarmFires (p : Params) (v : Half) : Bool := decide (p.alarmThreshold ≤ saturate p v)

/-- Starting the tone and waiting for its end (R191, R194). -/
def toneAndWait (s : State) : State := { toneStart s with hostPhase := .toneWait }

/-- ALARMCHK, START micro-step (R194). Its operand is HOST_VAL, latched at acceptance (R211; log 9). -/
def execAlarmchk (s : State) : Host.Outcome State Fault Refusal :=
  if alarmFires s.params s.hostVal then .next (toneAndWait s) else .next (completeOk 0x0000#16 s)

/-- BEEP, START micro-step (R191). -/
def execBeep (s : State) : Host.Outcome State Fault Refusal := .next (toneAndWait s)

/-- OP of ALARMCHK (R87). -/
def opAlarmchk : BitVec 4 := 0x5#4

/-- The tone-wait end micro-step (R193), enabled only when TONE_ACTIVE = 0: VALUE is 1 for ALARMCHK and 0 for BEEP. -/
def toneWaitEnd (s : State) : State :=
  completeOk (if s.cmd.op = opAlarmchk then 0x0001#16 else 0x0000#16) s

/-- The TONE event (R192). A count below 0 has no rule (log 8). -/
def toneEvent (s : State) : Host.Outcome State Fault Refusal :=
  if s.toneActive then
    match s.toneLeft with
    | 0 => .fault .noRule
    | 1 => .next { s with toneLeft := 0, toneOut := false, toneActive := false }
    | n + 2 => .next { s with toneLeft := n + 1, toneOut := !s.toneOut }
  else .next s

end Sys2Proof.Machine
end

