-- ==== Sys2Proof/Machine/Decoder.lean ====
section
/-! DEFINITION. The DECODER (40_frame_decoder.md): reception (R112, R120 to R122), extraction (R123 to R125), the START micro-steps
of RDFRAME, EXTRACT and MEASURE, and the host's later micro-steps of RDFRAME and MEASURE (R126, R127). -/

namespace Sys2Proof.Machine

/-- What one receive micro-step comes to (R121, R122). -/
inductive RxOutcome where
  /-- The reception goes on. -/
  | more
  /-- Outcome OK: the last byte is stored. -/
  | ok
  /-- Outcome FAIL(HDR_MISMATCH). -/
  | hdrMismatch
  deriving DecidableEq, Repr

/-- Header receive (R121) of context c, of the byte b just taken, for header byte i = 0 or 1: the byte is stored, a mismatch
clears FRAME_VALID[c] and ends the reception. -/
def headerReceive (c : Ctx) (second : Bool) (b : Byte) (s : State) : RxOutcome × State :=
  let i : Nat := if second then 1 else 0
  let expect := if second then s.params.hdr1 else s.params.hdr0
  let t := writeFrame c i b s
  if b ≠ expect then (.hdrMismatch, setRd c { ph := .none, idx := 0#5 } (setFrameValid c false t))
  else if second then (.more, setRd c { ph := .pay, idx := 2#5 } t)
  else (.more, setRd c { ph := .h1, idx := 0#5 } t)

/-- Payload receive (R122) of context c, of the byte b just taken: stored unseen; the frame's last byte sets FRAME_VALID[c]. -/
def payloadReceive (c : Ctx) (b : Byte) (s : State) : RxOutcome × State :=
  let idx := (rd c s).idx
  let t := writeFrame c idx.toNat b s
  if idx.toNat + 1 = s.params.frameLen then
    (.ok, setFrameValid c true (setRd c { ph := .none, idx := 0#5 } t))
  else (.more, setRd c { ph := .pay, idx := idx + 1#5 } t)

/-- The receive micro-step of context c that RD[c].PH selects (R121, R122). None where it is not enabled: RXQ is empty
(R112), or no reception is in progress, so RD[c] selects no receive (R23, R35; log 12). -/
def receive (c : Ctx) (s : State) : Option (RxOutcome × State) :=
  match (rd c s).ph, rxPop s with
  | .none, _ => none
  | _, none => none
  | .h0, some (b, t) => some (headerReceive c false b t)
  | .h1, some (b, t) => some (headerReceive c true b t)
  | .pay, some (b, t) => some (payloadReceive c b t)

/-- What an extraction comes to (R123, R125). -/
inductive Extracted where
  /-- VALUE(Field(c, m)). -/
  | value (v : Half)
  /-- FAIL(INVALID_MODE): m = 3. -/
  | invalidMode
  /-- A byte of the field is unwritten: the model faults (R43). -/
  | unwritten
  deriving DecidableEq, Repr

/-- Field(c, m), the big-endian 16-bit field of mode m in FRAME[c] (R124), or FAIL(INVALID_MODE) for m = 3. FRAME_VALID is
neither read nor written. -/
def extractField (c : Ctx) (m : ModeBits) (s : State) : Extracted :=
  match fieldOffset s.params m with
  | none => .invalidMode
  | some off =>
    match Memory.read16 (frame c s) off with
    | none => .unwritten
    | some v => .value v

/-- A host extraction's end (R123, R125): VALUE(v) and FAIL(INVALID_MODE) complete the command. -/
def finishExtraction (m : ModeBits) (s : State) : Host.Outcome State Fault Refusal :=
  match extractField .host m s with
  | .value v => .next (completeOk v s)
  | .invalidMode => .next (completeFail errInvalidMode s)
  | .unwritten => .fault .unwrittenFrameByte

/-- EXTRACT for the effective mode m (R123): INVALID_MODE is checked before NO_FRAME (R232). -/
def extractHost (m : ModeBits) (s : State) : Host.Outcome State Fault Refusal :=
  if m ≠ 3#2 ∧ frameValid .host s = false then .next (completeFail errNoFrame s)
  else finishExtraction m s

/-- The START micro-step of a host reception (R126, R127): StartRx(HOST); HOST_PHASE <- READ. -/
def startHostRead (s : State) : State := { startRx .host s with hostPhase := .read }

/-- RDFRAME, START micro-step (R126). -/
def execRdframe (s : State) : Host.Outcome State Fault Refusal := .next (startHostRead s)

/-- EXTRACT with an explicit mode, 3 included, START micro-step (R86, R123). -/
def execExtract (m : ModeBits) (s : State) : Host.Outcome State Fault Refusal := extractHost m s

/-- EXTRACT CUR, START micro-step (R123): the effective mode is MODE, read in this micro-step (R85, R135). MODE = 3 is a
model fault (R234). -/
def execExtractCur (s : State) : Host.Outcome State Fault Refusal :=
  match currentMode s with
  | none => .fault .modeReserved
  | some m => extractHost m s

/-- MEASURE with an explicit mode, START micro-step (R127); the mode is used at extraction (R125). -/
def execMeasure (s : State) : Host.Outcome State Fault Refusal := .next (startHostRead s)

/-- MEASURE CUR, START micro-step (R127); MODE is read at extraction (R125, R135). -/
def execMeasureCur (s : State) : Host.Outcome State Fault Refusal := .next (startHostRead s)

/-- OP of RDFRAME (R87). -/
def opRdframe : BitVec 4 := 0x1#4

/-- OP of MEASURE (R87). -/
def opMeasure : BitVec 4 := 0x3#4

/-- The host's READ micro-step (R126, R127): one receive; OK ends RDFRAME with (1, 0, NONE) and sends MEASURE to its
extraction; a mismatch ends either with HDR_MISMATCH. Not enabled, nothing changes (R112). -/
def hostRead (s : State) : Host.Outcome State Fault Refusal :=
  match receive .host s with
  | none => .next s
  | some (.more, t) => .next t
  | some (.hdrMismatch, t) => .next (completeFail errHdrMismatch t)
  | some (.ok, t) =>
    if t.cmd.op = opRdframe then .next (completeOk 0x0000#16 t)
    else if t.cmd.op = opMeasure then .next { t with hostPhase := .extract }
    else .fault .noRule

/-- The host's MEASURE extraction micro-step (R125): the effective mode of CMD is read here (R85). -/
def hostExtract (s : State) : Host.Outcome State Fault Refusal :=
  if s.cmd.c then
    match currentMode s with
    | none => .fault .modeReserved
    | some m => finishExtraction m s
  else finishExtraction s.cmd.modeField s

end Sys2Proof.Machine
end

