-- ==== Sys2Proof/Machine/Display.lean ====
section
/-! DEFINITION. The display (41_display.md): SETDIG's START micro-step and the host's digit writes (R140, R141), and the scan tick of
the SCANNER (R145). -/

namespace Sys2Proof.Machine

/-- SETDIG, START micro-step (R140). Its operand is HOST_VAL, latched at acceptance (R211; log 9). -/
def execSetdig (s : State) : Host.Outcome State Fault Refusal :=
  .next { s with hostK := 0#3, hostPhase := .write }

/-- The host's digit write (R141) with K = HOST_K and V = HOST_VAL; the last completes with the saturated value. -/
def hostWrite (s : State) : Host.Outcome State Fault Refusal :=
  match putDigit s.hostK s.hostVal s with
  | none => .fault .noRule
  | some t =>
    let u := { t with hostK := s.hostK + 1#3 }
    if writesDone s.params (s.hostK + 1#3) then .next (completeOk (saturated s.params s.hostVal) u) else .next u

/-- Position 0 is left blank exactly when DIGITS[0..2] are all zero (R145, R146). -/
def blankPosition (s : State) : Bool :=
  s.pos == 0 && s.digits.d0 == 0#4 && s.digits.d1 == 0#4 && s.digits.d2 == 0#4

/-- The scan tick (R145): blank, drive the digit of POS unless position 0 is blanked, advance POS. None where SEGTAB is not
defined at the digit (R150). -/
def scanTick (s : State) : Option State :=
  if blankPosition s then some { s with segOut := 0x00#8, dselOut := 0b0000#4, pos := nextPosition s.params s.pos }
  else
    match segCode s.params (Digits.get s.digits s.pos) with
    | none => none
    | some code => some { s with segOut := code, dselOut := selectLine s.pos, pos := nextPosition s.params s.pos }

end Sys2Proof.Machine
end

