-- ==== Sys2Proof/Machine/HostControl.lean ====
section
/-! DEFINITION. Host control (44_host_control.md): command acceptance (R211), and NOP, ILLEGAL and WAITMS (R213 to R215). -/

namespace Sys2Proof.Machine

/-- Command acceptance of a word w while BUSY = 0 (R211). -/
def acceptCommand (w : CmdWord) (s : State) : State :=
  { s with cmd := w, hostVal := w.imm16, busy := true, hostPhase := .start }

/-- A command presented on the port: accepted only while BUSY = 0; otherwise it is no step (R211, R217). -/
def presentCommand (w : CmdWord) (s : State) : Host.Outcome State Fault Refusal :=
  if s.busy then .refused .commandWhileBusy else .next (acceptCommand w s)

/-- NOP, START micro-step (R213). -/
def execNop (s : State) : Host.Outcome State Fault Refusal := .next (completeOk 0x0000#16 s)

/-- ILLEGAL, START micro-step (R214). -/
def execIllegal (s : State) : Host.Outcome State Fault Refusal := .next (completeFail errIllegalCmd s)

/-- WAITMS, START micro-step (R215). Its operand is HOST_VAL, latched at acceptance (R211; log 9). -/
def execWaitms (s : State) : Host.Outcome State Fault Refusal :=
  if s.hostVal = 0#16 then .next (completeOk 0x0000#16 s)
  else .next { s with hostCnt := s.hostVal, hostPhase := .count }

/-- The wait-end micro-step (R215), enabled only when HOST_CNT = 0. -/
def waitEnd (s : State) : State := completeOk 0x0000#16 s

end Sys2Proof.Machine
end

