-- ==== Sys2Proof/Machine/Dispatch.lean ====
section
/-! DEFINITION. The START micro-step dispatch (44_host_control.md R219): what the micro-step does for the command CMD decodes to. -/

namespace Sys2Proof.Machine

def exec (i : Instr) (s : State) : Host.Outcome State Fault Refusal :=
  match i with
  | .nop => Sys2Proof.Machine.execNop s
  | .rdframe => Sys2Proof.Machine.execRdframe s
  | .extract m => Sys2Proof.Machine.execExtract m s
  | .extractCur => Sys2Proof.Machine.execExtractCur s
  | .measure _ => Sys2Proof.Machine.execMeasure s
  | .measureCur => Sys2Proof.Machine.execMeasureCur s
  | .setdig _ => Sys2Proof.Machine.execSetdig s
  | .alarmchk _ => Sys2Proof.Machine.execAlarmchk s
  | .beep => Sys2Proof.Machine.execBeep s
  | .waitms _ => Sys2Proof.Machine.execWaitms s
  | .illegal _ => Sys2Proof.Machine.execIllegal s

end Sys2Proof.Machine
end

