-- ==== Sys2Proof/Machine/Events.lean ====
section
/-! DEFINITION. The input events (30_encoding.md R90): RESET (R262), MS (R240), TONE (R192), RXBYTE (R111), BTN (R160). Each is one
atomic step and none waits for FG (R237). -/

namespace Sys2Proof.Machine

/-- RESET with button level b (R261, R262): every register to its reset value, BTN_LINE <- b; no edge is detected. The
parameters and the schedule are not registers. -/
def resetEvent (b : Bool) (s : State) : State := State.resetWith s.params b s.stim

/-- SW_CNT after an MS event (R162). -/
def debounceCount (s : State) : Nat :=
  if s.swState = .debounce ∧ 0 < s.swCnt then s.swCnt - 1 else s.swCnt

/-- The release poll period ends with this strobe (R165): always at RELEASE_POLL_MS = 1, and every RELEASE_POLL_MS strobes at
another value. DESIGN CHOICE (log 23). -/
def pollEnds (s : State) : Bool := decide (s.params.releasePollMs ≤ s.swPoll + 1)

/-- SW_DUE after an MS event (R165). -/
def releaseDue (s : State) : Bool := if s.swState = .release ∧ pollEnds s = true then true else s.swDue

/-- The poll count after an MS event (log 23). -/
def pollCount (s : State) : Nat := if s.swState = .release then (if pollEnds s then 0 else s.swPoll + 1) else s.swPoll

/-- HOST_CNT after an MS event (R215): only while the handler is idle. -/
def waitCount (s : State) : BitVec 16 :=
  if s.hostPhase = .count ∧ s.swState = .idle ∧ s.hostCnt ≠ 0#16 then s.hostCnt - 1#16 else s.hostCnt

/-- The MS event (R240): scan tick, debounce count, release clock and WAITMS count, each reading the state before. -/
def msEvent (s : State) : Host.Outcome State Fault Refusal :=
  match scanTick s with
  | none => .fault .digitRange
  | some t => .next { t with swCnt := debounceCount s, swDue := releaseDue s, swPoll := pollCount s, hostCnt := waitCount s }

/-- RXBYTE (R111). -/
def rxByteEvent (b : Byte) (s : State) : State :=
  { s with rxq := rxPush s.params.rxFifoDepth s.params.rxOverrunPolicy s.rxq b }

/-- BTN with new level l (R160): a fall from IDLE enters the handler, a fall while it is busy is latched or dropped. -/
def btnEvent (l : Bool) (s : State) : State :=
  let t := { s with btnLine := l }
  if s.btnLine = true ∧ l = false then
    if s.swState = .idle then handlerEntry t
    else
      match s.params.edgePendingPolicy with
      | .latchOne => { t with swPending := true }
      | .discard => t
  else t

/-- The step of one event (R90). -/
def eventStep (e : Event) (s : State) : Host.Outcome State Fault Refusal :=
  match e with
  | .reset b => .next (resetEvent b s)
  | .ms => msEvent s
  | .tone => toneEvent s
  | .rxByte b => .next (rxByteEvent b s)
  | .btn l => .next (btnEvent l s)

/-- The step of an event word; a word that names no event is refused (R91). -/
def eventWordStep (w : EventWord) (s : State) : Host.Outcome State Fault Refusal :=
  match decodeEvent w with
  | none => .refused .reservedEvent
  | some e => eventStep e s

end Sys2Proof.Machine
end

