-- ==== Sys2Proof/Machine/Switch.lean ====
section
/-! DEFINITION. The SWITCH (42_mode_switch.md): the micro-steps of the handler, from the debounce sample to its exit (R162 to R167). -/

namespace Sys2Proof.Machine

/-- The debounce sample (R162), enabled only when SW_CNT = 0: a line at 1 aborts, a line at 0 is a valid press. -/
def debounceSample (s : State) : State :=
  if s.btnLine then handlerExit s else { s with swState := .actMode }

/-- The mode advance (R163): MODE, IND_OUT, StartRx(SW), READ, in one micro-step. IND is not defined at 3 (R31, R234). -/
def modeAdvance (s : State) : Host.Outcome State Fault Refusal :=
  match currentMode s, indicator (nextMode s.params s.mode) with
  | some m, some ind =>
    .next { startRx .sw { s with mode := nextMode s.params m, indOut := ind } with swState := .read }
  | _, _ => .fault .modeReserved

/-- The handler's receive (R164, READ): OK goes to the extraction, a header mismatch skips the refresh. -/
def swRead (s : State) : Host.Outcome State Fault Refusal :=
  match receive .sw s with
  | none => .next s
  | some (.more, t) => .next t
  | some (.ok, t) => .next { t with swState := .extract }
  | some (.hdrMismatch, t) => .next (enterRelease t)

/-- The handler's extraction (R125, R164, EXTRACT) with m = MODE, the new mode. -/
def swExtract (s : State) : Host.Outcome State Fault Refusal :=
  match extractField .sw s.mode s with
  | .value v => .next { s with swVal := v, swK := 0#3, swState := .write }
  | .invalidMode => .fault .swInvalidMode
  | .unwritten => .fault .unwrittenFrameByte

/-- The handler's digit write (R141, R164, WRITE) with K = SW_K and V = SW_VAL; the last enters RELEASE. -/
def swWrite (s : State) : Host.Outcome State Fault Refusal :=
  match putDigit s.swK s.swVal s with
  | none => .fault .noRule
  | some t =>
    let u := { t with swK := s.swK + 1#3 }
    if writesDone s.params (s.swK + 1#3) then .next (enterRelease u) else .next u

/-- The release sample (R166), enabled only when SW_DUE = 1. -/
def releaseSample (s : State) : State :=
  let t := { s with swDue := false }
  if s.btnLine then handlerExit t else t

end Sys2Proof.Machine
end

