-- ==== Sys2Proof/Machine/Sequencer.lean ====
section
/-! DEFINITION. The foreground sequencer FG (10_state.md R23): the running context, when its next micro-step is enabled, and the
micro-step that the context's phase register selects (R92). -/

namespace Sys2Proof.Machine

/-- The running context (R23): SW when SW_STATE is not IDLE, else HOST when BUSY = 1, else none. -/
def runningContext (s : State) : Option Ctx :=
  if s.swState ≠ .idle then some .sw else if s.busy then some .host else none

/-- A receive of context c is enabled: a reception is in progress and RXQ holds a byte (R23, R112). -/
def receiveEnabled (c : Ctx) (s : State) : Bool := (rd c s).ph != .none && !s.rxq.isEmpty

/-- The enabling condition of the host's next micro-step (R23). BUSY = 1 with HOST_PHASE = IDLE selects none (log 12). -/
def hostEnabled (s : State) : Bool :=
  match s.hostPhase with
  | .idle => false
  | .start => true
  | .read => receiveEnabled .host s
  | .extract => true
  | .write => true
  | .toneWait => !s.toneActive
  | .count => s.hostCnt == 0#16
  | .reserved => true

/-- The enabling condition of the handler's next micro-step (R23, R162, R166). -/
def swEnabled (s : State) : Bool :=
  match s.swState with
  | .idle => false
  | .debounce => s.swCnt == 0
  | .actMode => true
  | .read => receiveEnabled .sw s
  | .extract => true
  | .write => true
  | .release => s.swDue
  | .reserved => true

/-- FG has an enabled micro-step (R23). -/
def fgEnabled (s : State) : Bool :=
  match runningContext s with
  | none => false
  | some .host => hostEnabled s
  | some .sw => swEnabled s

/-- FG is quiescent (R220): no command in progress and the handler idle. -/
def quiescent (s : State) : Bool := !s.busy && s.swState == .idle

/-- The host's micro-step that HOST_PHASE selects (R24, R219). -/
def hostMicroStep (s : State) : Host.Outcome State Fault Refusal :=
  match s.hostPhase with
  | .idle => .next s
  | .start => exec (decode s.cmd) s
  | .read => hostRead s
  | .extract => hostExtract s
  | .write => hostWrite s
  | .toneWait => .next (toneWaitEnd s)
  | .count => .next (waitEnd s)
  | .reserved => .fault .hostPhaseReserved

/-- The handler's micro-step that SW_STATE selects (R25). -/
def swMicroStep (s : State) : Host.Outcome State Fault Refusal :=
  match s.swState with
  | .idle => .next s
  | .debounce => .next (debounceSample s)
  | .actMode => modeAdvance s
  | .read => swRead s
  | .extract => swExtract s
  | .write => swWrite s
  | .release => .next (releaseSample s)
  | .reserved => .fault .swStateReserved

/-- A turn of FG: the running context's micro-step where it is enabled; where none is, nothing changes (R23; log 2). -/
def fgStep (s : State) : Host.Outcome State Fault Refusal :=
  if fgEnabled s then
    match runningContext s with
    | none => .next s
    | some .host => hostMicroStep s
    | some .sw => swMicroStep s
  else .next s

/-- The step of one scheduled move (R10). -/
def stimulusStep (x : Stimulus) (s : State) : Host.Outcome State Fault Refusal :=
  match x with
  | .event w => eventWordStep w s
  | .command w => presentCommand w s
  | .foreground => fgStep s

end Sys2Proof.Machine
end

