-- ==== Sys2Proof/Machine/Step.lean ====
section
/-! DEFINITION. One step of the block (00_scope.md R10) and the placing of a command where the next step runs it. -/

namespace Sys2Proof.Machine

/-- One step: a state outside the rules faults (R234; log 7); else the next scheduled move happens; with none scheduled, FG
moves (log 1). -/
def step (s : State) : Host.Outcome State Fault Refusal :=
  match outsideRules s with
  | some f => .fault f
  | none =>
    match s.stim with
    | [] => fgStep s
    | x :: rest => stimulusStep x { s with stim := rest }

/-- s with the command word accepted and the handler idle, so that the very next step is the command's START micro-step: CMD,
HOST_VAL, BUSY and HOST_PHASE as acceptance sets them (R211), SW_STATE = IDLE so that HOST is the running context (R23), and
a turn of FG next in the schedule (log 5). -/
def State.withFetchWord (s : State) (nbits w : Nat) : State :=
  { acceptCommand (BitVec.ofNat 24 (w % 2 ^ nbits)) s with swState := .idle, stim := .foreground :: s.stim }

end Sys2Proof.Machine
end

