-- ==== Sys2Proof/Machine/Assembler.lean ====
section
/-! DEFINITION. The assembler syntax (30_encoding.md R93) and the pseudo-instructions (R94), over tokens: a mnemonic and at most one
operand, and the stimulus lines of the environment. Text and spacing are left out (log 18). -/

namespace Sys2Proof.Machine

/-- A mnemonic of R93 or a pseudo-instruction of R94. -/
inductive Mnemonic where
  | nop | rdframe | extract | measure | setdig | alarmchk | beep | waitms
  /-- `CLRDISP` (R94). -/
  | clrdisp
  /-- `WAITPOLL` (R94). -/
  | waitpoll
  deriving DecidableEq, Repr

/-- An operand of R93. -/
inductive AsmOperand where
  /-- No operand. -/
  | none
  /-- `PM1_0`, `PM2_5`, `PM10`. -/
  | pm1_0 | pm2_5 | pm10
  /-- `CUR`: C = 1, MODE = 0. -/
  | cur
  /-- `#n`. -/
  | imm (n : Nat)
  deriving DecidableEq, Repr

/-- The `<mode>` operand of EXTRACT and MEASURE (R93); with no operand it is `CUR` (R94). Of the `#n` operands only `#3` is a
mode operand. -/
def assembleMode (explicit : ModeBits → Instr) (current : Instr) : AsmOperand → Option Instr
  | .none => some current
  | .cur => some current
  | .pm1_0 => some (explicit 0#2)
  | .pm2_5 => some (explicit 1#2)
  | .pm10 => some (explicit 2#2)
  | .imm n => if n = 3 then some (explicit 3#2) else none

/-- The `#n` operand, 0..65535 (R93). WAITPOLL with POLL_INTERVAL_MS above 65535 is refused like any other. DESIGN CHOICE
(log 24). -/
def assembleImm (build : Half → Instr) : AsmOperand → Option Instr
  | .imm n => if n < 65536 then some (build (BitVec.ofNat 16 n)) else none
  | _ => none

/-- A line with no operand (R93). -/
def assembleBare (i : Instr) : AsmOperand → Option Instr
  | .none => some i
  | _ => none

/-- The command a line stands for; refused lines give none (R93, R94). -/
def assemble (p : Params) (m : Mnemonic) (o : AsmOperand) : Option Instr :=
  match m with
  | .nop => assembleBare .nop o
  | .rdframe => assembleBare .rdframe o
  | .extract => assembleMode .extract .extractCur o
  | .measure => assembleMode .measure .measureCur o
  | .setdig => assembleImm .setdig o
  | .alarmchk => assembleImm .alarmchk o
  | .beep => assembleBare .beep o
  | .waitms => assembleImm .waitms o
  | .clrdisp => assembleBare (.setdig 0#16) o
  | .waitpoll =>
    match o with
    | .none => assembleImm .waitms (.imm p.pollIntervalMs)
    | _ => none

/-- The word of a line (R93, R95). -/
def assembleWord (p : Params) (m : Mnemonic) (o : AsmOperand) : Option CmdWord := (assemble p m o).map encode

/-- A stimulus line (R93), a presented command, or a number of FG turns (the `FG×n` of 95_test_vectors.md). -/
inductive StimulusLine where
  /-- `@RESET b`. -/
  | reset (b : Bool)
  /-- `@MS×n`. -/
  | ms (n : Nat)
  /-- `@TONE×n`. -/
  | tone (n : Nat)
  /-- `@RX 0xNN`. -/
  | rx (b : Byte)
  /-- `@BTN b`. -/
  | btn (l : Bool)
  /-- A presented command word. -/
  | command (w : CmdWord)
  /-- `FG×n`. `~` is any n that leaves FG with no enabled micro-step, since a turn with none enabled changes nothing. -/
  | foreground (n : Nat)
  deriving DecidableEq, Repr

/-- The scheduled moves a line stands for (R93). -/
def StimulusLine.moves : StimulusLine → List Stimulus
  | .reset b => [.event (encodeEvent (.reset b))]
  | .ms n => List.replicate n (.event (encodeEvent .ms))
  | .tone n => List.replicate n (.event (encodeEvent .tone))
  | .rx b => [.event (encodeEvent (.rxByte b))]
  | .btn l => [.event (encodeEvent (.btn l))]
  | .command w => [.command w]
  | .foreground n => List.replicate n .foreground

end Sys2Proof.Machine
end

