-- ==== Sys2Proof/Machine/MainLoop.lean ====
section
/-! DEFINITION. The host program (44_host_control.md R216): the source's MainLoop as the commands it issues and where it goes after
each. It is the host's, not the block's: `min`, the branch and the loop stand here, and no step of the block reads them. It
gives the claims about a polling host their terms (R196; log 19). -/

namespace Sys2Proof.Machine

/-- Where the MainLoop stands: the command it issues next, with the saturated value it carries. -/
inductive HostPoint where
  /-- MEASURE CUR. -/
  | measure
  /-- SETDIG #v. -/
  | publish (v : Half)
  /-- ALARMCHK #v. -/
  | check (v : Half)
  /-- WAITMS #POLL_INTERVAL_MS. -/
  | wait
  deriving DecidableEq, Repr

/-- The command the MainLoop issues (R216). Its wait is WAITPOLL, WAITMS #POLL_INTERVAL_MS (R94): R6 sets POLL_INTERVAL_MS no
bound, and above 65535 no word stands for that line (R93), so there is none. DESIGN CHOICE (log 24). -/
def hostCommand (p : Params) : HostPoint → Option Instr
  | .measure => some .measureCur
  | .publish v => some (.setdig v)
  | .check v => some (.alarmchk v)
  | .wait => assemble p .waitpoll .none

/-- Where the MainLoop goes when the command has completed with result r (R216): a failed measurement skips the display and
the alarm, and waits all the same (D36). -/
def hostNext (p : Params) (r : Result) : HostPoint → HostPoint
  | .measure => if r.ok then .publish (saturated p r.value) else .wait
  | .publish v => .check v
  | .check _ => .wait
  | .wait => .measure

end Sys2Proof.Machine
end

