-- ==== Sys2Proof/Machine/Outputs.lean ====
section
/-! DEFINITION. The output signals (00_scope.md R5, 10_state.md R33, R42): combinational images of registers, the four output buses
under their polarity parameters. Nothing else reaches a pin. -/

namespace Sys2Proof.Machine

/-- A bus of n lines under its polarity (R33): `active_high` drives the logical value, `active_low` its complement. -/
def drive (n : Nat) (l : Level) (v : BitVec n) : BitVec n :=
  match l with
  | .activeHigh => v
  | .activeLow => ~~~v

/-- `seg`, 8 lines: SEG_OUT under SEG_LEVEL (R42). -/
def segPins (s : State) : BitVec 8 := drive 8 s.params.segLevel s.segOut

/-- `dsel`, 4 lines: DSEL_OUT under DSEL_LEVEL (R42). -/
def dselPins (s : State) : BitVec 4 := drive 4 s.params.dselLevel s.dselOut

/-- `ind`, 3 lines: IND_OUT under IND_LEVEL (R42). -/
def indPins (s : State) : BitVec 3 := drive 3 s.params.indLevel s.indOut

/-- `tone`, 1 line: TONE_OUT under TONE_LEVEL (R42). -/
def tonePin (s : State) : BitVec 1 := drive 1 s.params.toneLevel (BitVec.ofBool s.toneOut)

/-- `busy` = BUSY (R42). -/
def busyPin (s : State) : Bool := s.busy

/-- `res_ok` = RESULT.OK (R42). -/
def resOkPin (s : State) : Bool := s.result.ok

/-- `res_value` = RESULT.VALUE (R42). -/
def resValuePins (s : State) : Half := s.result.value

/-- `res_err` = STATUS.ERR (R42). -/
def resErrPins (s : State) : BitVec 3 := s.status

end Sys2Proof.Machine
end

