-- ==== Sys2Proof/Safety.lean ====
section
/-! DEFINITION. What claims call a sound state and a safe run: the invariant `Inv`, whose clauses are the properties the spec derives
of every reachable state, and the absence of model faults (60_exceptions.md R234). -/

namespace Sys2Proof.Machine

/-- The first n bytes of a frame buffer have been written (R43). -/
def filled (m : Memory) (n : Nat) : Bool := (List.range n).all fun a => (Memory.read m a).isSome

/-- The buffer's header bytes are the required ones (R34, R80, R81). -/
def headerGood (p : Params) (m : Memory) : Bool :=
  Memory.read m 0 == some p.hdr0 && Memory.read m 1 == some p.hdr1

/-- The reception registers of one context agree with its buffer (R34, R35, R120 to R122): what RD says has been received
has been written and checked, IDX is in its range, FRAME_VALID stands only over a whole frame with a good header, and never
during a reception. -/
def receptionSound (p : Params) (r : Rd) (valid : Bool) (m : Memory) : Bool :=
  Memory.wf m
    && (match r.ph with
        | .none => r.idx == 0#5
        | .h0 => r.idx == 0#5 && !valid
        | .h1 => r.idx == 0#5 && !valid && Memory.read m 0 == some p.hdr0
        | .pay => decide (2 ≤ r.idx.toNat) && decide (r.idx.toNat < p.frameLen) && !valid && headerGood p m
            && filled m r.idx.toNat)
    && (!valid || (headerGood p m && filled m p.frameLen))

/-- The phase of the host's command is one its operation has (R126, R127, R140, R191, R194, R215). -/
def phaseFitsCommand (ph : HostPhase) (w : CmdWord) : Bool :=
  match ph with
  | .idle => true
  | .start => true
  | .read => w.op == opRdframe || w.op == opMeasure
  | .extract => w.op == opMeasure
  | .write => w.op == 0x4#4
  | .toneWait => w.op == opAlarmchk || w.op == 0x6#4
  | .count => w.op == 0x7#4
  | .reserved => false

/-- The tone registers (R38, R190, R192, R195): silent and at rest outside a tone; during one, at least one half-period is left,
at most 2 x TONE_CYCLES, and the line is high exactly while an even number is left. -/
def toneSound (p : Params) (active : Bool) (left : Nat) (out : Bool) : Bool :=
  if active then decide (1 ≤ left) && decide (left ≤ toneHalfPeriods p) && (out == (left % 2 == 0))
  else left == 0 && out == false

/-- The properties of every reachable state that the rules give, clause by clause. -/
structure Inv (s : State) : Prop where
  /-- The parameters are ones the block can have (R6). -/
  params_wf : s.params.wf = true
  /-- None of the states of R234. -/
  inside_rules : outsideRules s = none
  /-- HOST_PHASE = IDLE exactly when BUSY = 0 (R24). -/
  idle_iff_not_busy : s.hostPhase = .idle ↔ s.busy = false
  /-- The phase is one CMD's operation has (R219). -/
  phase_fits : phaseFitsCommand s.hostPhase s.cmd = true
  /-- HOST_VAL is CMD's IMM16 (R22, R211). -/
  host_val : s.hostVal = s.cmd.imm16
  /-- VALUE is 0x0000 when OK = 0, and ERR is NONE when OK = 1 (R26, R27). -/
  result_form : if s.result.ok then s.status = errNone else s.result.value = 0x0000#16
  /-- IND_OUT = IND(MODE) (R31). -/
  indicator_shows_mode : indicator s.mode = some s.indOut
  /-- At most one digit-select line is enabled, and with none enabled no segment is lit (R145, R149). -/
  one_digit : (s.dselOut = 0#4 ∧ s.segOut = 0#8) ∨ ∃ p, s.dselOut = selectLine p
  /-- RXQ holds at most RX_FIFO_DEPTH bytes (R36). -/
  rxq_bound : s.rxq.length ≤ s.params.rxFifoDepth
  /-- The host's reception registers agree with its buffer. -/
  host_reception : receptionSound s.params s.rdHost s.frameValidHost s.frameHost = true
  /-- The handler's reception registers agree with its buffer. -/
  sw_reception : receptionSound s.params s.rdSw s.frameValidSw s.frameSw = true
  /-- The host receives exactly in READ (R126, R127, R212). -/
  host_reads : s.hostPhase = .read ↔ s.rdHost.ph ≠ .none
  /-- The handler receives exactly in READ (R163, R164). -/
  sw_reads : s.swState = .read ↔ s.rdSw.ph ≠ .none
  /-- The host's extraction is due only over a whole accepted frame (R125). -/
  host_extract_ready : s.hostPhase = .extract → s.frameValidHost = true
  /-- The handler's extraction is due only over a whole accepted frame (R125). -/
  sw_extract_ready : s.swState = .extract → s.frameValidSw = true
  /-- In WRITE at most three digit writes are done (R141). -/
  host_k : s.hostPhase = .write → s.hostK.toNat < 4
  /-- In WRITE at most three digit writes are done (R141). -/
  sw_k : s.swState = .write → s.swK.toNat < 4
  /-- The WAITMS count runs in COUNT only (R247). -/
  host_cnt : s.hostCnt ≠ 0#16 → s.hostPhase = .count
  /-- The debounce count is at most DEBOUNCE_MS and runs in DEBOUNCE only (R22, R247). -/
  sw_cnt : s.swCnt ≤ s.params.debounceMs ∧ (s.swCnt ≠ 0 → s.swState = .debounce)
  /-- A release sample is due only in RELEASE (R165, R166). -/
  sw_due : s.swDue = true → s.swState = .release
  /-- The poll count is below RELEASE_POLL_MS (log 23). -/
  sw_poll : s.swPoll < s.params.releasePollMs
  /-- An edge is latched only while the handler is busy, and only under `latch_one` (R160, R167). -/
  sw_pending : s.swPending = true → s.swState ≠ .idle ∧ s.params.edgePendingPolicy = .latchOne
  /-- The tone registers (R38, R195). -/
  tone_sound : toneSound s.params s.toneActive s.toneLeft s.toneOut = true
  /-- A tone sounds only while a host command waits for it (R190, R193). -/
  tone_waited : s.toneActive = true → s.hostPhase = .toneWait

/-- n steps from s end in no fault (R234: a model that reaches one has left the rules). -/
def faultFree (n : Nat) (s : State) : Prop := ∀ f, Host.Core.run Sys2Proof.core n s ≠ .fault f

/-- One move of a run: a turn of FG, an event, or a presented command. -/
inductive Move where
  | fg
  | event (e : Event)
  | command (w : CmdWord)
  deriving DecidableEq, Repr

/-- The step of one move (R10). -/
def moveStep (x : Move) (s : State) : Host.Outcome State Fault Refusal :=
  match x with
  | .fg => fgStep s
  | .event e => eventStep e s
  | .command w => presentCommand w s

/-- s after the given moves, while each answers a next state. -/
def moveRun : List Move → State → Host.Outcome State Fault Refusal
  | [], s => .next s
  | x :: xs, s =>
    match moveStep x s with
    | .next t => moveRun xs t
    | .fault f => .fault f
    | .refused r => .refused r

/-- s with n turns of FG taken (the `FG×n` of 95_test_vectors.md). -/
def fgRun (n : Nat) (s : State) : Host.Outcome State Fault Refusal := moveRun (List.replicate n .fg) s

/-- s after the given events. -/
def eventRun (es : List Event) (s : State) : Host.Outcome State Fault Refusal := moveRun (es.map .event) s

/-- A digit buffer holding the decimal digits of a saturated value: [0, hundreds, tens, units] (R142). -/
def digitsOf (v : Nat) : Digits :=
  { d0 := digitOf v 0, d1 := digitOf v 1, d2 := digitOf v 2, d3 := digitOf v 3 }

end Sys2Proof.Machine
end

