-- ==== Sys2Proof/Certificates/Slice0/Obligations.lean ====
section
/-! DEFINITION. The statements for the provers. A next state is written as an update of the state before, so that a statement
gives the result and the frame at once: every register, buffer byte, parameter and scheduled move that the update does not
name is unchanged. -/

open Sys2Proof Sys2Proof.Machine

/-! ## Encodings (30_encoding.md) -/

/-- R83, R84, R87: the decoder gives back every well-formed command, with every operand at every value. -/
def Obligations.DecodeInvertsEncode : Prop :=
  ∀ i : Instr, i.wellFormed = true → decode (encode i) = i

/-- R89: every word is exactly one row's, the rows are disjoint, and ILLEGAL is the row of every other word. -/
def Obligations.EveryWordIsExactlyOneCommand : Prop :=
  (∀ w : CmdWord, (decode w).wellFormed = true ∧ encode (decode w) = w)
  ∧ rows.Pairwise (fun r r' => ∀ w, ¬ (r.hits w = true ∧ r'.hits w = true))
  ∧ ∀ w : CmdWord, (∀ r ∈ rows, r.hits w = false) ↔ decode w = .illegal w

/-- R88: the words that are illegal, (a) to (e), and what the block does with them. -/
def Obligations.IllegalWordsAreThoseNamed : Prop :=
  ∀ w : CmdWord,
    ((∃ v, decode w = .illegal v) ↔
      (8 ≤ (w.extractLsb' 20 4).toNat
      ∨ (w.extractLsb' 20 4 ∈ [0x0#4, 0x1#4, 0x6#4] ∧ w.extractLsb' 0 20 ≠ 0#20)
      ∨ (w.extractLsb' 20 4 ∈ [0x2#4, 0x3#4] ∧ (w.extractLsb' 18 1 ≠ 0#1 ∨ w.extractLsb' 0 16 ≠ 0#16))
      ∨ (w.extractLsb' 20 4 ∈ [0x2#4, 0x3#4] ∧ w.extractLsb' 19 1 = 1#1 ∧ w.extractLsb' 16 2 ≠ 0#2)
      ∨ (w.extractLsb' 20 4 ∈ [0x4#4, 0x5#4, 0x7#4] ∧ w.extractLsb' 16 4 ≠ 0#4)))
    ∧ ∀ s : State, (∃ v, decode w = .illegal v) →
        exec (decode w) s = .next { s with
          result := { ok := false, value := 0x0000#16 }, status := 4#3, busy := false, hostPhase := .idle }

/-- R95: the spec's encoding examples, in both directions: each line's word is the command's, and decodes to it. -/
def Obligations.SpecWordsDecode : Prop :=
  ∀ x ∈ [(Instr.nop, 0x000000#24), (.rdframe, 0x100000#24), (.extract 0#2, 0x200000#24), (.extract 1#2, 0x210000#24),
      (.extract 2#2, 0x220000#24), (.extract 3#2, 0x230000#24), (.extractCur, 0x280000#24), (.measure 2#2, 0x320000#24),
      (.measureCur, 0x380000#24), (.setdig 123#16, 0x40007B#24), (.alarmchk 75#16, 0x50004B#24), (.beep, 0x600000#24),
      (.waitms 500#16, 0x7001F4#24), (.illegal 0x800000#24, 0x800000#24), (.illegal 0x100001#24, 0x100001#24),
      (.illegal 0x290000#24, 0x290000#24), (.illegal 0x410000#24, 0x410000#24)],
    decode x.2 = x.1 ∧ encode x.1 = x.2

/-- R90, R91: an event has one word, and a word names no event exactly when its KIND is reserved or an SBZ bit is set. -/
def Obligations.EventWordsNameEvents : Prop :=
  (∀ e : Event, decodeEvent (encodeEvent e) = some e)
  ∧ (∀ (w : EventWord) (e : Event), decodeEvent w = some e → encodeEvent e = w)
  ∧ ∀ w : EventWord, decodeEvent w = none ↔
      (5 ≤ (w.extractLsb' 8 4).toNat
      ∨ (w.extractLsb' 8 4 ∈ [0x0#4, 0x4#4] ∧ w.extractLsb' 1 7 ≠ 0#7)
      ∨ (w.extractLsb' 8 4 ∈ [0x1#4, 0x2#4] ∧ w.extractLsb' 0 8 ≠ 0#8))

/-- R94: the pseudo-instructions' expansions. -/
def Obligations.PseudoInstructionsExpand : Prop :=
  ∀ p : Params,
    assembleWord p .measure .none = assembleWord p .measure .cur ∧ assembleWord p .measure .none = some 0x380000#24
    ∧ assembleWord p .extract .none = assembleWord p .extract .cur ∧ assembleWord p .extract .none = some 0x280000#24
    ∧ assembleWord p .clrdisp .none = assembleWord p .setdig (.imm 0) ∧ assembleWord p .clrdisp .none = some 0x400000#24
    ∧ assembleWord p .waitpoll .none = assembleWord p .waitms (.imm p.pollIntervalMs)
    ∧ (p.pollIntervalMs = 500 → assembleWord p .waitpoll .none = some 0x7001F4#24)

/-! ## Steps, acceptance and the sequencer (00_scope.md R10, 10_state.md R23, 44_host_control.md) -/

/-- R219: the host's START micro-step runs the command CMD decodes to. -/
def Obligations.StepRunsTheDecodedCommand : Prop :=
  ∀ (s : State) (i : Instr), outsideRules s = none → s.swState = .idle → s.busy = true → s.hostPhase = .start →
    decode s.cmd = i →
    (s.stim = [] → step s = exec i s)
    ∧ ∀ rest, s.stim = .foreground :: rest → step s = exec i { s with stim := rest }

/-- The model's own interface (log 5): a placed command is accepted as R211 says and is what the very next step runs. -/
def Obligations.PlacedCommandRunsNext : Prop :=
  ∀ (s : State) (w : CmdWord), outsideRules s = none →
    step (s.withFetchWord 24 w.toNat) =
      exec (decode w) { s with
        cmd := w, hostVal := w.extractLsb' 0 16, busy := true, hostPhase := .start, swState := .idle }

/-- R10, R234 (log 1, 7): a state outside the rules, which is one of those R234 and 93_implementation_defined.md list, faults
whatever is scheduled; else the next scheduled move happens, an event word as the event it names (R90, R91), and with none
scheduled FG moves. -/
def Obligations.StepTakesTheNextMove : Prop :=
  ∀ s : State,
    ((∃ f, outsideRules s = some f) ↔
      (s.hostPhase = .reserved ∨ s.swState = .reserved ∨ s.mode = 3#2 ∨ 4 < s.status.toNat
      ∨ 9 < s.digits.d0.toNat ∨ 9 < s.digits.d1.toNat ∨ 9 < s.digits.d2.toNat ∨ 9 < s.digits.d3.toNat
      ∨ s.digits.d0 ≠ 0#4))
    ∧ (∀ f, outsideRules s = some f → step s = .fault f)
    ∧ (outsideRules s = none →
        (s.stim = [] → step s = fgStep s)
        ∧ (∀ rest, s.stim = .foreground :: rest → step s = fgStep { s with stim := rest })
        ∧ (∀ w rest, s.stim = .command w :: rest → step s = presentCommand w { s with stim := rest })
        ∧ (∀ w e rest, s.stim = .event w :: rest → decodeEvent w = some e → step s = eventStep e { s with stim := rest })
        ∧ (∀ w rest, s.stim = .event w :: rest → decodeEvent w = none → step s = .refused .reservedEvent))

/-- R211: acceptance latches CMD and HOST_VAL and raises BUSY, whatever the handler does, and RESULT and STATUS stay; a command
presented while BUSY = 1 has no step (R217). -/
def Obligations.CommandAcceptance : Prop :=
  ∀ (s : State) (w : CmdWord),
    (s.busy = false → moveStep (.command w) s = .next { s with
      cmd := w, hostVal := w.extractLsb' 0 16, busy := true, hostPhase := .start })
    ∧ (s.busy = true → moveStep (.command w) s = .refused .commandWhileBusy)

/-- R23, R112, R162, R166, R193, R215, R219: the enabling condition of FG's micro-step in every position of either context. The
model's own choices: READ with PH = NONE and BUSY = 1 with HOST_PHASE = IDLE enable none (log 12), and a turn with none enabled
changes nothing (log 2). -/
def Obligations.ForegroundEnabling : Prop :=
  ∀ s : State,
    (s.swState = .idle → s.busy = false → fgEnabled s = false)
    ∧ (s.swState = .debounce → (fgEnabled s = true ↔ s.swCnt = 0))
    ∧ (s.swState = .release → (fgEnabled s = true ↔ s.swDue = true))
    ∧ ((s.swState = .actMode ∨ s.swState = .extract ∨ s.swState = .write) → fgEnabled s = true)
    ∧ (s.swState = .read → (fgEnabled s = true ↔ s.rdSw.ph ≠ .none ∧ s.rxq ≠ []))
    ∧ (s.swState = .idle → s.busy = true → s.hostPhase = .idle → fgEnabled s = false)
    ∧ (s.swState = .idle → s.busy = true →
        (s.hostPhase = .start ∨ s.hostPhase = .extract ∨ s.hostPhase = .write) → fgEnabled s = true)
    ∧ (s.swState = .idle → s.busy = true → s.hostPhase = .read → (fgEnabled s = true ↔ s.rdHost.ph ≠ .none ∧ s.rxq ≠ []))
    ∧ (s.swState = .idle → s.busy = true → s.hostPhase = .toneWait → (fgEnabled s = true ↔ s.toneActive = false))
    ∧ (s.swState = .idle → s.busy = true → s.hostPhase = .count → (fgEnabled s = true ↔ s.hostCnt = 0#16))
    ∧ (fgEnabled s = false → fgStep s = .next s)

/-- R23, R243: from a sound state an enabled micro-step answers a next state, and a different one: FG never spins. -/
def Obligations.EnabledMicroStepMakesProgress : Prop :=
  ∀ s : State, Inv s → fgEnabled s = true → ∃ t, fgStep s = .next t ∧ t ≠ s

/-- R168, R272 (and R23): the handler's micro-steps never start a tone and never write RESULT, STATUS, any HOST register or the
host's frame buffer; nor do they touch the scanner's registers. -/
def Obligations.HandlerLeavesTheHostAlone : Prop :=
  ∀ s t : State, s.swState ≠ .idle → fgStep s = .next t →
    t.result = s.result ∧ t.status = s.status ∧ t.cmd = s.cmd ∧ t.busy = s.busy ∧ t.hostPhase = s.hostPhase
    ∧ t.hostCnt = s.hostCnt ∧ t.hostVal = s.hostVal ∧ t.hostK = s.hostK ∧ t.rdHost = s.rdHost
    ∧ t.frameHost = s.frameHost ∧ t.frameValidHost = s.frameValidHost
    ∧ t.toneActive = s.toneActive ∧ t.toneLeft = s.toneLeft ∧ t.toneOut = s.toneOut
    ∧ t.pos = s.pos ∧ t.segOut = s.segOut ∧ t.dselOut = s.dselOut ∧ t.btnLine = s.btnLine

/-! ## The commands' START micro-steps -/

/-- R213, R214: NOP and ILLEGAL complete at once and change nothing but RESULT, STATUS, BUSY and HOST_PHASE. -/
def Obligations.NopAndIllegalComplete : Prop :=
  ∀ (s : State) (w : CmdWord),
    exec .nop s = .next { s with
      result := { ok := true, value := 0x0000#16 }, status := 0#3, busy := false, hostPhase := .idle }
    ∧ exec (.illegal w) s = .next { s with
      result := { ok := false, value := 0x0000#16 }, status := 4#3, busy := false, hostPhase := .idle }

/-- R120 in the START micro-steps of R126 and R127: RDFRAME and every form of MEASURE start a reception and no more; the bytes
of FRAME[HOST] and the handler's flag and progress stay. -/
def Obligations.ReceptionCommandsStart : Prop :=
  ∀ (s : State) (i : Instr), (i = .rdframe ∨ (∃ m, i = .measure m) ∨ i = .measureCur) →
    exec i s = .next { s with
      frameValidHost := false, rdHost := { ph := .h0, idx := 0#5 }, hostPhase := .read }

/-- R123: EXTRACT with an explicit mode. INVALID_MODE comes before NO_FRAME; the field is big-endian; a model faults on an
unwritten byte (R43). Mode 0 reads the field at OFF_PM1_0, 1 at OFF_PM2_5, 2 at OFF_PM10 (R80, R124). -/
def Obligations.ExtractResult : Prop :=
  ∀ (s : State) (m : ModeBits),
    (m = 3#2 → exec (.extract m) s = .next { s with
      result := { ok := false, value := 0x0000#16 }, status := 2#3, busy := false, hostPhase := .idle })
    ∧ (m ≠ 3#2 → s.frameValidHost = false → exec (.extract m) s = .next { s with
        result := { ok := false, value := 0x0000#16 }, status := 3#3, busy := false, hostPhase := .idle })
    ∧ (∀ off hi lo, (m, off) ∈ [(0#2, s.params.offPm1_0), (1#2, s.params.offPm2_5), (2#2, s.params.offPm10)] →
        s.frameValidHost = true → Memory.read s.frameHost off = some hi → Memory.read s.frameHost (off + 1) = some lo →
        exec (.extract m) s = .next { s with
          result := { ok := true, value := BitVec.ofNat 16 (hi.toNat * 256 + lo.toNat) }, status := 0#3, busy := false,
          hostPhase := .idle })
    ∧ (∀ off, (m, off) ∈ [(0#2, s.params.offPm1_0), (1#2, s.params.offPm2_5), (2#2, s.params.offPm10)] →
        s.frameValidHost = true →
        (Memory.read s.frameHost off = none ∨ Memory.read s.frameHost (off + 1) = none) →
        exec (.extract m) s = .fault .unwrittenFrameByte)

/-- R123, R85: EXTRACT CUR is EXTRACT of the mode MODE holds in this micro-step, with that mode's offset (R124); MODE = 3 is a
model fault (R234; log 16). -/
def Obligations.ExtractCurReadsMode : Prop :=
  ∀ s : State,
    (s.mode = 3#2 → exec .extractCur s = .fault .modeReserved)
    ∧ (s.mode ≠ 3#2 → s.frameValidHost = false → exec .extractCur s = .next { s with
        result := { ok := false, value := 0x0000#16 }, status := 3#3, busy := false, hostPhase := .idle })
    ∧ (∀ off hi lo, (s.mode, off) ∈ [(0#2, s.params.offPm1_0), (1#2, s.params.offPm2_5), (2#2, s.params.offPm10)] →
        s.frameValidHost = true → Memory.read s.frameHost off = some hi → Memory.read s.frameHost (off + 1) = some lo →
        exec .extractCur s = .next { s with
          result := { ok := true, value := BitVec.ofNat 16 (hi.toNat * 256 + lo.toNat) }, status := 0#3, busy := false,
          hostPhase := .idle })

/-- R43, R123: from a sound state EXTRACT in every form completes; no unwritten byte is read. -/
def Obligations.ExtractAlwaysCompletes : Prop :=
  ∀ (s : State) (i : Instr), Inv s → ((∃ m, i = .extract m) ∨ i = .extractCur) →
    ∃ r e, exec i s = .next { s with result := r, status := e, busy := false, hostPhase := .idle }
      ∧ (r.ok = true ↔ e = 0#3) ∧ (r.ok = false → r.value = 0x0000#16)

/-- R140: SETDIG's START micro-step; the operand waits in HOST_VAL, where acceptance latched it (R211). -/
def Obligations.SetdigStarts : Prop :=
  ∀ (s : State) (v : Half),
    exec (.setdig v) s = .next { s with hostK := 0#3, hostPhase := .write }

/-- R194: ALARMCHK fires exactly when min(v, DISPLAY_MAX) is at least ALARM_THRESHOLD; firing is R190's tone start and the
wait, and not firing completes with VALUE = 0. -/
def Obligations.AlarmCheckCompares : Prop :=
  ∀ (s : State) (v : Half), s.hostVal = v →
    (s.params.alarmThreshold ≤ min v.toNat s.params.displayMax → toneHalfPeriods s.params ≠ 0 →
      exec (.alarmchk v) s = .next { s with
        toneActive := true, toneLeft := toneHalfPeriods s.params, toneOut := true, hostPhase := .toneWait })
    ∧ (s.params.alarmThreshold ≤ min v.toNat s.params.displayMax → toneHalfPeriods s.params = 0 →
        exec (.alarmchk v) s = .next { s with hostPhase := .toneWait })
    ∧ (min v.toNat s.params.displayMax < s.params.alarmThreshold →
        exec (.alarmchk v) s = .next { s with
          result := { ok := true, value := 0x0000#16 }, status := 0#3, busy := false, hostPhase := .idle })

/-- R190, R191: BEEP's START micro-step. -/
def Obligations.BeepStarts : Prop :=
  ∀ s : State,
    (2 * s.params.toneCycles ≠ 0 → exec .beep s = .next { s with
      toneActive := true, toneLeft := 2 * s.params.toneCycles, toneOut := true, hostPhase := .toneWait })
    ∧ (2 * s.params.toneCycles = 0 → exec .beep s = .next { s with hostPhase := .toneWait })

/-- R215, START micro-step: WAITMS #0 completes at once, else the count is loaded. -/
def Obligations.WaitmsStarts : Prop :=
  ∀ (s : State) (n : BitVec 16), s.hostVal = n →
    (n = 0#16 → exec (.waitms n) s = .next { s with
      result := { ok := true, value := 0x0000#16 }, status := 0#3, busy := false, hostPhase := .idle })
    ∧ (n ≠ 0#16 → exec (.waitms n) s = .next { s with hostCnt := n, hostPhase := .count })

/-! ## Whole commands -/

/-- R62, R126, R130: RDFRAME over a frame with a good header. START and FRAME_LEN receives take exactly the frame, store byte k
at offset k whatever the payload is, and succeed. -/
def Obligations.RdframeReceivesTheFrame : Prop :=
  ∀ (s : State) (bytes rest : List Byte), s.params.wf = true → s.swState = .idle → s.busy = true → s.hostPhase = .start →
    decode s.cmd = .rdframe → s.rxq = bytes ++ rest → bytes.length = s.params.frameLen →
    bytes[0]? = some s.params.hdr0 → bytes[1]? = some s.params.hdr1 →
    ∃ m : Memory,
      fgRun (1 + s.params.frameLen) s = .next { s with
        frameHost := m, frameValidHost := true, rdHost := { ph := .none, idx := 0#5 }, rxq := rest,
        result := { ok := true, value := 0x0000#16 }, status := 0#3, busy := false, hostPhase := .idle }
      ∧ (∀ k, k < s.params.frameLen → Memory.read m k = bytes[k]?)
      ∧ ∀ k, s.params.frameLen ≤ k → Memory.read m k = Memory.read s.frameHost k

/-- R127, R130: MEASURE over a frame with a good header stores byte k at offset k (R62) and returns exactly the big-endian field
of the effective mode, at OFF_PM1_0, OFF_PM2_5 or OFF_PM10 (R124), whatever the other bytes are; `MEASURE #3` consumes the frame
and fails INVALID_MODE. -/
def Obligations.MeasureReturnsTheField : Prop :=
  ∀ (s : State) (bytes rest : List Byte) (m : ModeBits), s.params.wf = true → s.swState = .idle → s.busy = true →
    s.hostPhase = .start → (decode s.cmd = .measure m ∨ (decode s.cmd = .measureCur ∧ s.mode = m ∧ m ≠ 3#2)) →
    s.rxq = bytes ++ rest → bytes.length = s.params.frameLen →
    bytes[0]? = some s.params.hdr0 → bytes[1]? = some s.params.hdr1 →
    ∃ (f : Memory) (r : Result) (e : BitVec 3),
      fgRun (2 + s.params.frameLen) s = .next { s with
        frameHost := f, frameValidHost := true, rdHost := { ph := .none, idx := 0#5 }, rxq := rest,
        result := r, status := e, busy := false, hostPhase := .idle }
      ∧ (∀ k, k < s.params.frameLen → Memory.read f k = bytes[k]?)
      ∧ (∀ k, s.params.frameLen ≤ k → Memory.read f k = Memory.read s.frameHost k)
      ∧ (m = 3#2 → r = { ok := false, value := 0x0000#16 } ∧ e = 2#3)
      ∧ ∀ off hi lo, (m, off) ∈ [(0#2, s.params.offPm1_0), (1#2, s.params.offPm2_5), (2#2, s.params.offPm10)] →
          bytes[off]? = some hi → bytes[off + 1]? = some lo →
          r.ok = true ∧ r.value.toNat = hi.toNat * 256 + lo.toNat ∧ e = 0#3

/-- R121, R128, R130: a reception whose byte 0 or byte 1 is not the header's fails with HDR_MISMATCH, having consumed exactly
one or two bytes; the rest of the stream stays. -/
def Obligations.HeaderMismatchConsumesOneOrTwo : Prop :=
  ∀ (s : State) (i : Instr) (b0 b1 : Byte) (rest : List Byte), s.swState = .idle → s.busy = true → s.hostPhase = .start →
    decode s.cmd = i → (i = .rdframe ∨ (∃ m, i = .measure m) ∨ i = .measureCur) →
    (b0 ≠ s.params.hdr0 → s.rxq = b0 :: rest →
      fgRun 2 s = .next { s with
        frameHost := Memory.write s.frameHost 0 b0, frameValidHost := false, rdHost := { ph := .none, idx := 0#5 },
        rxq := rest, result := { ok := false, value := 0x0000#16 }, status := 1#3, busy := false, hostPhase := .idle })
    ∧ (b0 = s.params.hdr0 → b1 ≠ s.params.hdr1 → s.rxq = b0 :: b1 :: rest →
        fgRun 3 s = .next { s with
          frameHost := Memory.write (Memory.write s.frameHost 0 b0) 1 b1, frameValidHost := false,
          rdHost := { ph := .none, idx := 0#5 }, rxq := rest, result := { ok := false, value := 0x0000#16 }, status := 1#3,
          busy := false, hostPhase := .idle })

/-- R142, with R140 and R141: a whole SETDIG. In any write order that visits each digit once, DIGITS is
[0, s/100 % 10, s/10 % 10, s % 10] with s = min(v, DISPLAY_MAX), and RESULT.VALUE is s. -/
def Obligations.SetdigWritesSaturatedDigits : Prop :=
  ∀ (s : State) (v : Half), s.params.wf = true → s.swState = .idle → s.busy = true → s.hostPhase = .start →
    decode s.cmd = .setdig v → s.hostVal = v →
    fgRun 5 s = .next { s with
      digits :=
        { d0 := 0#4, d1 := BitVec.ofNat 4 (min v.toNat s.params.displayMax / 100 % 10),
          d2 := BitVec.ofNat 4 (min v.toNat s.params.displayMax / 10 % 10),
          d3 := BitVec.ofNat 4 (min v.toNat s.params.displayMax % 10) },
      hostK := 4#3, result := { ok := true, value := BitVec.ofNat 16 (min v.toNat s.params.displayMax) }, status := 0#3,
      busy := false, hostPhase := .idle }

/-- R66, R70: after k of a SETDIG's four writes the first k positions of DIGIT_WRITE_ORDER are new and the rest are old. -/
def Obligations.SetdigIsTornBetweenWrites : Prop :=
  ∀ (s : State) (v : Half) (k : Nat), s.params.wf = true → s.swState = .idle → s.busy = true → s.hostPhase = .start →
    decode s.cmd = .setdig v → s.hostVal = v → k < 4 →
    ∃ d : Digits, fgRun (1 + k) s = .next { s with digits := d, hostK := BitVec.ofNat 3 k, hostPhase := .write }
      ∧ ∀ j : Fin 4, Digits.get d s.params.digitWriteOrder[j] =
          if j.val < k then digitOf (min v.toNat s.params.displayMax) s.params.digitWriteOrder[j]
          else Digits.get s.digits s.params.digitWriteOrder[j]

/-- R273: a handler's SETDIG of w inside a host's SETDIG of v that has done k writes: the handler's four writes, its release
sample, then the host's remaining writes. The first k positions of DIGIT_WRITE_ORDER hold w, the others v. The poll count at
0 is the model's own (log 23). -/
def Obligations.HandlerInsideSetdigMixesDigits : Prop :=
  ∀ (s : State) (v w : Half) (k : Nat), s.params.wf = true → s.busy = true → s.hostPhase = .write → 1 ≤ k → k ≤ 3 →
    s.hostK = BitVec.ofNat 3 k → s.hostVal = v → s.swState = .write → s.swK = 0#3 → s.swVal = w → s.btnLine = true →
    s.swPending = false →
    ∃ d : Digits, fgRun (4 + 1 + (4 - k)) s = .next { s with
        digits := d, hostK := 4#3, swK := 4#3, swState := .idle, swDue := false, swPoll := 0,
        result := { ok := true, value := BitVec.ofNat 16 (min v.toNat s.params.displayMax) }, status := 0#3, busy := false,
        hostPhase := .idle }
      ∧ ∀ j : Fin 4, Digits.get d s.params.digitWriteOrder[j] =
          digitOf (min (if j.val < k then w else v).toNat s.params.displayMax) s.params.digitWriteOrder[j]

/-- R195: the waveform. After ToneStart and k TONE events the line is high for even k and low for odd k, and after
2 x TONE_CYCLES events the tone has ended with the line at rest. -/
def Obligations.ToneWaveform : Prop :=
  ∀ (s : State) (k : Nat), 1 ≤ s.params.toneCycles → k ≤ 2 * s.params.toneCycles →
    eventRun (List.replicate k .tone) (toneStart s) = .next { s with
      toneActive := decide (k < 2 * s.params.toneCycles), toneLeft := 2 * s.params.toneCycles - k,
      toneOut := decide (k < 2 * s.params.toneCycles ∧ k % 2 = 0) }

/-- R192: TONE events while no tone sounds change nothing; R193: a waiting command completes exactly when the tone has ended,
with VALUE 1 for ALARMCHK and 0 otherwise. That a turn of FG before that is a step, which changes nothing, is the model's choice
(log 2). -/
def Obligations.ToneWaitEnds : Prop :=
  ∀ s : State,
    (s.toneActive = false → eventStep .tone s = .next s)
    ∧ (s.swState = .idle → s.busy = true → s.hostPhase = .toneWait →
        (s.toneActive = true → fgStep s = .next s)
        ∧ (s.toneActive = false → fgStep s = .next { s with
            result := { ok := true, value := if s.cmd.extractLsb' 20 4 = 0x5#4 then 0x0001#16 else 0x0000#16 },
            status := 0#3, busy := false, hostPhase := .idle }))

/-- R215: k MS events with the handler idle take the count from n to n - k, the wait ends exactly at 0, and MS events while
the handler runs do not count. That a turn of FG before the end is a step, which changes nothing, is the model's choice (log
2). -/
def Obligations.WaitmsCountsMsEvents : Prop :=
  ∀ (s : State) (k : Nat), outsideRules s = none → s.busy = true → s.hostPhase = .count →
    ∃ t : State, eventRun (List.replicate k .ms) s = .next t
      ∧ t.busy = true ∧ t.hostPhase = .count ∧ t.swState = s.swState ∧ t.digits = s.digits ∧ t.result = s.result
      ∧ (s.swState ≠ .idle → t.hostCnt = s.hostCnt)
      ∧ (s.swState = .idle → t.hostCnt.toNat = s.hostCnt.toNat - k
          ∧ (s.hostCnt.toNat ≤ k → fgStep t = .next { t with
              result := { ok := true, value := 0x0000#16 }, status := 0#3, busy := false, hostPhase := .idle })
          ∧ (k < s.hostCnt.toNat → fgStep t = .next t))

/-- R125, R85, R135: MEASURE's extraction micro-step uses CMD's MODE field, or, with C = 1, the MODE register as it is then. -/
def Obligations.MeasureExtraction : Prop :=
  ∀ (s : State) (m : ModeBits) (off : Nat) (hi lo : Byte), s.swState = .idle → s.busy = true → s.hostPhase = .extract →
    m = (if s.cmd.getLsbD 19 then s.mode else s.cmd.extractLsb' 16 2) →
    (m = 3#2 → s.cmd.getLsbD 19 = false → fgStep s = .next { s with
      result := { ok := false, value := 0x0000#16 }, status := 2#3, busy := false, hostPhase := .idle })
    ∧ ((m, off) ∈ [(0#2, s.params.offPm1_0), (1#2, s.params.offPm2_5), (2#2, s.params.offPm10)] →
        Memory.read s.frameHost off = some hi →
        Memory.read s.frameHost (off + 1) = some lo → fgStep s = .next { s with
          result := { ok := true, value := BitVec.ofNat 16 (hi.toNat * 256 + lo.toNat) }, status := 0#3, busy := false,
          hostPhase := .idle })

/-! ## Events -/

/-- R145 to R147, R150: what a scan tick, part of every MS event, drives at each position: SEGTAB of the digit there, SEGTAB
being the parameter's table. POS always goes to the position after, modulo NUM_DIGITS (R6), which is POS + 1 modulo 4 at four
digits. A digit over 9, which R234 forbids, has no code and stops the tick. -/
def Obligations.ScanTickDrivesOneDigit : Prop :=
  ∀ s : State,
    let after : Fin 4 := Fin.ofNat 4 ((s.pos.val + 1) % s.params.numDigits)
    (s.pos = 0 → s.digits.d0 = 0#4 → s.digits.d1 = 0#4 → s.digits.d2 = 0#4 →
      scanTick s = some { s with segOut := 0x00#8, dselOut := 0b0000#4, pos := after })
    ∧ (s.pos = 0 → (s.digits.d0 ≠ 0#4 ∨ s.digits.d1 ≠ 0#4 ∨ s.digits.d2 ≠ 0#4) →
        ∀ code, s.params.segTab[s.digits.d0.toNat]? = some code →
          scanTick s = some { s with segOut := code, dselOut := 0b0001#4, pos := after })
    ∧ (s.pos = 1 → ∀ code, s.params.segTab[s.digits.d1.toNat]? = some code →
        scanTick s = some { s with segOut := code, dselOut := 0b0010#4, pos := after })
    ∧ (s.pos = 2 → ∀ code, s.params.segTab[s.digits.d2.toNat]? = some code →
        scanTick s = some { s with segOut := code, dselOut := 0b0100#4, pos := after })
    ∧ (s.pos = 3 → ∀ code, s.params.segTab[s.digits.d3.toNat]? = some code →
        scanTick s = some { s with segOut := code, dselOut := 0b1000#4, pos := after })
    ∧ (s.params.numDigits = 4 → after = s.pos + 1)
    ∧ (∀ d : BitVec 4, segCode s.params d = s.params.segTab[d.toNat]? ∧ (d.toNat ≤ 9 ↔ ∃ code, segCode s.params d = some code))
    ∧ (9 < (Digits.get s.digits s.pos).toNat → scanTick s = none)

/-- R240: the MS event's four parts, each over the state before, and nothing else, at RELEASE_POLL_MS = 1, the value R165 and
R240 are written at. The poll count, the model's own (log 23), is back at 0 in RELEASE and unchanged elsewhere. -/
def Obligations.MsEventParts : Prop :=
  ∀ s : State, outsideRules s = none → s.params.releasePollMs = 1 →
    ∃ t : State, scanTick s = some t
      ∧ eventStep .ms s = .next { s with
          segOut := t.segOut, dselOut := t.dselOut, pos := t.pos,
          swCnt := if s.swState = .debounce ∧ 0 < s.swCnt then s.swCnt - 1 else s.swCnt,
          swDue := if s.swState = .release then true else s.swDue,
          swPoll := if s.swState = .release then 0 else s.swPoll,
          hostCnt := if s.hostPhase = .count ∧ s.swState = .idle ∧ s.hostCnt ≠ 0#16 then s.hostCnt - 1#16 else s.hostCnt }

/-- R144, R237: whatever FG is doing, the MS event is taken, and what it drives depends on POS, DIGITS, SEGTAB and NUM_DIGITS
alone: two states that agree on those show the same. -/
def Obligations.ScannerIgnoresTheForeground : Prop :=
  ∀ s s' : State, outsideRules s = none → outsideRules s' = none → s.pos = s'.pos → s.digits = s'.digits →
    s.params.segTab = s'.params.segTab → s.params.numDigits = s'.params.numDigits →
    ∃ t t' : State, eventStep .ms s = .next t ∧ eventStep .ms s' = .next t'
      ∧ t.segOut = t'.segOut ∧ t.dselOut = t'.dselOut ∧ t.pos = t'.pos

/-- R148: k MS events advance POS by k modulo 4, so four visit POS, POS + 1, POS + 2 and POS + 3, once each, and come back. The
rule is for NUM_DIGITS = 4, the one value DIGITS has room for (log 11). -/
def Obligations.RotationVisitsEveryPosition : Prop :=
  ∀ (s : State) (k : Nat), outsideRules s = none → s.params.numDigits = 4 →
    ∃ t : State, eventRun (List.replicate k .ms) s = .next t ∧ t.pos.val = (s.pos.val + k) % 4 ∧ t.digits = s.digits
      ∧ (1 ≤ k → s.digits.d1 ≠ 0#4 → t.dselOut = 1#4 <<< ((s.pos.val + k - 1) % 4))

/-- R111, R36, R76: a byte joins the queue's end while there is room; at a full queue one byte is lost by policy, the others
keep their order, and the bound holds. -/
def Obligations.ByteArrival : Prop :=
  ∀ (s : State) (b : Byte) (c : Byte) (q : List Byte), 1 ≤ s.params.rxFifoDepth → s.rxq.length ≤ s.params.rxFifoDepth →
    (s.rxq.length < s.params.rxFifoDepth → eventStep (.rxByte b) s = .next { s with rxq := s.rxq ++ [b] })
    ∧ (s.rxq.length = s.params.rxFifoDepth → s.params.rxOverrunPolicy = .dropNew →
        eventStep (.rxByte b) s = .next s)
    ∧ (s.rxq.length = s.params.rxFifoDepth → s.params.rxOverrunPolicy = .dropOldest → s.rxq = c :: q →
        eventStep (.rxByte b) s = .next { s with rxq := q ++ [b] })
    ∧ ∀ t, eventStep (.rxByte b) s = .next t → t.rxq.length ≤ s.params.rxFifoDepth

/-- R160, R161: a level event. A fall from IDLE enters the handler and leaves the host's registers where they are (R241); a
fall while the handler is busy is latched once or dropped (R279); anything else only moves BTN_LINE. -/
def Obligations.ButtonEvent : Prop :=
  ∀ (s : State) (l : Bool),
    (s.btnLine = true → l = false → s.swState = .idle →
      eventStep (.btn l) s = .next { s with btnLine := false, swState := .debounce, swCnt := s.params.debounceMs })
    ∧ (s.btnLine = true → l = false → s.swState ≠ .idle → s.params.edgePendingPolicy = .latchOne →
        eventStep (.btn l) s = .next { s with btnLine := false, swPending := true })
    ∧ (s.btnLine = true → l = false → s.swState ≠ .idle → s.params.edgePendingPolicy = .discard →
        eventStep (.btn l) s = .next { s with btnLine := false })
    ∧ ((s.btnLine = false ∨ l = true) → eventStep (.btn l) s = .next { s with btnLine := l })

/-- R261, R262: RESET from any state gives every register its reset value and takes the button's level; no edge is detected,
nothing in progress survives, and the next reset leaves the same state. The poll count, the model's own, is 0 (log 23). -/
def Obligations.ResetEventResetsEverything : Prop :=
  ∀ (s s' : State) (b : Bool),
    (∃ t : State, eventStep (.reset b) s = .next t
      ∧ t.cmd = 0x000000#24 ∧ t.busy = false ∧ t.result = { ok := false, value := 0x0000#16 } ∧ t.status = 0#3
      ∧ t.hostPhase = .idle ∧ t.hostCnt = 0#16 ∧ t.hostVal = 0#16 ∧ t.hostK = 0#3
      ∧ t.mode = BitVec.ofNat 2 s.params.resetMode.val ∧ indicator t.mode = some t.indOut
      ∧ t.digits = { d0 := 0#4, d1 := 0#4, d2 := 0#4, d3 := 0#4 } ∧ t.pos = 0 ∧ t.segOut = 0x00#8 ∧ t.dselOut = 0b0000#4
      ∧ t.frameValidHost = false ∧ t.frameValidSw = false ∧ t.rdHost = { ph := .none, idx := 0#5 }
      ∧ t.rdSw = { ph := .none, idx := 0#5 } ∧ t.rxq = [] ∧ (∀ a, Memory.read t.frameHost a = none)
      ∧ (∀ a, Memory.read t.frameSw a = none) ∧ t.swState = .idle ∧ t.swCnt = 0 ∧ t.swDue = false ∧ t.swPending = false
      ∧ t.swVal = 0#16 ∧ t.swK = 0#3 ∧ t.toneActive = false ∧ t.toneLeft = 0 ∧ t.toneOut = false ∧ t.btnLine = b ∧ t.swPoll = 0
      ∧ t.params = s.params ∧ t.stim = s.stim)
    ∧ (s.params = s'.params → s.stim = s'.stim → eventStep (.reset b) s = eventStep (.reset b) s')

/-! ## The switch handler -/

/-- R162, R169: from a fall in IDLE, over any MS and BTN events. Before DEBOUNCE_MS MS events FG has no step; then it samples
the line once: low is a valid press, high aborts with MODE, IND_OUT, DIGITS, the frames and RXQ as they were. That a turn of FG
before then is a step, which changes nothing, is the model's choice (log 2). -/
def Obligations.DebounceSamplesOnce : Prop :=
  ∀ (s : State) (es : List Event), outsideRules s = none → s.swState = .idle → s.btnLine = true →
    (∀ e ∈ es, e = .ms ∨ ∃ l, e = .btn l) →
    ∃ t : State, eventRun (.btn false :: es) s = .next t ∧ t.swState = .debounce
      ∧ (es.count .ms < s.params.debounceMs → fgStep t = .next t)
      ∧ (s.params.debounceMs ≤ es.count .ms → t.btnLine = false → fgStep t = .next { t with swState := .actMode })
      ∧ (s.params.debounceMs ≤ es.count .ms → t.btnLine = true →
          ∃ u : State, fgStep t = .next u
            ∧ (t.swPending = false → u.swState = .idle)
            ∧ (t.swPending = true → u.swState = .debounce ∧ u.swCnt = s.params.debounceMs ∧ u.swPending = false)
            ∧ u.mode = s.mode ∧ u.indOut = s.indOut ∧ u.digits = s.digits ∧ u.rxq = s.rxq
            ∧ u.frameHost = s.frameHost ∧ u.frameSw = s.frameSw ∧ u.frameValidSw = s.frameValidSw)

/-- R163, R170: the mode advance writes MODE, IND_OUT, FRAME_VALID[SW], RD[SW] and SW_STATE in one micro-step, MODE steps
PM1_0, PM2_5, PM10, PM1_0, and the lines show the cumulative pattern: R163's cycle of NUM_MODES = 3 modes. At fewer modes MODE
steps modulo NUM_MODES (R6), which is the model's reading (log 11). -/
def Obligations.ModeAdvanceCycles : Prop :=
  ∀ s : State, s.swState = .actMode →
    (s.params.numModes = 3 → s.mode = 0#2 → fgStep s = .next { s with
      mode := 1#2, indOut := 0b011#3, frameValidSw := false, rdSw := { ph := .h0, idx := 0#5 }, swState := .read })
    ∧ (s.params.numModes = 3 → s.mode = 1#2 → fgStep s = .next { s with
        mode := 2#2, indOut := 0b111#3, frameValidSw := false, rdSw := { ph := .h0, idx := 0#5 }, swState := .read })
    ∧ (s.params.numModes = 3 → s.mode = 2#2 → fgStep s = .next { s with
        mode := 0#2, indOut := 0b001#3, frameValidSw := false, rdSw := { ph := .h0, idx := 0#5 }, swState := .read })
    ∧ (s.mode ≠ 3#2 → 1 ≤ s.params.numModes → s.params.numModes ≤ 3 →
        ∃ (m : ModeBits) (ind : BitVec 3), m.toNat = (s.mode.toNat + 1) % s.params.numModes
          ∧ (m, ind) ∈ [(0#2, 0b001#3), (1#2, 0b011#3), (2#2, 0b111#3)]
          ∧ fgStep s = .next { s with
              mode := m, indOut := ind, frameValidSw := false, rdSw := { ph := .h0, idx := 0#5 }, swState := .read })

/-- R164, R141: the handler's measurement of a good frame in the mode MODE holds, and the display refresh with it: FRAME_LEN
receives, which store byte k at offset k (R62), the extraction at the mode's offset (R124), four digit writes; then RELEASE
with a sample due. The poll count at 0 is the model's own (log 23). -/
def Obligations.HandlerRefreshesTheDisplay : Prop :=
  ∀ (s : State) (bytes rest : List Byte) (off : Nat) (hi lo : Byte), s.params.wf = true → s.swState = .read →
    s.rdSw = { ph := .h0, idx := 0#5 } → s.rxq = bytes ++ rest → bytes.length = s.params.frameLen →
    bytes[0]? = some s.params.hdr0 → bytes[1]? = some s.params.hdr1 →
    (s.mode, off) ∈ [(0#2, s.params.offPm1_0), (1#2, s.params.offPm2_5), (2#2, s.params.offPm10)] →
    bytes[off]? = some hi → bytes[off + 1]? = some lo →
    ∃ m : Memory, fgRun (s.params.frameLen + 1 + 4) s = .next { s with
        frameSw := m, frameValidSw := true, rdSw := { ph := .none, idx := 0#5 }, rxq := rest,
        swVal := BitVec.ofNat 16 (hi.toNat * 256 + lo.toNat),
        digits := digitsOf (min (hi.toNat * 256 + lo.toNat) s.params.displayMax), swK := 4#3, swState := .release,
        swDue := true, swPoll := 0 }
      ∧ (∀ k, k < s.params.frameLen → Memory.read m k = bytes[k]?)
      ∧ ∀ k, s.params.frameLen ≤ k → Memory.read m k = Memory.read s.frameSw k

/-- R164: a header mismatch of the handler's reception skips the refresh: DIGITS stay, the mode advance stays, RELEASE. The
poll count at 0 is the model's own (log 23). -/
def Obligations.HandlerMismatchSkipsTheRefresh : Prop :=
  ∀ (s : State) (b : Byte) (rest : List Byte), s.swState = .read → s.rxq = b :: rest →
    (s.rdSw.ph = .h0 → b ≠ s.params.hdr0 → fgStep s = .next { s with
      frameSw := Memory.write s.frameSw 0 b, frameValidSw := false, rdSw := { ph := .none, idx := 0#5 }, rxq := rest,
      swState := .release, swDue := true, swPoll := 0 })
    ∧ (s.rdSw.ph = .h1 → b ≠ s.params.hdr1 → fgStep s = .next { s with
        frameSw := Memory.write s.frameSw 1 b, frameValidSw := false, rdSw := { ph := .none, idx := 0#5 }, rxq := rest,
        swState := .release, swDue := true, swPoll := 0 })

/-- R166, R167: the release sample: with none due nothing happens; still pressed, it waits; released, it exits to IDLE, or,
on a latched edge, into a new handler in the same step. That a turn of FG with none due is a step, which changes nothing, is the
model's choice (log 2). -/
def Obligations.ReleaseSampleExits : Prop :=
  ∀ s : State, s.swState = .release →
    (s.swDue = false → fgStep s = .next s)
    ∧ (s.swDue = true → s.btnLine = false → fgStep s = .next { s with swDue := false })
    ∧ (s.swDue = true → s.btnLine = true → s.swPending = false →
        fgStep s = .next { s with swDue := false, swState := .idle })
    ∧ (s.swDue = true → s.btnLine = true → s.swPending = true →
        fgStep s = .next { s with
          swDue := false, swPending := false, swState := .debounce, swCnt := s.params.debounceMs })

/-- R271, R134: byte theft. The host waits for payload byte IDX; the handler's reception takes the next byte and fails; the
line is released; the host then stores the byte after it at its own IDX, and nothing shows the loss. The poll count at 0 is
the model's own (log 23). -/
def Obligations.HandlerStealsTheHostsByte : Prop :=
  ∀ (s : State) (b b' : Byte) (rest : List Byte) (k : Nat), s.busy = true → s.hostPhase = .read →
    s.rdHost = { ph := .pay, idx := BitVec.ofNat 5 k } → 2 ≤ k → k + 1 < s.params.frameLen → s.params.frameLen ≤ 32 →
    s.swState = .read → s.rdSw = { ph := .h0, idx := 0#5 } → s.rxq = b :: b' :: rest → b ≠ s.params.hdr0 →
    s.btnLine = true → s.swPending = false →
    fgRun 3 s = .next { s with
      frameSw := Memory.write s.frameSw 0 b, frameValidSw := false, rdSw := { ph := .none, idx := 0#5 }, swState := .idle,
      swDue := false, swPoll := 0, frameHost := Memory.write s.frameHost k b', rdHost := { ph := .pay, idx := BitVec.ofNat 5 (k + 1) },
      rxq := rest }

/-- R274: a held button. In RELEASE with the line low, over any FG turns, MS, TONE and byte events, the handler stays in
RELEASE and the host's command stands where it stood; each such run goes on. That a turn of FG with no sample due is a step,
which changes nothing, is the model's choice (log 2). -/
def Obligations.HeldButtonFreezesTheHost : Prop :=
  ∀ (s : State) (xs : List Move), Inv s → s.swState = .release → s.btnLine = false →
    (∀ x ∈ xs, x = .fg ∨ x = .event .ms ∨ x = .event .tone ∨ ∃ b, x = .event (.rxByte b)) →
    ∃ t : State, moveRun xs s = .next t ∧ t.swState = .release
      ∧ t.cmd = s.cmd ∧ t.busy = s.busy ∧ t.result = s.result ∧ t.status = s.status ∧ t.hostPhase = s.hostPhase
      ∧ t.hostCnt = s.hostCnt ∧ t.hostVal = s.hostVal ∧ t.hostK = s.hostK ∧ t.rdHost = s.rdHost
      ∧ t.frameHost = s.frameHost ∧ t.frameValidHost = s.frameValidHost ∧ t.digits = s.digits ∧ t.mode = s.mode
      ∧ t.pos.val = (s.pos.val + xs.count (.event .ms)) % 4

/-- R132, R275: sensor stall. With RXQ empty and the running context receiving, no MS or TONE event and no FG turn ends the
wait, while the scanner goes on. That a turn of FG while it waits is a step, which changes nothing, is the model's choice (log
2). -/
def Obligations.SensorStallNeverEnds : Prop :=
  ∀ (s : State) (xs : List Move), Inv s → s.rxq = [] →
    (s.swState = .read ∨ (s.swState = .idle ∧ s.hostPhase = .read)) →
    (∀ x ∈ xs, x = .fg ∨ x = .event .ms ∨ x = .event .tone) →
    ∃ t : State, moveRun xs s = .next t ∧ fgStep t = .next t ∧ t.swState = s.swState ∧ t.hostPhase = s.hostPhase
      ∧ t.busy = s.busy ∧ t.rdHost = s.rdHost ∧ t.rdSw = s.rdSw ∧ t.rxq = [] ∧ t.digits = s.digits
      ∧ t.pos.val = (s.pos.val + xs.count (.event .ms)) % 4

/-! ## Invariants and whole-machine rules -/

/-- R262 with R22: the state after reset is sound, for every parameter the block can have. State.reset's own RESET_MODE and
button level are the model's choices (log 3, 4). -/
def Obligations.ResetIsSound : Prop :=
  (∀ (p : Params) (b : Bool) (stim : List Stimulus), p.wf = true → Inv (State.resetWith p b stim)) ∧ Inv State.reset

/-- Every step keeps the invariant: R24, R26, R29, R30, R31, R36, R38, R149 of every reachable state. -/
def Obligations.StepKeepsTheInvariant : Prop :=
  ∀ s t : State, Inv s → step s = .next t → Inv t

/-- R234, R43: no run from a sound state reaches a model fault, whatever is scheduled: in particular no unwritten FRAME byte
is read, and the handler never finds INVALID_MODE. -/
def Obligations.SoundRunsNeverFault : Prop :=
  ∀ (s : State) (n : Nat), Inv s → faultFree n s

/-- R40: single writers. In a move that is no RESET, each register changes only where its writers act. The poll count, the model's
own, goes with SW_DUE (log 23). -/
def Obligations.EachRegisterHasItsWriters : Prop :=
  ∀ (x : Move) (s t : State), (∀ b, x ≠ .event (.reset b)) → moveStep x s = .next t →
    ((t.mode ≠ s.mode ∨ t.indOut ≠ s.indOut) → x = .fg ∧ s.swState = .actMode)
    ∧ ((t.pos ≠ s.pos ∨ t.segOut ≠ s.segOut ∨ t.dselOut ≠ s.dselOut) → x = .event .ms)
    ∧ (t.digits ≠ s.digits → x = .fg ∧ (s.swState = .write ∨ (s.swState = .idle ∧ s.hostPhase = .write)))
    ∧ ((t.frameHost ≠ s.frameHost ∨ t.frameValidHost ≠ s.frameValidHost ∨ t.rdHost ≠ s.rdHost) →
        x = .fg ∧ s.swState = .idle ∧ (s.hostPhase = .start ∨ s.hostPhase = .read))
    ∧ ((t.frameSw ≠ s.frameSw ∨ t.frameValidSw ≠ s.frameValidSw ∨ t.rdSw ≠ s.rdSw) →
        x = .fg ∧ (s.swState = .actMode ∨ s.swState = .read))
    ∧ (t.rxq ≠ s.rxq →
        (∃ b, x = .event (.rxByte b)) ∨ (x = .fg ∧ (s.swState = .read ∨ (s.swState = .idle ∧ s.hostPhase = .read))))
    ∧ ((t.toneActive ≠ s.toneActive ∨ t.toneLeft ≠ s.toneLeft ∨ t.toneOut ≠ s.toneOut) →
        x = .event .tone ∨ (x = .fg ∧ s.swState = .idle ∧ s.hostPhase = .start))
    ∧ ((t.result ≠ s.result ∨ t.status ≠ s.status) → x = .fg ∧ s.swState = .idle ∧ s.busy = true)
    ∧ ((t.cmd ≠ s.cmd ∨ t.hostVal ≠ s.hostVal) → ∃ w, x = .command w)
    ∧ ((t.busy ≠ s.busy ∨ t.hostPhase ≠ s.hostPhase ∨ t.hostK ≠ s.hostK) →
        (∃ w, x = .command w) ∨ (x = .fg ∧ s.swState = .idle))
    ∧ (t.hostCnt ≠ s.hostCnt → x = .event .ms ∨ (x = .fg ∧ s.swState = .idle))
    ∧ ((t.swVal ≠ s.swVal ∨ t.swK ≠ s.swK) → x = .fg ∧ s.swState ≠ .idle)
    ∧ ((t.swState ≠ s.swState ∨ t.swPending ≠ s.swPending) →
        (∃ l, x = .event (.btn l)) ∨ (x = .fg ∧ s.swState ≠ .idle))
    ∧ (t.swCnt ≠ s.swCnt → (∃ l, x = .event (.btn l)) ∨ x = .event .ms ∨ (x = .fg ∧ s.swState ≠ .idle))
    ∧ ((t.swDue ≠ s.swDue ∨ t.swPoll ≠ s.swPoll) → x = .event .ms ∨ (x = .fg ∧ s.swState ≠ .idle))
    ∧ (t.btnLine ≠ s.btnLine → ∃ l, x = .event (.btn l))

/-- R6 (log 3): no step writes the parameters, and a step takes at most the first of the scheduled moves. -/
def Obligations.ParametersNeverChange : Prop :=
  ∀ s t : State, step s = .next t → t.params = s.params ∧ t.stim = s.stim.tail

/-- R247: with DEBOUNCE_MS at most 31 and 2 x TONE_CYCLES at most 2047, as at the nominal 20 and 1200, the counts fit the widths
the inventory gives SW_CNT and TONE_LEFT, which the model holds as numbers (log 10); in a sound state no counter but POS wraps: not
IDX on a payload byte before the last, not K on a digit write, and HOST_CNT and SW_CNT only ever fall by one, from above 0. -/
def Obligations.NominalCountsFitTheirWidths : Prop :=
  ∀ s : State, Inv s →
    (s.params.debounceMs ≤ 31 → s.swCnt < 2 ^ 5) ∧ (2 * s.params.toneCycles ≤ 2047 → s.toneLeft < 2 ^ 11)
    ∧ (s.rdHost.ph = .pay → 2 ≤ s.rdHost.idx.toNat ∧ s.rdHost.idx.toNat < s.params.frameLen
        ∧ (s.rdHost.idx.toNat + 1 ≠ s.params.frameLen → (s.rdHost.idx + 1#5).toNat = s.rdHost.idx.toNat + 1))
    ∧ (s.rdSw.ph = .pay → 2 ≤ s.rdSw.idx.toNat ∧ s.rdSw.idx.toNat < s.params.frameLen
        ∧ (s.rdSw.idx.toNat + 1 ≠ s.params.frameLen → (s.rdSw.idx + 1#5).toNat = s.rdSw.idx.toNat + 1))
    ∧ (s.hostPhase = .write → (s.hostK + 1#3).toNat = s.hostK.toNat + 1)
    ∧ (s.swState = .write → (s.swK + 1#3).toNat = s.swK.toNat + 1)
    ∧ ∀ t, eventStep .ms s = .next t →
        (t.hostCnt = s.hostCnt ∨ t.hostCnt.toNat + 1 = s.hostCnt.toNat) ∧ (t.swCnt = s.swCnt ∨ t.swCnt + 1 = s.swCnt)

/-- R42, R33: the outputs are images of registers, each output bus under its own polarity. -/
def Obligations.OutputsAreRegisterImages : Prop :=
  ∀ s : State,
    (s.params.segLevel = .activeHigh → segPins s = s.segOut) ∧ (s.params.segLevel = .activeLow → segPins s = ~~~s.segOut)
    ∧ (s.params.dselLevel = .activeHigh → dselPins s = s.dselOut)
    ∧ (s.params.dselLevel = .activeLow → dselPins s = ~~~s.dselOut)
    ∧ (s.params.indLevel = .activeHigh → indPins s = s.indOut) ∧ (s.params.indLevel = .activeLow → indPins s = ~~~s.indOut)
    ∧ (s.params.toneLevel = .activeHigh → (tonePin s = 1#1 ↔ s.toneOut = true))
    ∧ (s.params.toneLevel = .activeLow → (tonePin s = 1#1 ↔ s.toneOut = false))
    ∧ busyPin s = s.busy ∧ resOkPin s = s.result.ok ∧ resValuePins s = s.result.value ∧ resErrPins s = s.status

/-- R196 with the host program of R216: after a measurement with result r, the MainLoop's alarm check starts a tone exactly when
the measurement succeeded and min(v, DISPLAY_MAX) is at least ALARM_THRESHOLD; after a failure it goes to the wait. The wait is
WAITMS #POLL_INTERVAL_MS, and where that is above 65535 there is no such command: the model's choice (log 24). -/
def Obligations.MainLoopAlarmLaw : Prop :=
  ∀ (p : Params) (r r' : Result),
    hostCommand p .measure = some .measureCur
    ∧ (p.pollIntervalMs < 65536 → hostCommand p .wait = some (.waitms (BitVec.ofNat 16 p.pollIntervalMs)))
    ∧ (65536 ≤ p.pollIntervalMs → hostCommand p .wait = none) ∧ hostNext p r .wait = .measure
    ∧ (r.ok = false → hostNext p r .measure = .wait)
    ∧ (r.ok = true → ∃ v : Half, v.toNat = min r.value.toNat p.displayMax
        ∧ hostNext p r .measure = .publish v ∧ hostCommand p (.publish v) = some (.setdig v)
        ∧ hostNext p r' (.publish v) = .check v ∧ hostCommand p (.check v) = some (.alarmchk v)
        ∧ hostNext p r' (.check v) = .wait
        ∧ ∀ s : State, s.params = p → s.hostVal = v → s.toneActive = false → toneHalfPeriods p ≠ 0 →
            ∃ t : State, exec (.alarmchk v) s = .next t
              ∧ (t.toneActive = true ↔ p.alarmThreshold ≤ min r.value.toNat p.displayMax))

/-! ## Parameters, single receives and frame buffers -/

/-- R6: the source's values are the defaults of the parameters, and TONE_CYCLES and TONE_STROBE_HZ are derived from theirs: a
Params of which only the OPEN parameters are given has every other value of R6's table. -/
def Obligations.SourceValuesAreTheDefaults : Prop :=
  ∀ (r : Fin 3) (d : Nat) (o : OverrunPolicy) (e : EdgePolicy) (g : Vector Byte 10) (l1 l2 l3 l4 : Level),
    let p : Params := { resetMode := r, rxFifoDepth := d, rxOverrunPolicy := o, edgePendingPolicy := e, segTab := g,
                        segLevel := l1, dselLevel := l2, indLevel := l3, toneLevel := l4 }
    p.frameLen = 32 ∧ p.hdr0 = 0x42#8 ∧ p.hdr1 = 0x4D#8 ∧ p.offPm1_0 = 8 ∧ p.offPm2_5 = 10 ∧ p.offPm10 = 12
    ∧ p.numModes = 3 ∧ p.numDigits = 4 ∧ p.displayMax = 999 ∧ p.tickPeriodMs = 1 ∧ p.debounceMs = 20 ∧ p.releasePollMs = 1
    ∧ p.toneFreqHz = 2000 ∧ p.toneDurationMs = 300 ∧ p.toneCycles = 600 ∧ p.toneStrobeHz = 4000 ∧ p.pollIntervalMs = 500
    ∧ p.alarmThreshold = 75 ∧ p.digitWriteOrder = #v[0, 1, 2, 3]
    ∧ (p.wf = true ↔ 1 ≤ d)

/-- R60 to R62 (log 6): a byte written at an offset reads back there and nowhere else, and two buffers in the canonical form
that read alike are the same buffer; a write inside the buffer keeps the form. -/
def Obligations.FrameBufferReadsWhatWasWritten : Prop :=
  ∀ (m m' : Memory) (a : Nat) (b : Byte),
    (∀ k, Memory.read (Memory.write m a b) k = if k = a then some b else Memory.read m k)
    ∧ (m.wf = true → a < 32 → (Memory.write m a b).wf = true)
    ∧ (m.wf = true → m'.wf = true → (∀ k, Memory.read m k = Memory.read m' k) → m = m')

/-- R121, R122, R126, R127, R164: one receive micro-step, whatever else RXQ holds and whenever the byte came. The host's: a header
byte, a payload byte, the frame's last byte, and a bad header byte. The handler's: a header byte, a payload byte, the frame's last
byte. (Its bad header byte: HandlerMismatchSkipsTheRefresh.) -/
def Obligations.ReceiveMicroStep : Prop :=
  ∀ (s : State) (b : Byte) (q : List Byte), s.rxq = b :: q →
    (s.swState = .idle → s.busy = true → s.hostPhase = .read →
      (s.rdHost.ph = .h0 → b = s.params.hdr0 → fgStep s = .next { s with
        frameHost := Memory.write s.frameHost 0 b, rdHost := { ph := .h1, idx := 0#5 }, rxq := q })
      ∧ (s.rdHost.ph = .h1 → b = s.params.hdr1 → fgStep s = .next { s with
          frameHost := Memory.write s.frameHost 1 b, rdHost := { ph := .pay, idx := 2#5 }, rxq := q })
      ∧ (s.rdHost.ph = .pay → s.rdHost.idx.toNat + 1 ≠ s.params.frameLen → fgStep s = .next { s with
          frameHost := Memory.write s.frameHost s.rdHost.idx.toNat b, rdHost := { ph := .pay, idx := s.rdHost.idx + 1#5 },
          rxq := q })
      ∧ (s.rdHost.ph = .pay → s.rdHost.idx.toNat + 1 = s.params.frameLen → decode s.cmd = .rdframe → fgStep s = .next { s with
          frameHost := Memory.write s.frameHost s.rdHost.idx.toNat b, frameValidHost := true,
          rdHost := { ph := .none, idx := 0#5 }, rxq := q, result := { ok := true, value := 0x0000#16 }, status := 0#3,
          busy := false, hostPhase := .idle })
      ∧ (s.rdHost.ph = .pay → s.rdHost.idx.toNat + 1 = s.params.frameLen →
          ((∃ m, decode s.cmd = .measure m) ∨ decode s.cmd = .measureCur) → fgStep s = .next { s with
          frameHost := Memory.write s.frameHost s.rdHost.idx.toNat b, frameValidHost := true,
          rdHost := { ph := .none, idx := 0#5 }, rxq := q, hostPhase := .extract })
      ∧ (s.rdHost.ph = .h0 → b ≠ s.params.hdr0 → fgStep s = .next { s with
          frameHost := Memory.write s.frameHost 0 b, frameValidHost := false, rdHost := { ph := .none, idx := 0#5 }, rxq := q,
          result := { ok := false, value := 0x0000#16 }, status := 1#3, busy := false, hostPhase := .idle })
      ∧ (s.rdHost.ph = .h1 → b ≠ s.params.hdr1 → fgStep s = .next { s with
          frameHost := Memory.write s.frameHost 1 b, frameValidHost := false, rdHost := { ph := .none, idx := 0#5 }, rxq := q,
          result := { ok := false, value := 0x0000#16 }, status := 1#3, busy := false, hostPhase := .idle }))
    ∧ (s.swState = .read →
        (s.rdSw.ph = .h0 → b = s.params.hdr0 → fgStep s = .next { s with
          frameSw := Memory.write s.frameSw 0 b, rdSw := { ph := .h1, idx := 0#5 }, rxq := q })
        ∧ (s.rdSw.ph = .h1 → b = s.params.hdr1 → fgStep s = .next { s with
            frameSw := Memory.write s.frameSw 1 b, rdSw := { ph := .pay, idx := 2#5 }, rxq := q })
        ∧ (s.rdSw.ph = .pay → s.rdSw.idx.toNat + 1 ≠ s.params.frameLen → fgStep s = .next { s with
            frameSw := Memory.write s.frameSw s.rdSw.idx.toNat b, rdSw := { ph := .pay, idx := s.rdSw.idx + 1#5 }, rxq := q })
        ∧ (s.rdSw.ph = .pay → s.rdSw.idx.toNat + 1 = s.params.frameLen → fgStep s = .next { s with
            frameSw := Memory.write s.frameSw s.rdSw.idx.toNat b, frameValidSw := true, rdSw := { ph := .none, idx := 0#5 },
            rxq := q, swState := .extract }))

/-- R111, R112, R126, R127, R130, R164: a good frame that arrives byte by byte during the reception, at an RXQ of any depth: each
byte comes and is taken before the next. Each is stored at its own offset, in either context. -/
def Obligations.FrameArrivesByteByByte : Prop :=
  ∀ (s : State) (bytes : List Byte), s.params.wf = true → s.rxq = [] → bytes.length = s.params.frameLen →
    bytes[0]? = some s.params.hdr0 → bytes[1]? = some s.params.hdr1 →
    (s.swState = .idle → s.busy = true → s.hostPhase = .read → s.rdHost = { ph := .h0, idx := 0#5 } →
      ∃ m : Memory, (∀ k, k < s.params.frameLen → Memory.read m k = bytes[k]?)
        ∧ (∀ k, s.params.frameLen ≤ k → Memory.read m k = Memory.read s.frameHost k)
        ∧ (decode s.cmd = .rdframe →
            moveRun (bytes.flatMap fun b => [.event (.rxByte b), .fg]) s = .next { s with
              frameHost := m, frameValidHost := true, rdHost := { ph := .none, idx := 0#5 },
              result := { ok := true, value := 0x0000#16 }, status := 0#3, busy := false, hostPhase := .idle })
        ∧ (((∃ n, decode s.cmd = .measure n) ∨ decode s.cmd = .measureCur) →
            moveRun (bytes.flatMap fun b => [.event (.rxByte b), .fg]) s = .next { s with
              frameHost := m, frameValidHost := true, rdHost := { ph := .none, idx := 0#5 }, hostPhase := .extract }))
    ∧ (s.swState = .read → s.rdSw = { ph := .h0, idx := 0#5 } →
        ∃ m : Memory, (∀ k, k < s.params.frameLen → Memory.read m k = bytes[k]?)
          ∧ (∀ k, s.params.frameLen ≤ k → Memory.read m k = Memory.read s.frameSw k)
          ∧ moveRun (bytes.flatMap fun b => [.event (.rxByte b), .fg]) s = .next { s with
              frameSw := m, frameValidSw := true, rdSw := { ph := .none, idx := 0#5 }, swState := .extract })

/-- R6, R165 at any RELEASE_POLL_MS, the model's clock (log 23): after a sample with the line low, the next falls due with the
RELEASE_POLL_MS-th strobe and not before; the first strobe at the default 1. -/
def Obligations.ReleasePollClock : Prop :=
  ∀ (s : State) (k : Nat), outsideRules s = none → s.swState = .release → s.swPoll = 0 → s.swDue = false →
    1 ≤ s.params.releasePollMs →
    ∃ t : State, eventRun (List.replicate k .ms) s = .next t ∧ t.swState = .release
      ∧ t.swDue = decide (s.params.releasePollMs ≤ k)
end

