-- ==== Sys2Proof/Laws/Encoding.lean ====
section
/-! SUPPORT. The command word by its fields (R83, R84): a word is its five pieces, the masks of the opcode table keep or clear whole
pieces, and the decoder is a choice on the pieces. Later proofs cite `decode_pack` and never unfold `decode`. -/

namespace Sys2Proof

/-- A word from OP, C, bit 18, MODE and the low half (R83). -/
def pack (o : BitVec 4) (c z : BitVec 1) (m : BitVec 2) (v : BitVec 16) : CmdWord := o ++ c ++ z ++ m ++ v

section Pieces
variable (o : BitVec 4) (c z : BitVec 1) (m : BitVec 2) (v : BitVec 16)

@[simp] theorem pack_op : (pack o c z m v).extractLsb' 20 4 = o := by
  apply BitVec.eq_of_getLsbD_eq
  intro i hi
  simp only [pack, BitVec.getLsbD_append, BitVec.getLsbD_extractLsb']
  interval_cases i <;> simp

@[simp] theorem pack_c : (pack o c z m v).extractLsb' 19 1 = c := by
  apply BitVec.eq_of_getLsbD_eq
  intro i hi
  simp only [pack, BitVec.getLsbD_append, BitVec.getLsbD_extractLsb']
  interval_cases i ; simp

@[simp] theorem pack_z : (pack o c z m v).extractLsb' 18 1 = z := by
  apply BitVec.eq_of_getLsbD_eq
  intro i hi
  simp only [pack, BitVec.getLsbD_append, BitVec.getLsbD_extractLsb']
  interval_cases i ; simp

@[simp] theorem pack_m : (pack o c z m v).extractLsb' 16 2 = m := by
  apply BitVec.eq_of_getLsbD_eq
  intro i hi
  simp only [pack, BitVec.getLsbD_append, BitVec.getLsbD_extractLsb']
  interval_cases i <;> simp

@[simp] theorem pack_v : (pack o c z m v).extractLsb' 0 16 = v := by
  apply BitVec.eq_of_getLsbD_eq
  intro i hi
  simp only [pack, BitVec.getLsbD_append, BitVec.getLsbD_extractLsb']
  interval_cases i <;> simp

/-- Two words are equal exactly when their pieces are. -/
theorem pack_inj {o' : BitVec 4} {c' z' : BitVec 1} {m' : BitVec 2} {v' : BitVec 16} :
    pack o c z m v = pack o' c' z' m' v' ↔ o = o' ∧ c = c' ∧ z = z' ∧ m = m' ∧ v = v' := by
  constructor
  · intro h
    refine ⟨?_, ?_, ?_, ?_, ?_⟩
    · simpa using congrArg (·.extractLsb' 20 4) h
    · simpa using congrArg (·.extractLsb' 19 1) h
    · simpa using congrArg (·.extractLsb' 18 1) h
    · simpa using congrArg (·.extractLsb' 16 2) h
    · simpa using congrArg (·.extractLsb' 0 16) h
  · rintro ⟨rfl, rfl, rfl, rfl, rfl⟩
    rfl

theorem pack_maskAll : pack o c z m v &&& 0xFFFFFF#24 = pack o c z m v := by
  have : (0xFFFFFF#24 : BitVec 24) = BitVec.allOnes 24 := by decide
  rw [this, BitVec.and_allOnes]

theorem pack_maskMode : pack o c z m v &&& 0xFCFFFF#24 = pack o c z 0#2 v := by
  apply BitVec.eq_of_getLsbD_eq
  intro i hi
  simp only [pack, BitVec.getLsbD_append, BitVec.getLsbD_and]
  interval_cases i <;> simp

theorem pack_maskImm : pack o c z m v &&& 0xFF0000#24 = pack o c z m 0#16 := by
  apply BitVec.eq_of_getLsbD_eq
  intro i hi
  simp only [pack, BitVec.getLsbD_append, BitVec.getLsbD_and]
  interval_cases i <;> simp

theorem pack_low20 : (pack o c z m v).extractLsb' 0 20 = c ++ z ++ m ++ v := by
  apply BitVec.eq_of_getLsbD_eq
  intro i hi
  simp only [pack, BitVec.getLsbD_append, BitVec.getLsbD_extractLsb']
  interval_cases i <;> simp

theorem pack_mid4 : (pack o c z m v).extractLsb' 16 4 = c ++ z ++ m := by
  apply BitVec.eq_of_getLsbD_eq
  intro i hi
  simp only [pack, BitVec.getLsbD_append, BitVec.getLsbD_extractLsb']
  interval_cases i <;> simp

/-- The twenty SBZ bits of format N are zero exactly when every piece below OP is. -/
theorem pack_low20_eq_zero : (pack o c z m v).extractLsb' 0 20 = 0#20 ↔ c = 0 ∧ z = 0 ∧ m = 0 ∧ v = 0 := by
  rw [pack_low20]
  constructor
  · intro h
    have h' : pack 0 c z m v = pack 0 0 0 0 0 := by
      have e : pack 0 c z m v = (0#4 ++ (c ++ z ++ m ++ v) : BitVec 24) := by
        apply BitVec.eq_of_getLsbD_eq
        intro i hi
        simp only [pack, BitVec.getLsbD_append]
        interval_cases i <;> simp
      rw [e, h]; decide
    simpa using (pack_inj 0 c z m v).mp h'
  · rintro ⟨rfl, rfl, rfl, rfl⟩
    decide

/-- The four SBZ bits of format I are zero exactly when C, bit 18 and MODE are. -/
theorem pack_mid4_eq_zero : (pack o c z m v).extractLsb' 16 4 = 0#4 ↔ c = 0 ∧ z = 0 ∧ m = 0 := by
  rw [pack_mid4]
  revert c z m
  decide

end Pieces

/-- Every word is the pack of its pieces. -/
theorem eq_pack (w : CmdWord) :
    w = pack (w.extractLsb' 20 4) (w.extractLsb' 19 1) (w.extractLsb' 18 1) (w.extractLsb' 16 2) (w.extractLsb' 0 16) := by
  apply BitVec.eq_of_getLsbD_eq
  intro i hi
  simp only [pack, BitVec.getLsbD_append, BitVec.getLsbD_extractLsb']
  interval_cases i <;> simp

/-- The decoder as a choice on the pieces. -/
theorem decode_pack (o : BitVec 4) (c z : BitVec 1) (m : BitVec 2) (v : BitVec 16) :
    decode (pack o c z m v) =
      if o = 0 ∧ c = 0 ∧ z = 0 ∧ m = 0 ∧ v = 0 then .nop
      else if o = 1 ∧ c = 0 ∧ z = 0 ∧ m = 0 ∧ v = 0 then .rdframe
      else if o = 2 ∧ c = 0 ∧ z = 0 ∧ v = 0 then .extract m
      else if o = 2 ∧ c = 1 ∧ z = 0 ∧ m = 0 ∧ v = 0 then .extractCur
      else if o = 3 ∧ c = 0 ∧ z = 0 ∧ v = 0 then .measure m
      else if o = 3 ∧ c = 1 ∧ z = 0 ∧ m = 0 ∧ v = 0 then .measureCur
      else if o = 4 ∧ c = 0 ∧ z = 0 ∧ m = 0 then .setdig v
      else if o = 5 ∧ c = 0 ∧ z = 0 ∧ m = 0 then .alarmchk v
      else if o = 6 ∧ c = 0 ∧ z = 0 ∧ m = 0 ∧ v = 0 then .beep
      else if o = 7 ∧ c = 0 ∧ z = 0 ∧ m = 0 then .waitms v
      else .illegal (pack o c z m v) := by
  have e0 : (0x000000#24 : CmdWord) = pack 0 0 0 0 0 := by decide
  have e1 : (0x100000#24 : CmdWord) = pack 1 0 0 0 0 := by decide
  have e2 : (0x200000#24 : CmdWord) = pack 2 0 0 0 0 := by decide
  have e3 : (0x280000#24 : CmdWord) = pack 2 1 0 0 0 := by decide
  have e4 : (0x300000#24 : CmdWord) = pack 3 0 0 0 0 := by decide
  have e5 : (0x380000#24 : CmdWord) = pack 3 1 0 0 0 := by decide
  have e6 : (0x400000#24 : CmdWord) = pack 4 0 0 0 0 := by decide
  have e7 : (0x500000#24 : CmdWord) = pack 5 0 0 0 0 := by decide
  have e8 : (0x600000#24 : CmdWord) = pack 6 0 0 0 0 := by decide
  have e9 : (0x700000#24 : CmdWord) = pack 7 0 0 0 0 := by decide
  have hm : CmdWord.modeField (pack o c z m v) = m := pack_m o c z m v
  have hv : CmdWord.imm16 (pack o c z m v) = v := pack_v o c z m v
  simp only [decode, rows, firstRow, Row.hits, pack_maskAll, pack_maskMode, pack_maskImm, e0, e1, e2, e3, e4, e5, e6, e7,
    e8, e9, beq_iff_eq, pack_inj, hm, hv, show (0#2 : BitVec 2) = 0 from rfl, show (0#16 : BitVec 16) = 0 from rfl, true_and,
    and_true]

theorem op_cases (o : BitVec 4) :
    o = 0 ∨ o = 1 ∨ o = 2 ∨ o = 3 ∨ o = 4 ∨ o = 5 ∨ o = 6 ∨ o = 7 ∨ 8 ≤ o.toNat := by revert o; decide

/-- R88's words are the words the rows leave to ILLEGAL, piece by piece. -/
theorem illegalWord_pack (o : BitVec 4) (c z : BitVec 1) (m : BitVec 2) (v : BitVec 16) :
    illegalWord (pack o c z m v) = true ↔ decode (pack o c z m v) = .illegal (pack o c z m v) := by
  have hc : c = 0 ∨ c = 1 := by revert c; decide
  have hz : z = 0 ∨ z = 1 := by revert z; decide
  rw [decode_pack]
  unfold illegalWord formatOf
  simp only [pack_op, pack_c, pack_z, pack_m, pack_v]
  rcases op_cases o with rfl | rfl | rfl | rfl | rfl | rfl | rfl | rfl | ho
  rotate_right
  · have hne : ∀ k : BitVec 4, k.toNat < 8 → ¬ o = k := by rintro k hk rfl; omega
    simp [hne]
  all_goals rcases hc with rfl | rfl <;> rcases hz with rfl | rfl <;>
    simp [bne_iff_ne, pack_low20_eq_zero, pack_mid4_eq_zero] <;> tauto

/-- The encoder's three formats are packs. -/
theorem encodeN_eq_pack (o : BitVec 4) : encodeN o = pack o 0 0 0 0 := by
  apply BitVec.eq_of_getLsbD_eq
  intro i hi
  simp only [encodeN, pack, BitVec.getLsbD_append]
  interval_cases i <;> simp

theorem encodeM_eq_pack (o : BitVec 4) (c : BitVec 1) (m : ModeBits) : encodeM o c m = pack o c 0 m 0 := rfl

theorem encodeI_eq_pack (o : BitVec 4) (v : Half) : encodeI o v = pack o 0 0 0 v := by
  apply BitVec.eq_of_getLsbD_eq
  intro i hi
  simp only [encodeI, pack, BitVec.getLsbD_append]
  interval_cases i <;> simp

/-- The operation code of a command that has one (R87). -/
def Instr.opcode : Instr → Option (BitVec 4)
  | .nop => some 0x0#4
  | .rdframe => some 0x1#4
  | .extract _ => some 0x2#4
  | .extractCur => some 0x2#4
  | .measure _ => some 0x3#4
  | .measureCur => some 0x3#4
  | .setdig _ => some 0x4#4
  | .alarmchk _ => some 0x5#4
  | .beep => some 0x6#4
  | .waitms _ => some 0x7#4
  | .illegal _ => none

/-- A word that decodes to a command with an operation code has that code in OP. -/
theorem op_of_decode {w : CmdWord} {o : BitVec 4} (h : (decode w).opcode = some o) : w.op = o := by
  rw [eq_pack w, decode_pack] at h
  unfold CmdWord.op
  generalize w.extractLsb' 20 4 = p at h ⊢
  repeat
    split at h
    · next hp => simp only [Instr.opcode, Option.some.injEq] at h; rw [← h]; exact hp.1
  simp [Instr.opcode] at h

end Sys2Proof
end

