-- ==== Sys2Proof/Laws/State.lean ====
section
/-! SUPPORT. One lemma per field per named update of the state, so that no later proof unfolds a record update. -/

namespace Sys2Proof.Machine

/-! ## complete -/

@[simp] theorem complete_cmd (ok : Bool) (v : Half) (e : BitVec 3) (s : State) : (complete ok v e s).cmd = s.cmd := rfl
@[simp] theorem complete_busy (ok : Bool) (v : Half) (e : BitVec 3) (s : State) : (complete ok v e s).busy = false := rfl
@[simp] theorem complete_result (ok : Bool) (v : Half) (e : BitVec 3) (s : State) : (complete ok v e s).result = { ok := ok, value := v } := rfl
@[simp] theorem complete_status (ok : Bool) (v : Half) (e : BitVec 3) (s : State) : (complete ok v e s).status = e := rfl
@[simp] theorem complete_hostPhase (ok : Bool) (v : Half) (e : BitVec 3) (s : State) : (complete ok v e s).hostPhase = .idle := rfl
@[simp] theorem complete_hostCnt (ok : Bool) (v : Half) (e : BitVec 3) (s : State) : (complete ok v e s).hostCnt = s.hostCnt := rfl
@[simp] theorem complete_hostVal (ok : Bool) (v : Half) (e : BitVec 3) (s : State) : (complete ok v e s).hostVal = s.hostVal := rfl
@[simp] theorem complete_hostK (ok : Bool) (v : Half) (e : BitVec 3) (s : State) : (complete ok v e s).hostK = s.hostK := rfl
@[simp] theorem complete_mode (ok : Bool) (v : Half) (e : BitVec 3) (s : State) : (complete ok v e s).mode = s.mode := rfl
@[simp] theorem complete_indOut (ok : Bool) (v : Half) (e : BitVec 3) (s : State) : (complete ok v e s).indOut = s.indOut := rfl
@[simp] theorem complete_digits (ok : Bool) (v : Half) (e : BitVec 3) (s : State) : (complete ok v e s).digits = s.digits := rfl
@[simp] theorem complete_pos (ok : Bool) (v : Half) (e : BitVec 3) (s : State) : (complete ok v e s).pos = s.pos := rfl
@[simp] theorem complete_segOut (ok : Bool) (v : Half) (e : BitVec 3) (s : State) : (complete ok v e s).segOut = s.segOut := rfl
@[simp] theorem complete_dselOut (ok : Bool) (v : Half) (e : BitVec 3) (s : State) : (complete ok v e s).dselOut = s.dselOut := rfl
@[simp] theorem complete_frameValidHost (ok : Bool) (v : Half) (e : BitVec 3) (s : State) : (complete ok v e s).frameValidHost = s.frameValidHost := rfl
@[simp] theorem complete_frameValidSw (ok : Bool) (v : Half) (e : BitVec 3) (s : State) : (complete ok v e s).frameValidSw = s.frameValidSw := rfl
@[simp] theorem complete_rdHost (ok : Bool) (v : Half) (e : BitVec 3) (s : State) : (complete ok v e s).rdHost = s.rdHost := rfl
@[simp] theorem complete_rdSw (ok : Bool) (v : Half) (e : BitVec 3) (s : State) : (complete ok v e s).rdSw = s.rdSw := rfl
@[simp] theorem complete_rxq (ok : Bool) (v : Half) (e : BitVec 3) (s : State) : (complete ok v e s).rxq = s.rxq := rfl
@[simp] theorem complete_btnLine (ok : Bool) (v : Half) (e : BitVec 3) (s : State) : (complete ok v e s).btnLine = s.btnLine := rfl
@[simp] theorem complete_swState (ok : Bool) (v : Half) (e : BitVec 3) (s : State) : (complete ok v e s).swState = s.swState := rfl
@[simp] theorem complete_swCnt (ok : Bool) (v : Half) (e : BitVec 3) (s : State) : (complete ok v e s).swCnt = s.swCnt := rfl
@[simp] theorem complete_swDue (ok : Bool) (v : Half) (e : BitVec 3) (s : State) : (complete ok v e s).swDue = s.swDue := rfl
@[simp] theorem complete_swPending (ok : Bool) (v : Half) (e : BitVec 3) (s : State) : (complete ok v e s).swPending = s.swPending := rfl
@[simp] theorem complete_swVal (ok : Bool) (v : Half) (e : BitVec 3) (s : State) : (complete ok v e s).swVal = s.swVal := rfl
@[simp] theorem complete_swK (ok : Bool) (v : Half) (e : BitVec 3) (s : State) : (complete ok v e s).swK = s.swK := rfl
@[simp] theorem complete_toneActive (ok : Bool) (v : Half) (e : BitVec 3) (s : State) : (complete ok v e s).toneActive = s.toneActive := rfl
@[simp] theorem complete_toneLeft (ok : Bool) (v : Half) (e : BitVec 3) (s : State) : (complete ok v e s).toneLeft = s.toneLeft := rfl
@[simp] theorem complete_toneOut (ok : Bool) (v : Half) (e : BitVec 3) (s : State) : (complete ok v e s).toneOut = s.toneOut := rfl
@[simp] theorem complete_frameHost (ok : Bool) (v : Half) (e : BitVec 3) (s : State) : (complete ok v e s).frameHost = s.frameHost := rfl
@[simp] theorem complete_frameSw (ok : Bool) (v : Half) (e : BitVec 3) (s : State) : (complete ok v e s).frameSw = s.frameSw := rfl
@[simp] theorem complete_swPoll (ok : Bool) (v : Half) (e : BitVec 3) (s : State) : (complete ok v e s).swPoll = s.swPoll := rfl
@[simp] theorem complete_params (ok : Bool) (v : Half) (e : BitVec 3) (s : State) : (complete ok v e s).params = s.params := rfl
@[simp] theorem complete_stim (ok : Bool) (v : Half) (e : BitVec 3) (s : State) : (complete ok v e s).stim = s.stim := rfl

/-! ## setFrameValid -/

@[simp] theorem setFrameValid_cmd (c : Ctx) (v : Bool) (s : State) : (setFrameValid c v s).cmd = s.cmd := by cases c <;> rfl
@[simp] theorem setFrameValid_busy (c : Ctx) (v : Bool) (s : State) : (setFrameValid c v s).busy = s.busy := by cases c <;> rfl
@[simp] theorem setFrameValid_result (c : Ctx) (v : Bool) (s : State) : (setFrameValid c v s).result = s.result := by cases c <;> rfl
@[simp] theorem setFrameValid_status (c : Ctx) (v : Bool) (s : State) : (setFrameValid c v s).status = s.status := by cases c <;> rfl
@[simp] theorem setFrameValid_hostPhase (c : Ctx) (v : Bool) (s : State) : (setFrameValid c v s).hostPhase = s.hostPhase := by cases c <;> rfl
@[simp] theorem setFrameValid_hostCnt (c : Ctx) (v : Bool) (s : State) : (setFrameValid c v s).hostCnt = s.hostCnt := by cases c <;> rfl
@[simp] theorem setFrameValid_hostVal (c : Ctx) (v : Bool) (s : State) : (setFrameValid c v s).hostVal = s.hostVal := by cases c <;> rfl
@[simp] theorem setFrameValid_hostK (c : Ctx) (v : Bool) (s : State) : (setFrameValid c v s).hostK = s.hostK := by cases c <;> rfl
@[simp] theorem setFrameValid_mode (c : Ctx) (v : Bool) (s : State) : (setFrameValid c v s).mode = s.mode := by cases c <;> rfl
@[simp] theorem setFrameValid_indOut (c : Ctx) (v : Bool) (s : State) : (setFrameValid c v s).indOut = s.indOut := by cases c <;> rfl
@[simp] theorem setFrameValid_digits (c : Ctx) (v : Bool) (s : State) : (setFrameValid c v s).digits = s.digits := by cases c <;> rfl
@[simp] theorem setFrameValid_pos (c : Ctx) (v : Bool) (s : State) : (setFrameValid c v s).pos = s.pos := by cases c <;> rfl
@[simp] theorem setFrameValid_segOut (c : Ctx) (v : Bool) (s : State) : (setFrameValid c v s).segOut = s.segOut := by cases c <;> rfl
@[simp] theorem setFrameValid_dselOut (c : Ctx) (v : Bool) (s : State) : (setFrameValid c v s).dselOut = s.dselOut := by cases c <;> rfl
@[simp] theorem setFrameValid_frameValidHost (c : Ctx) (v : Bool) (s : State) : (setFrameValid c v s).frameValidHost = if c = .host then v else s.frameValidHost := by cases c <;> rfl
@[simp] theorem setFrameValid_frameValidSw (c : Ctx) (v : Bool) (s : State) : (setFrameValid c v s).frameValidSw = if c = .sw then v else s.frameValidSw := by cases c <;> rfl
@[simp] theorem setFrameValid_rdHost (c : Ctx) (v : Bool) (s : State) : (setFrameValid c v s).rdHost = s.rdHost := by cases c <;> rfl
@[simp] theorem setFrameValid_rdSw (c : Ctx) (v : Bool) (s : State) : (setFrameValid c v s).rdSw = s.rdSw := by cases c <;> rfl
@[simp] theorem setFrameValid_rxq (c : Ctx) (v : Bool) (s : State) : (setFrameValid c v s).rxq = s.rxq := by cases c <;> rfl
@[simp] theorem setFrameValid_btnLine (c : Ctx) (v : Bool) (s : State) : (setFrameValid c v s).btnLine = s.btnLine := by cases c <;> rfl
@[simp] theorem setFrameValid_swState (c : Ctx) (v : Bool) (s : State) : (setFrameValid c v s).swState = s.swState := by cases c <;> rfl
@[simp] theorem setFrameValid_swCnt (c : Ctx) (v : Bool) (s : State) : (setFrameValid c v s).swCnt = s.swCnt := by cases c <;> rfl
@[simp] theorem setFrameValid_swDue (c : Ctx) (v : Bool) (s : State) : (setFrameValid c v s).swDue = s.swDue := by cases c <;> rfl
@[simp] theorem setFrameValid_swPending (c : Ctx) (v : Bool) (s : State) : (setFrameValid c v s).swPending = s.swPending := by cases c <;> rfl
@[simp] theorem setFrameValid_swVal (c : Ctx) (v : Bool) (s : State) : (setFrameValid c v s).swVal = s.swVal := by cases c <;> rfl
@[simp] theorem setFrameValid_swK (c : Ctx) (v : Bool) (s : State) : (setFrameValid c v s).swK = s.swK := by cases c <;> rfl
@[simp] theorem setFrameValid_toneActive (c : Ctx) (v : Bool) (s : State) : (setFrameValid c v s).toneActive = s.toneActive := by cases c <;> rfl
@[simp] theorem setFrameValid_toneLeft (c : Ctx) (v : Bool) (s : State) : (setFrameValid c v s).toneLeft = s.toneLeft := by cases c <;> rfl
@[simp] theorem setFrameValid_toneOut (c : Ctx) (v : Bool) (s : State) : (setFrameValid c v s).toneOut = s.toneOut := by cases c <;> rfl
@[simp] theorem setFrameValid_frameHost (c : Ctx) (v : Bool) (s : State) : (setFrameValid c v s).frameHost = s.frameHost := by cases c <;> rfl
@[simp] theorem setFrameValid_frameSw (c : Ctx) (v : Bool) (s : State) : (setFrameValid c v s).frameSw = s.frameSw := by cases c <;> rfl
@[simp] theorem setFrameValid_swPoll (c : Ctx) (v : Bool) (s : State) : (setFrameValid c v s).swPoll = s.swPoll := by cases c <;> rfl
@[simp] theorem setFrameValid_params (c : Ctx) (v : Bool) (s : State) : (setFrameValid c v s).params = s.params := by cases c <;> rfl
@[simp] theorem setFrameValid_stim (c : Ctx) (v : Bool) (s : State) : (setFrameValid c v s).stim = s.stim := by cases c <;> rfl

/-! ## writeFrame -/

@[simp] theorem writeFrame_cmd (c : Ctx) (a : Nat) (b : Byte) (s : State) : (writeFrame c a b s).cmd = s.cmd := by cases c <;> rfl
@[simp] theorem writeFrame_busy (c : Ctx) (a : Nat) (b : Byte) (s : State) : (writeFrame c a b s).busy = s.busy := by cases c <;> rfl
@[simp] theorem writeFrame_result (c : Ctx) (a : Nat) (b : Byte) (s : State) : (writeFrame c a b s).result = s.result := by cases c <;> rfl
@[simp] theorem writeFrame_status (c : Ctx) (a : Nat) (b : Byte) (s : State) : (writeFrame c a b s).status = s.status := by cases c <;> rfl
@[simp] theorem writeFrame_hostPhase (c : Ctx) (a : Nat) (b : Byte) (s : State) : (writeFrame c a b s).hostPhase = s.hostPhase := by cases c <;> rfl
@[simp] theorem writeFrame_hostCnt (c : Ctx) (a : Nat) (b : Byte) (s : State) : (writeFrame c a b s).hostCnt = s.hostCnt := by cases c <;> rfl
@[simp] theorem writeFrame_hostVal (c : Ctx) (a : Nat) (b : Byte) (s : State) : (writeFrame c a b s).hostVal = s.hostVal := by cases c <;> rfl
@[simp] theorem writeFrame_hostK (c : Ctx) (a : Nat) (b : Byte) (s : State) : (writeFrame c a b s).hostK = s.hostK := by cases c <;> rfl
@[simp] theorem writeFrame_mode (c : Ctx) (a : Nat) (b : Byte) (s : State) : (writeFrame c a b s).mode = s.mode := by cases c <;> rfl
@[simp] theorem writeFrame_indOut (c : Ctx) (a : Nat) (b : Byte) (s : State) : (writeFrame c a b s).indOut = s.indOut := by cases c <;> rfl
@[simp] theorem writeFrame_digits (c : Ctx) (a : Nat) (b : Byte) (s : State) : (writeFrame c a b s).digits = s.digits := by cases c <;> rfl
@[simp] theorem writeFrame_pos (c : Ctx) (a : Nat) (b : Byte) (s : State) : (writeFrame c a b s).pos = s.pos := by cases c <;> rfl
@[simp] theorem writeFrame_segOut (c : Ctx) (a : Nat) (b : Byte) (s : State) : (writeFrame c a b s).segOut = s.segOut := by cases c <;> rfl
@[simp] theorem writeFrame_dselOut (c : Ctx) (a : Nat) (b : Byte) (s : State) : (writeFrame c a b s).dselOut = s.dselOut := by cases c <;> rfl
@[simp] theorem writeFrame_frameValidHost (c : Ctx) (a : Nat) (b : Byte) (s : State) : (writeFrame c a b s).frameValidHost = s.frameValidHost := by cases c <;> rfl
@[simp] theorem writeFrame_frameValidSw (c : Ctx) (a : Nat) (b : Byte) (s : State) : (writeFrame c a b s).frameValidSw = s.frameValidSw := by cases c <;> rfl
@[simp] theorem writeFrame_rdHost (c : Ctx) (a : Nat) (b : Byte) (s : State) : (writeFrame c a b s).rdHost = s.rdHost := by cases c <;> rfl
@[simp] theorem writeFrame_rdSw (c : Ctx) (a : Nat) (b : Byte) (s : State) : (writeFrame c a b s).rdSw = s.rdSw := by cases c <;> rfl
@[simp] theorem writeFrame_rxq (c : Ctx) (a : Nat) (b : Byte) (s : State) : (writeFrame c a b s).rxq = s.rxq := by cases c <;> rfl
@[simp] theorem writeFrame_btnLine (c : Ctx) (a : Nat) (b : Byte) (s : State) : (writeFrame c a b s).btnLine = s.btnLine := by cases c <;> rfl
@[simp] theorem writeFrame_swState (c : Ctx) (a : Nat) (b : Byte) (s : State) : (writeFrame c a b s).swState = s.swState := by cases c <;> rfl
@[simp] theorem writeFrame_swCnt (c : Ctx) (a : Nat) (b : Byte) (s : State) : (writeFrame c a b s).swCnt = s.swCnt := by cases c <;> rfl
@[simp] theorem writeFrame_swDue (c : Ctx) (a : Nat) (b : Byte) (s : State) : (writeFrame c a b s).swDue = s.swDue := by cases c <;> rfl
@[simp] theorem writeFrame_swPending (c : Ctx) (a : Nat) (b : Byte) (s : State) : (writeFrame c a b s).swPending = s.swPending := by cases c <;> rfl
@[simp] theorem writeFrame_swVal (c : Ctx) (a : Nat) (b : Byte) (s : State) : (writeFrame c a b s).swVal = s.swVal := by cases c <;> rfl
@[simp] theorem writeFrame_swK (c : Ctx) (a : Nat) (b : Byte) (s : State) : (writeFrame c a b s).swK = s.swK := by cases c <;> rfl
@[simp] theorem writeFrame_toneActive (c : Ctx) (a : Nat) (b : Byte) (s : State) : (writeFrame c a b s).toneActive = s.toneActive := by cases c <;> rfl
@[simp] theorem writeFrame_toneLeft (c : Ctx) (a : Nat) (b : Byte) (s : State) : (writeFrame c a b s).toneLeft = s.toneLeft := by cases c <;> rfl
@[simp] theorem writeFrame_toneOut (c : Ctx) (a : Nat) (b : Byte) (s : State) : (writeFrame c a b s).toneOut = s.toneOut := by cases c <;> rfl
@[simp] theorem writeFrame_frameHost (c : Ctx) (a : Nat) (b : Byte) (s : State) : (writeFrame c a b s).frameHost = if c = .host then Memory.write s.frameHost a b else s.frameHost := by cases c <;> rfl
@[simp] theorem writeFrame_frameSw (c : Ctx) (a : Nat) (b : Byte) (s : State) : (writeFrame c a b s).frameSw = if c = .sw then Memory.write s.frameSw a b else s.frameSw := by cases c <;> rfl
@[simp] theorem writeFrame_swPoll (c : Ctx) (a : Nat) (b : Byte) (s : State) : (writeFrame c a b s).swPoll = s.swPoll := by cases c <;> rfl
@[simp] theorem writeFrame_params (c : Ctx) (a : Nat) (b : Byte) (s : State) : (writeFrame c a b s).params = s.params := by cases c <;> rfl
@[simp] theorem writeFrame_stim (c : Ctx) (a : Nat) (b : Byte) (s : State) : (writeFrame c a b s).stim = s.stim := by cases c <;> rfl

/-! ## setFrame -/

@[simp] theorem setFrame_cmd (c : Ctx) (m : Memory) (s : State) : (setFrame c m s).cmd = s.cmd := by cases c <;> rfl
@[simp] theorem setFrame_busy (c : Ctx) (m : Memory) (s : State) : (setFrame c m s).busy = s.busy := by cases c <;> rfl
@[simp] theorem setFrame_result (c : Ctx) (m : Memory) (s : State) : (setFrame c m s).result = s.result := by cases c <;> rfl
@[simp] theorem setFrame_status (c : Ctx) (m : Memory) (s : State) : (setFrame c m s).status = s.status := by cases c <;> rfl
@[simp] theorem setFrame_hostPhase (c : Ctx) (m : Memory) (s : State) : (setFrame c m s).hostPhase = s.hostPhase := by cases c <;> rfl
@[simp] theorem setFrame_hostCnt (c : Ctx) (m : Memory) (s : State) : (setFrame c m s).hostCnt = s.hostCnt := by cases c <;> rfl
@[simp] theorem setFrame_hostVal (c : Ctx) (m : Memory) (s : State) : (setFrame c m s).hostVal = s.hostVal := by cases c <;> rfl
@[simp] theorem setFrame_hostK (c : Ctx) (m : Memory) (s : State) : (setFrame c m s).hostK = s.hostK := by cases c <;> rfl
@[simp] theorem setFrame_mode (c : Ctx) (m : Memory) (s : State) : (setFrame c m s).mode = s.mode := by cases c <;> rfl
@[simp] theorem setFrame_indOut (c : Ctx) (m : Memory) (s : State) : (setFrame c m s).indOut = s.indOut := by cases c <;> rfl
@[simp] theorem setFrame_digits (c : Ctx) (m : Memory) (s : State) : (setFrame c m s).digits = s.digits := by cases c <;> rfl
@[simp] theorem setFrame_pos (c : Ctx) (m : Memory) (s : State) : (setFrame c m s).pos = s.pos := by cases c <;> rfl
@[simp] theorem setFrame_segOut (c : Ctx) (m : Memory) (s : State) : (setFrame c m s).segOut = s.segOut := by cases c <;> rfl
@[simp] theorem setFrame_dselOut (c : Ctx) (m : Memory) (s : State) : (setFrame c m s).dselOut = s.dselOut := by cases c <;> rfl
@[simp] theorem setFrame_frameValidHost (c : Ctx) (m : Memory) (s : State) : (setFrame c m s).frameValidHost = s.frameValidHost := by cases c <;> rfl
@[simp] theorem setFrame_frameValidSw (c : Ctx) (m : Memory) (s : State) : (setFrame c m s).frameValidSw = s.frameValidSw := by cases c <;> rfl
@[simp] theorem setFrame_rdHost (c : Ctx) (m : Memory) (s : State) : (setFrame c m s).rdHost = s.rdHost := by cases c <;> rfl
@[simp] theorem setFrame_rdSw (c : Ctx) (m : Memory) (s : State) : (setFrame c m s).rdSw = s.rdSw := by cases c <;> rfl
@[simp] theorem setFrame_rxq (c : Ctx) (m : Memory) (s : State) : (setFrame c m s).rxq = s.rxq := by cases c <;> rfl
@[simp] theorem setFrame_btnLine (c : Ctx) (m : Memory) (s : State) : (setFrame c m s).btnLine = s.btnLine := by cases c <;> rfl
@[simp] theorem setFrame_swState (c : Ctx) (m : Memory) (s : State) : (setFrame c m s).swState = s.swState := by cases c <;> rfl
@[simp] theorem setFrame_swCnt (c : Ctx) (m : Memory) (s : State) : (setFrame c m s).swCnt = s.swCnt := by cases c <;> rfl
@[simp] theorem setFrame_swDue (c : Ctx) (m : Memory) (s : State) : (setFrame c m s).swDue = s.swDue := by cases c <;> rfl
@[simp] theorem setFrame_swPending (c : Ctx) (m : Memory) (s : State) : (setFrame c m s).swPending = s.swPending := by cases c <;> rfl
@[simp] theorem setFrame_swVal (c : Ctx) (m : Memory) (s : State) : (setFrame c m s).swVal = s.swVal := by cases c <;> rfl
@[simp] theorem setFrame_swK (c : Ctx) (m : Memory) (s : State) : (setFrame c m s).swK = s.swK := by cases c <;> rfl
@[simp] theorem setFrame_toneActive (c : Ctx) (m : Memory) (s : State) : (setFrame c m s).toneActive = s.toneActive := by cases c <;> rfl
@[simp] theorem setFrame_toneLeft (c : Ctx) (m : Memory) (s : State) : (setFrame c m s).toneLeft = s.toneLeft := by cases c <;> rfl
@[simp] theorem setFrame_toneOut (c : Ctx) (m : Memory) (s : State) : (setFrame c m s).toneOut = s.toneOut := by cases c <;> rfl
@[simp] theorem setFrame_frameHost (c : Ctx) (m : Memory) (s : State) : (setFrame c m s).frameHost = if c = .host then m else s.frameHost := by cases c <;> rfl
@[simp] theorem setFrame_frameSw (c : Ctx) (m : Memory) (s : State) : (setFrame c m s).frameSw = if c = .sw then m else s.frameSw := by cases c <;> rfl
@[simp] theorem setFrame_swPoll (c : Ctx) (m : Memory) (s : State) : (setFrame c m s).swPoll = s.swPoll := by cases c <;> rfl
@[simp] theorem setFrame_params (c : Ctx) (m : Memory) (s : State) : (setFrame c m s).params = s.params := by cases c <;> rfl
@[simp] theorem setFrame_stim (c : Ctx) (m : Memory) (s : State) : (setFrame c m s).stim = s.stim := by cases c <;> rfl

/-! ## setRd -/

@[simp] theorem setRd_cmd (c : Ctx) (r : Rd) (s : State) : (setRd c r s).cmd = s.cmd := by cases c <;> rfl
@[simp] theorem setRd_busy (c : Ctx) (r : Rd) (s : State) : (setRd c r s).busy = s.busy := by cases c <;> rfl
@[simp] theorem setRd_result (c : Ctx) (r : Rd) (s : State) : (setRd c r s).result = s.result := by cases c <;> rfl
@[simp] theorem setRd_status (c : Ctx) (r : Rd) (s : State) : (setRd c r s).status = s.status := by cases c <;> rfl
@[simp] theorem setRd_hostPhase (c : Ctx) (r : Rd) (s : State) : (setRd c r s).hostPhase = s.hostPhase := by cases c <;> rfl
@[simp] theorem setRd_hostCnt (c : Ctx) (r : Rd) (s : State) : (setRd c r s).hostCnt = s.hostCnt := by cases c <;> rfl
@[simp] theorem setRd_hostVal (c : Ctx) (r : Rd) (s : State) : (setRd c r s).hostVal = s.hostVal := by cases c <;> rfl
@[simp] theorem setRd_hostK (c : Ctx) (r : Rd) (s : State) : (setRd c r s).hostK = s.hostK := by cases c <;> rfl
@[simp] theorem setRd_mode (c : Ctx) (r : Rd) (s : State) : (setRd c r s).mode = s.mode := by cases c <;> rfl
@[simp] theorem setRd_indOut (c : Ctx) (r : Rd) (s : State) : (setRd c r s).indOut = s.indOut := by cases c <;> rfl
@[simp] theorem setRd_digits (c : Ctx) (r : Rd) (s : State) : (setRd c r s).digits = s.digits := by cases c <;> rfl
@[simp] theorem setRd_pos (c : Ctx) (r : Rd) (s : State) : (setRd c r s).pos = s.pos := by cases c <;> rfl
@[simp] theorem setRd_segOut (c : Ctx) (r : Rd) (s : State) : (setRd c r s).segOut = s.segOut := by cases c <;> rfl
@[simp] theorem setRd_dselOut (c : Ctx) (r : Rd) (s : State) : (setRd c r s).dselOut = s.dselOut := by cases c <;> rfl
@[simp] theorem setRd_frameValidHost (c : Ctx) (r : Rd) (s : State) : (setRd c r s).frameValidHost = s.frameValidHost := by cases c <;> rfl
@[simp] theorem setRd_frameValidSw (c : Ctx) (r : Rd) (s : State) : (setRd c r s).frameValidSw = s.frameValidSw := by cases c <;> rfl
@[simp] theorem setRd_rdHost (c : Ctx) (r : Rd) (s : State) : (setRd c r s).rdHost = if c = .host then r else s.rdHost := by cases c <;> rfl
@[simp] theorem setRd_rdSw (c : Ctx) (r : Rd) (s : State) : (setRd c r s).rdSw = if c = .sw then r else s.rdSw := by cases c <;> rfl
@[simp] theorem setRd_rxq (c : Ctx) (r : Rd) (s : State) : (setRd c r s).rxq = s.rxq := by cases c <;> rfl
@[simp] theorem setRd_btnLine (c : Ctx) (r : Rd) (s : State) : (setRd c r s).btnLine = s.btnLine := by cases c <;> rfl
@[simp] theorem setRd_swState (c : Ctx) (r : Rd) (s : State) : (setRd c r s).swState = s.swState := by cases c <;> rfl
@[simp] theorem setRd_swCnt (c : Ctx) (r : Rd) (s : State) : (setRd c r s).swCnt = s.swCnt := by cases c <;> rfl
@[simp] theorem setRd_swDue (c : Ctx) (r : Rd) (s : State) : (setRd c r s).swDue = s.swDue := by cases c <;> rfl
@[simp] theorem setRd_swPending (c : Ctx) (r : Rd) (s : State) : (setRd c r s).swPending = s.swPending := by cases c <;> rfl
@[simp] theorem setRd_swVal (c : Ctx) (r : Rd) (s : State) : (setRd c r s).swVal = s.swVal := by cases c <;> rfl
@[simp] theorem setRd_swK (c : Ctx) (r : Rd) (s : State) : (setRd c r s).swK = s.swK := by cases c <;> rfl
@[simp] theorem setRd_toneActive (c : Ctx) (r : Rd) (s : State) : (setRd c r s).toneActive = s.toneActive := by cases c <;> rfl
@[simp] theorem setRd_toneLeft (c : Ctx) (r : Rd) (s : State) : (setRd c r s).toneLeft = s.toneLeft := by cases c <;> rfl
@[simp] theorem setRd_toneOut (c : Ctx) (r : Rd) (s : State) : (setRd c r s).toneOut = s.toneOut := by cases c <;> rfl
@[simp] theorem setRd_frameHost (c : Ctx) (r : Rd) (s : State) : (setRd c r s).frameHost = s.frameHost := by cases c <;> rfl
@[simp] theorem setRd_frameSw (c : Ctx) (r : Rd) (s : State) : (setRd c r s).frameSw = s.frameSw := by cases c <;> rfl
@[simp] theorem setRd_swPoll (c : Ctx) (r : Rd) (s : State) : (setRd c r s).swPoll = s.swPoll := by cases c <;> rfl
@[simp] theorem setRd_params (c : Ctx) (r : Rd) (s : State) : (setRd c r s).params = s.params := by cases c <;> rfl
@[simp] theorem setRd_stim (c : Ctx) (r : Rd) (s : State) : (setRd c r s).stim = s.stim := by cases c <;> rfl

/-! ## startRx -/

@[simp] theorem startRx_cmd (c : Ctx) (s : State) : (startRx c s).cmd = s.cmd := by cases c <;> rfl
@[simp] theorem startRx_busy (c : Ctx) (s : State) : (startRx c s).busy = s.busy := by cases c <;> rfl
@[simp] theorem startRx_result (c : Ctx) (s : State) : (startRx c s).result = s.result := by cases c <;> rfl
@[simp] theorem startRx_status (c : Ctx) (s : State) : (startRx c s).status = s.status := by cases c <;> rfl
@[simp] theorem startRx_hostPhase (c : Ctx) (s : State) : (startRx c s).hostPhase = s.hostPhase := by cases c <;> rfl
@[simp] theorem startRx_hostCnt (c : Ctx) (s : State) : (startRx c s).hostCnt = s.hostCnt := by cases c <;> rfl
@[simp] theorem startRx_hostVal (c : Ctx) (s : State) : (startRx c s).hostVal = s.hostVal := by cases c <;> rfl
@[simp] theorem startRx_hostK (c : Ctx) (s : State) : (startRx c s).hostK = s.hostK := by cases c <;> rfl
@[simp] theorem startRx_mode (c : Ctx) (s : State) : (startRx c s).mode = s.mode := by cases c <;> rfl
@[simp] theorem startRx_indOut (c : Ctx) (s : State) : (startRx c s).indOut = s.indOut := by cases c <;> rfl
@[simp] theorem startRx_digits (c : Ctx) (s : State) : (startRx c s).digits = s.digits := by cases c <;> rfl
@[simp] theorem startRx_pos (c : Ctx) (s : State) : (startRx c s).pos = s.pos := by cases c <;> rfl
@[simp] theorem startRx_segOut (c : Ctx) (s : State) : (startRx c s).segOut = s.segOut := by cases c <;> rfl
@[simp] theorem startRx_dselOut (c : Ctx) (s : State) : (startRx c s).dselOut = s.dselOut := by cases c <;> rfl
@[simp] theorem startRx_frameValidHost (c : Ctx) (s : State) : (startRx c s).frameValidHost = if c = .host then false else s.frameValidHost := by cases c <;> rfl
@[simp] theorem startRx_frameValidSw (c : Ctx) (s : State) : (startRx c s).frameValidSw = if c = .sw then false else s.frameValidSw := by cases c <;> rfl
@[simp] theorem startRx_rdHost (c : Ctx) (s : State) : (startRx c s).rdHost = if c = .host then { ph := .h0, idx := 0#5 } else s.rdHost := by cases c <;> rfl
@[simp] theorem startRx_rdSw (c : Ctx) (s : State) : (startRx c s).rdSw = if c = .sw then { ph := .h0, idx := 0#5 } else s.rdSw := by cases c <;> rfl
@[simp] theorem startRx_rxq (c : Ctx) (s : State) : (startRx c s).rxq = s.rxq := by cases c <;> rfl
@[simp] theorem startRx_btnLine (c : Ctx) (s : State) : (startRx c s).btnLine = s.btnLine := by cases c <;> rfl
@[simp] theorem startRx_swState (c : Ctx) (s : State) : (startRx c s).swState = s.swState := by cases c <;> rfl
@[simp] theorem startRx_swCnt (c : Ctx) (s : State) : (startRx c s).swCnt = s.swCnt := by cases c <;> rfl
@[simp] theorem startRx_swDue (c : Ctx) (s : State) : (startRx c s).swDue = s.swDue := by cases c <;> rfl
@[simp] theorem startRx_swPending (c : Ctx) (s : State) : (startRx c s).swPending = s.swPending := by cases c <;> rfl
@[simp] theorem startRx_swVal (c : Ctx) (s : State) : (startRx c s).swVal = s.swVal := by cases c <;> rfl
@[simp] theorem startRx_swK (c : Ctx) (s : State) : (startRx c s).swK = s.swK := by cases c <;> rfl
@[simp] theorem startRx_toneActive (c : Ctx) (s : State) : (startRx c s).toneActive = s.toneActive := by cases c <;> rfl
@[simp] theorem startRx_toneLeft (c : Ctx) (s : State) : (startRx c s).toneLeft = s.toneLeft := by cases c <;> rfl
@[simp] theorem startRx_toneOut (c : Ctx) (s : State) : (startRx c s).toneOut = s.toneOut := by cases c <;> rfl
@[simp] theorem startRx_frameHost (c : Ctx) (s : State) : (startRx c s).frameHost = s.frameHost := by cases c <;> rfl
@[simp] theorem startRx_frameSw (c : Ctx) (s : State) : (startRx c s).frameSw = s.frameSw := by cases c <;> rfl
@[simp] theorem startRx_swPoll (c : Ctx) (s : State) : (startRx c s).swPoll = s.swPoll := by cases c <;> rfl
@[simp] theorem startRx_params (c : Ctx) (s : State) : (startRx c s).params = s.params := by cases c <;> rfl
@[simp] theorem startRx_stim (c : Ctx) (s : State) : (startRx c s).stim = s.stim := by cases c <;> rfl

/-! ## handlerEntry -/

@[simp] theorem handlerEntry_cmd (s : State) : (handlerEntry s).cmd = s.cmd := rfl
@[simp] theorem handlerEntry_busy (s : State) : (handlerEntry s).busy = s.busy := rfl
@[simp] theorem handlerEntry_result (s : State) : (handlerEntry s).result = s.result := rfl
@[simp] theorem handlerEntry_status (s : State) : (handlerEntry s).status = s.status := rfl
@[simp] theorem handlerEntry_hostPhase (s : State) : (handlerEntry s).hostPhase = s.hostPhase := rfl
@[simp] theorem handlerEntry_hostCnt (s : State) : (handlerEntry s).hostCnt = s.hostCnt := rfl
@[simp] theorem handlerEntry_hostVal (s : State) : (handlerEntry s).hostVal = s.hostVal := rfl
@[simp] theorem handlerEntry_hostK (s : State) : (handlerEntry s).hostK = s.hostK := rfl
@[simp] theorem handlerEntry_mode (s : State) : (handlerEntry s).mode = s.mode := rfl
@[simp] theorem handlerEntry_indOut (s : State) : (handlerEntry s).indOut = s.indOut := rfl
@[simp] theorem handlerEntry_digits (s : State) : (handlerEntry s).digits = s.digits := rfl
@[simp] theorem handlerEntry_pos (s : State) : (handlerEntry s).pos = s.pos := rfl
@[simp] theorem handlerEntry_segOut (s : State) : (handlerEntry s).segOut = s.segOut := rfl
@[simp] theorem handlerEntry_dselOut (s : State) : (handlerEntry s).dselOut = s.dselOut := rfl
@[simp] theorem handlerEntry_frameValidHost (s : State) : (handlerEntry s).frameValidHost = s.frameValidHost := rfl
@[simp] theorem handlerEntry_frameValidSw (s : State) : (handlerEntry s).frameValidSw = s.frameValidSw := rfl
@[simp] theorem handlerEntry_rdHost (s : State) : (handlerEntry s).rdHost = s.rdHost := rfl
@[simp] theorem handlerEntry_rdSw (s : State) : (handlerEntry s).rdSw = s.rdSw := rfl
@[simp] theorem handlerEntry_rxq (s : State) : (handlerEntry s).rxq = s.rxq := rfl
@[simp] theorem handlerEntry_btnLine (s : State) : (handlerEntry s).btnLine = s.btnLine := rfl
@[simp] theorem handlerEntry_swState (s : State) : (handlerEntry s).swState = .debounce := rfl
@[simp] theorem handlerEntry_swCnt (s : State) : (handlerEntry s).swCnt = s.params.debounceMs := rfl
@[simp] theorem handlerEntry_swDue (s : State) : (handlerEntry s).swDue = s.swDue := rfl
@[simp] theorem handlerEntry_swPending (s : State) : (handlerEntry s).swPending = s.swPending := rfl
@[simp] theorem handlerEntry_swVal (s : State) : (handlerEntry s).swVal = s.swVal := rfl
@[simp] theorem handlerEntry_swK (s : State) : (handlerEntry s).swK = s.swK := rfl
@[simp] theorem handlerEntry_toneActive (s : State) : (handlerEntry s).toneActive = s.toneActive := rfl
@[simp] theorem handlerEntry_toneLeft (s : State) : (handlerEntry s).toneLeft = s.toneLeft := rfl
@[simp] theorem handlerEntry_toneOut (s : State) : (handlerEntry s).toneOut = s.toneOut := rfl
@[simp] theorem handlerEntry_frameHost (s : State) : (handlerEntry s).frameHost = s.frameHost := rfl
@[simp] theorem handlerEntry_frameSw (s : State) : (handlerEntry s).frameSw = s.frameSw := rfl
@[simp] theorem handlerEntry_swPoll (s : State) : (handlerEntry s).swPoll = s.swPoll := rfl
@[simp] theorem handlerEntry_params (s : State) : (handlerEntry s).params = s.params := rfl
@[simp] theorem handlerEntry_stim (s : State) : (handlerEntry s).stim = s.stim := rfl

/-! ## handlerExit -/

@[simp] theorem handlerExit_cmd (s : State) : (handlerExit s).cmd = s.cmd := by unfold handlerExit; split <;> rfl
@[simp] theorem handlerExit_busy (s : State) : (handlerExit s).busy = s.busy := by unfold handlerExit; split <;> rfl
@[simp] theorem handlerExit_result (s : State) : (handlerExit s).result = s.result := by unfold handlerExit; split <;> rfl
@[simp] theorem handlerExit_status (s : State) : (handlerExit s).status = s.status := by unfold handlerExit; split <;> rfl
@[simp] theorem handlerExit_hostPhase (s : State) : (handlerExit s).hostPhase = s.hostPhase := by unfold handlerExit; split <;> rfl
@[simp] theorem handlerExit_hostCnt (s : State) : (handlerExit s).hostCnt = s.hostCnt := by unfold handlerExit; split <;> rfl
@[simp] theorem handlerExit_hostVal (s : State) : (handlerExit s).hostVal = s.hostVal := by unfold handlerExit; split <;> rfl
@[simp] theorem handlerExit_hostK (s : State) : (handlerExit s).hostK = s.hostK := by unfold handlerExit; split <;> rfl
@[simp] theorem handlerExit_mode (s : State) : (handlerExit s).mode = s.mode := by unfold handlerExit; split <;> rfl
@[simp] theorem handlerExit_indOut (s : State) : (handlerExit s).indOut = s.indOut := by unfold handlerExit; split <;> rfl
@[simp] theorem handlerExit_digits (s : State) : (handlerExit s).digits = s.digits := by unfold handlerExit; split <;> rfl
@[simp] theorem handlerExit_pos (s : State) : (handlerExit s).pos = s.pos := by unfold handlerExit; split <;> rfl
@[simp] theorem handlerExit_segOut (s : State) : (handlerExit s).segOut = s.segOut := by unfold handlerExit; split <;> rfl
@[simp] theorem handlerExit_dselOut (s : State) : (handlerExit s).dselOut = s.dselOut := by unfold handlerExit; split <;> rfl
@[simp] theorem handlerExit_frameValidHost (s : State) : (handlerExit s).frameValidHost = s.frameValidHost := by unfold handlerExit; split <;> rfl
@[simp] theorem handlerExit_frameValidSw (s : State) : (handlerExit s).frameValidSw = s.frameValidSw := by unfold handlerExit; split <;> rfl
@[simp] theorem handlerExit_rdHost (s : State) : (handlerExit s).rdHost = s.rdHost := by unfold handlerExit; split <;> rfl
@[simp] theorem handlerExit_rdSw (s : State) : (handlerExit s).rdSw = s.rdSw := by unfold handlerExit; split <;> rfl
@[simp] theorem handlerExit_rxq (s : State) : (handlerExit s).rxq = s.rxq := by unfold handlerExit; split <;> rfl
@[simp] theorem handlerExit_btnLine (s : State) : (handlerExit s).btnLine = s.btnLine := by unfold handlerExit; split <;> rfl
@[simp] theorem handlerExit_swState (s : State) : (handlerExit s).swState = if s.swPending then .debounce else .idle := by
  unfold handlerExit; split <;> simp_all [handlerEntry]
@[simp] theorem handlerExit_swCnt (s : State) : (handlerExit s).swCnt = if s.swPending then s.params.debounceMs else s.swCnt := by
  unfold handlerExit; split <;> simp_all [handlerEntry]
@[simp] theorem handlerExit_swDue (s : State) : (handlerExit s).swDue = s.swDue := by unfold handlerExit; split <;> rfl
@[simp] theorem handlerExit_swPending (s : State) : (handlerExit s).swPending = false := by
  unfold handlerExit; split <;> simp_all [handlerEntry]
@[simp] theorem handlerExit_swVal (s : State) : (handlerExit s).swVal = s.swVal := by unfold handlerExit; split <;> rfl
@[simp] theorem handlerExit_swK (s : State) : (handlerExit s).swK = s.swK := by unfold handlerExit; split <;> rfl
@[simp] theorem handlerExit_toneActive (s : State) : (handlerExit s).toneActive = s.toneActive := by unfold handlerExit; split <;> rfl
@[simp] theorem handlerExit_toneLeft (s : State) : (handlerExit s).toneLeft = s.toneLeft := by unfold handlerExit; split <;> rfl
@[simp] theorem handlerExit_toneOut (s : State) : (handlerExit s).toneOut = s.toneOut := by unfold handlerExit; split <;> rfl
@[simp] theorem handlerExit_frameHost (s : State) : (handlerExit s).frameHost = s.frameHost := by unfold handlerExit; split <;> rfl
@[simp] theorem handlerExit_frameSw (s : State) : (handlerExit s).frameSw = s.frameSw := by unfold handlerExit; split <;> rfl
@[simp] theorem handlerExit_swPoll (s : State) : (handlerExit s).swPoll = s.swPoll := by unfold handlerExit; split <;> rfl
@[simp] theorem handlerExit_params (s : State) : (handlerExit s).params = s.params := by unfold handlerExit; split <;> rfl
@[simp] theorem handlerExit_stim (s : State) : (handlerExit s).stim = s.stim := by unfold handlerExit; split <;> rfl

/-! ## enterRelease -/

@[simp] theorem enterRelease_cmd (s : State) : (enterRelease s).cmd = s.cmd := rfl
@[simp] theorem enterRelease_busy (s : State) : (enterRelease s).busy = s.busy := rfl
@[simp] theorem enterRelease_result (s : State) : (enterRelease s).result = s.result := rfl
@[simp] theorem enterRelease_status (s : State) : (enterRelease s).status = s.status := rfl
@[simp] theorem enterRelease_hostPhase (s : State) : (enterRelease s).hostPhase = s.hostPhase := rfl
@[simp] theorem enterRelease_hostCnt (s : State) : (enterRelease s).hostCnt = s.hostCnt := rfl
@[simp] theorem enterRelease_hostVal (s : State) : (enterRelease s).hostVal = s.hostVal := rfl
@[simp] theorem enterRelease_hostK (s : State) : (enterRelease s).hostK = s.hostK := rfl
@[simp] theorem enterRelease_mode (s : State) : (enterRelease s).mode = s.mode := rfl
@[simp] theorem enterRelease_indOut (s : State) : (enterRelease s).indOut = s.indOut := rfl
@[simp] theorem enterRelease_digits (s : State) : (enterRelease s).digits = s.digits := rfl
@[simp] theorem enterRelease_pos (s : State) : (enterRelease s).pos = s.pos := rfl
@[simp] theorem enterRelease_segOut (s : State) : (enterRelease s).segOut = s.segOut := rfl
@[simp] theorem enterRelease_dselOut (s : State) : (enterRelease s).dselOut = s.dselOut := rfl
@[simp] theorem enterRelease_frameValidHost (s : State) : (enterRelease s).frameValidHost = s.frameValidHost := rfl
@[simp] theorem enterRelease_frameValidSw (s : State) : (enterRelease s).frameValidSw = s.frameValidSw := rfl
@[simp] theorem enterRelease_rdHost (s : State) : (enterRelease s).rdHost = s.rdHost := rfl
@[simp] theorem enterRelease_rdSw (s : State) : (enterRelease s).rdSw = s.rdSw := rfl
@[simp] theorem enterRelease_rxq (s : State) : (enterRelease s).rxq = s.rxq := rfl
@[simp] theorem enterRelease_btnLine (s : State) : (enterRelease s).btnLine = s.btnLine := rfl
@[simp] theorem enterRelease_swState (s : State) : (enterRelease s).swState = .release := rfl
@[simp] theorem enterRelease_swCnt (s : State) : (enterRelease s).swCnt = s.swCnt := rfl
@[simp] theorem enterRelease_swDue (s : State) : (enterRelease s).swDue = true := rfl
@[simp] theorem enterRelease_swPending (s : State) : (enterRelease s).swPending = s.swPending := rfl
@[simp] theorem enterRelease_swVal (s : State) : (enterRelease s).swVal = s.swVal := rfl
@[simp] theorem enterRelease_swK (s : State) : (enterRelease s).swK = s.swK := rfl
@[simp] theorem enterRelease_toneActive (s : State) : (enterRelease s).toneActive = s.toneActive := rfl
@[simp] theorem enterRelease_toneLeft (s : State) : (enterRelease s).toneLeft = s.toneLeft := rfl
@[simp] theorem enterRelease_toneOut (s : State) : (enterRelease s).toneOut = s.toneOut := rfl
@[simp] theorem enterRelease_frameHost (s : State) : (enterRelease s).frameHost = s.frameHost := rfl
@[simp] theorem enterRelease_frameSw (s : State) : (enterRelease s).frameSw = s.frameSw := rfl
@[simp] theorem enterRelease_swPoll (s : State) : (enterRelease s).swPoll = 0 := rfl
@[simp] theorem enterRelease_params (s : State) : (enterRelease s).params = s.params := rfl
@[simp] theorem enterRelease_stim (s : State) : (enterRelease s).stim = s.stim := rfl

/-! ## toneStart -/

@[simp] theorem toneStart_cmd (s : State) : (toneStart s).cmd = s.cmd := by unfold toneStart; split <;> rfl
@[simp] theorem toneStart_busy (s : State) : (toneStart s).busy = s.busy := by unfold toneStart; split <;> rfl
@[simp] theorem toneStart_result (s : State) : (toneStart s).result = s.result := by unfold toneStart; split <;> rfl
@[simp] theorem toneStart_status (s : State) : (toneStart s).status = s.status := by unfold toneStart; split <;> rfl
@[simp] theorem toneStart_hostPhase (s : State) : (toneStart s).hostPhase = s.hostPhase := by unfold toneStart; split <;> rfl
@[simp] theorem toneStart_hostCnt (s : State) : (toneStart s).hostCnt = s.hostCnt := by unfold toneStart; split <;> rfl
@[simp] theorem toneStart_hostVal (s : State) : (toneStart s).hostVal = s.hostVal := by unfold toneStart; split <;> rfl
@[simp] theorem toneStart_hostK (s : State) : (toneStart s).hostK = s.hostK := by unfold toneStart; split <;> rfl
@[simp] theorem toneStart_mode (s : State) : (toneStart s).mode = s.mode := by unfold toneStart; split <;> rfl
@[simp] theorem toneStart_indOut (s : State) : (toneStart s).indOut = s.indOut := by unfold toneStart; split <;> rfl
@[simp] theorem toneStart_digits (s : State) : (toneStart s).digits = s.digits := by unfold toneStart; split <;> rfl
@[simp] theorem toneStart_pos (s : State) : (toneStart s).pos = s.pos := by unfold toneStart; split <;> rfl
@[simp] theorem toneStart_segOut (s : State) : (toneStart s).segOut = s.segOut := by unfold toneStart; split <;> rfl
@[simp] theorem toneStart_dselOut (s : State) : (toneStart s).dselOut = s.dselOut := by unfold toneStart; split <;> rfl
@[simp] theorem toneStart_frameValidHost (s : State) : (toneStart s).frameValidHost = s.frameValidHost := by unfold toneStart; split <;> rfl
@[simp] theorem toneStart_frameValidSw (s : State) : (toneStart s).frameValidSw = s.frameValidSw := by unfold toneStart; split <;> rfl
@[simp] theorem toneStart_rdHost (s : State) : (toneStart s).rdHost = s.rdHost := by unfold toneStart; split <;> rfl
@[simp] theorem toneStart_rdSw (s : State) : (toneStart s).rdSw = s.rdSw := by unfold toneStart; split <;> rfl
@[simp] theorem toneStart_rxq (s : State) : (toneStart s).rxq = s.rxq := by unfold toneStart; split <;> rfl
@[simp] theorem toneStart_btnLine (s : State) : (toneStart s).btnLine = s.btnLine := by unfold toneStart; split <;> rfl
@[simp] theorem toneStart_swState (s : State) : (toneStart s).swState = s.swState := by unfold toneStart; split <;> rfl
@[simp] theorem toneStart_swCnt (s : State) : (toneStart s).swCnt = s.swCnt := by unfold toneStart; split <;> rfl
@[simp] theorem toneStart_swDue (s : State) : (toneStart s).swDue = s.swDue := by unfold toneStart; split <;> rfl
@[simp] theorem toneStart_swPending (s : State) : (toneStart s).swPending = s.swPending := by unfold toneStart; split <;> rfl
@[simp] theorem toneStart_swVal (s : State) : (toneStart s).swVal = s.swVal := by unfold toneStart; split <;> rfl
@[simp] theorem toneStart_swK (s : State) : (toneStart s).swK = s.swK := by unfold toneStart; split <;> rfl
@[simp] theorem toneStart_frameHost (s : State) : (toneStart s).frameHost = s.frameHost := by unfold toneStart; split <;> rfl
@[simp] theorem toneStart_frameSw (s : State) : (toneStart s).frameSw = s.frameSw := by unfold toneStart; split <;> rfl
@[simp] theorem toneStart_swPoll (s : State) : (toneStart s).swPoll = s.swPoll := by unfold toneStart; split <;> rfl
@[simp] theorem toneStart_params (s : State) : (toneStart s).params = s.params := by unfold toneStart; split <;> rfl
@[simp] theorem toneStart_stim (s : State) : (toneStart s).stim = s.stim := by unfold toneStart; split <;> rfl

/-! ## acceptCommand -/

@[simp] theorem acceptCommand_cmd (w : CmdWord) (s : State) : (acceptCommand w s).cmd = w := rfl
@[simp] theorem acceptCommand_busy (w : CmdWord) (s : State) : (acceptCommand w s).busy = true := rfl
@[simp] theorem acceptCommand_result (w : CmdWord) (s : State) : (acceptCommand w s).result = s.result := rfl
@[simp] theorem acceptCommand_status (w : CmdWord) (s : State) : (acceptCommand w s).status = s.status := rfl
@[simp] theorem acceptCommand_hostPhase (w : CmdWord) (s : State) : (acceptCommand w s).hostPhase = .start := rfl
@[simp] theorem acceptCommand_hostCnt (w : CmdWord) (s : State) : (acceptCommand w s).hostCnt = s.hostCnt := rfl
@[simp] theorem acceptCommand_hostVal (w : CmdWord) (s : State) : (acceptCommand w s).hostVal = w.imm16 := rfl
@[simp] theorem acceptCommand_hostK (w : CmdWord) (s : State) : (acceptCommand w s).hostK = s.hostK := rfl
@[simp] theorem acceptCommand_mode (w : CmdWord) (s : State) : (acceptCommand w s).mode = s.mode := rfl
@[simp] theorem acceptCommand_indOut (w : CmdWord) (s : State) : (acceptCommand w s).indOut = s.indOut := rfl
@[simp] theorem acceptCommand_digits (w : CmdWord) (s : State) : (acceptCommand w s).digits = s.digits := rfl
@[simp] theorem acceptCommand_pos (w : CmdWord) (s : State) : (acceptCommand w s).pos = s.pos := rfl
@[simp] theorem acceptCommand_segOut (w : CmdWord) (s : State) : (acceptCommand w s).segOut = s.segOut := rfl
@[simp] theorem acceptCommand_dselOut (w : CmdWord) (s : State) : (acceptCommand w s).dselOut = s.dselOut := rfl
@[simp] theorem acceptCommand_frameValidHost (w : CmdWord) (s : State) : (acceptCommand w s).frameValidHost = s.frameValidHost := rfl
@[simp] theorem acceptCommand_frameValidSw (w : CmdWord) (s : State) : (acceptCommand w s).frameValidSw = s.frameValidSw := rfl
@[simp] theorem acceptCommand_rdHost (w : CmdWord) (s : State) : (acceptCommand w s).rdHost = s.rdHost := rfl
@[simp] theorem acceptCommand_rdSw (w : CmdWord) (s : State) : (acceptCommand w s).rdSw = s.rdSw := rfl
@[simp] theorem acceptCommand_rxq (w : CmdWord) (s : State) : (acceptCommand w s).rxq = s.rxq := rfl
@[simp] theorem acceptCommand_btnLine (w : CmdWord) (s : State) : (acceptCommand w s).btnLine = s.btnLine := rfl
@[simp] theorem acceptCommand_swState (w : CmdWord) (s : State) : (acceptCommand w s).swState = s.swState := rfl
@[simp] theorem acceptCommand_swCnt (w : CmdWord) (s : State) : (acceptCommand w s).swCnt = s.swCnt := rfl
@[simp] theorem acceptCommand_swDue (w : CmdWord) (s : State) : (acceptCommand w s).swDue = s.swDue := rfl
@[simp] theorem acceptCommand_swPending (w : CmdWord) (s : State) : (acceptCommand w s).swPending = s.swPending := rfl
@[simp] theorem acceptCommand_swVal (w : CmdWord) (s : State) : (acceptCommand w s).swVal = s.swVal := rfl
@[simp] theorem acceptCommand_swK (w : CmdWord) (s : State) : (acceptCommand w s).swK = s.swK := rfl
@[simp] theorem acceptCommand_toneActive (w : CmdWord) (s : State) : (acceptCommand w s).toneActive = s.toneActive := rfl
@[simp] theorem acceptCommand_toneLeft (w : CmdWord) (s : State) : (acceptCommand w s).toneLeft = s.toneLeft := rfl
@[simp] theorem acceptCommand_toneOut (w : CmdWord) (s : State) : (acceptCommand w s).toneOut = s.toneOut := rfl
@[simp] theorem acceptCommand_frameHost (w : CmdWord) (s : State) : (acceptCommand w s).frameHost = s.frameHost := rfl
@[simp] theorem acceptCommand_frameSw (w : CmdWord) (s : State) : (acceptCommand w s).frameSw = s.frameSw := rfl
@[simp] theorem acceptCommand_swPoll (w : CmdWord) (s : State) : (acceptCommand w s).swPoll = s.swPoll := rfl
@[simp] theorem acceptCommand_params (w : CmdWord) (s : State) : (acceptCommand w s).params = s.params := rfl
@[simp] theorem acceptCommand_stim (w : CmdWord) (s : State) : (acceptCommand w s).stim = s.stim := rfl

end Sys2Proof.Machine
end

