-- ==== Sys2Proof/Laws/Foreground.lean ====
section
/-! SUPPORT. What a turn of FG is in each position (R23, R24, R25): one equation per phase, so that no later proof unfolds the
sequencer. -/

namespace Sys2Proof.Machine

section Host
variable {s : State} (hsw : s.swState = .idle) (hb : s.busy = true)
include hsw

/-- With no command and the handler idle, FG changes nothing. -/
theorem fgStep_quiescent (hb : s.busy = false) : fgStep s = .next s := by
  simp [fgStep, fgEnabled, runningContext, hsw, hb]

include hb

theorem fgStep_start (hp : s.hostPhase = .start) : fgStep s = exec (decode s.cmd) s := by
  simp [fgStep, fgEnabled, runningContext, hsw, hb, hostEnabled, hostMicroStep, hp]

/-- In READ a turn is one receive, or nothing where none is enabled. -/
theorem fgStep_hostRead (hp : s.hostPhase = .read) : fgStep s = hostRead s := by
  by_cases h : receiveEnabled .host s = true
  · simp [fgStep, fgEnabled, runningContext, hsw, hb, hostEnabled, hostMicroStep, hp, h]
  · have hn : receive .host s = none := by
      simp only [receiveEnabled, Bool.and_eq_true, bne_iff_ne, Bool.not_eq_true', List.isEmpty_eq_false_iff,
        not_and, not_not] at h
      unfold receive rxPop
      cases hph : (rd .host s).ph with
      | none => rfl
      | _ => rw [h (by rw [hph]; simp)]
    simp [fgStep, fgEnabled, runningContext, hsw, hb, hostEnabled, hp, h, hostRead, hn]

theorem fgStep_hostExtract (hp : s.hostPhase = .extract) : fgStep s = hostExtract s := by
  simp [fgStep, fgEnabled, runningContext, hsw, hb, hostEnabled, hostMicroStep, hp]

theorem fgStep_hostWrite (hp : s.hostPhase = .write) : fgStep s = hostWrite s := by
  simp [fgStep, fgEnabled, runningContext, hsw, hb, hostEnabled, hostMicroStep, hp]

theorem fgStep_toneWait (hp : s.hostPhase = .toneWait) :
    fgStep s = if s.toneActive then .next s else .next (toneWaitEnd s) := by
  cases h : s.toneActive <;> simp [fgStep, fgEnabled, runningContext, hsw, hb, hostEnabled, hostMicroStep, hp, h]

theorem fgStep_count (hp : s.hostPhase = .count) :
    fgStep s = if s.hostCnt = 0#16 then .next (waitEnd s) else .next s := by
  by_cases h : s.hostCnt = 0#16 <;>
    simp [fgStep, fgEnabled, runningContext, hsw, hb, hostEnabled, hostMicroStep, hp, h]

theorem fgStep_busyIdle (hp : s.hostPhase = .idle) : fgStep s = .next s := by
  simp [fgStep, fgEnabled, runningContext, hsw, hb, hostEnabled, hp]

theorem fgStep_hostReserved (hp : s.hostPhase = .reserved) : fgStep s = .fault .hostPhaseReserved := by
  simp [fgStep, fgEnabled, runningContext, hsw, hb, hostEnabled, hostMicroStep, hp]

end Host

section Handler
variable {s : State}

theorem fgStep_debounce (h : s.swState = .debounce) :
    fgStep s = if s.swCnt = 0 then .next (debounceSample s) else .next s := by
  by_cases hc : s.swCnt = 0 <;> simp [fgStep, fgEnabled, runningContext, swEnabled, swMicroStep, h, hc]

theorem fgStep_actMode (h : s.swState = .actMode) : fgStep s = modeAdvance s := by
  simp [fgStep, fgEnabled, runningContext, swEnabled, swMicroStep, h]

/-- In READ a turn is one receive, or nothing where none is enabled. -/
theorem fgStep_swRead (h : s.swState = .read) : fgStep s = swRead s := by
  by_cases he : receiveEnabled .sw s = true
  · simp [fgStep, fgEnabled, runningContext, swEnabled, swMicroStep, h, he]
  · have hn : receive .sw s = none := by
      simp only [receiveEnabled, Bool.and_eq_true, bne_iff_ne, Bool.not_eq_true', List.isEmpty_eq_false_iff,
        not_and, not_not] at he
      unfold receive rxPop
      cases hph : (rd .sw s).ph with
      | none => rfl
      | _ => rw [he (by rw [hph]; simp)]
    simp [fgStep, fgEnabled, runningContext, swEnabled, h, he, swRead, hn]

theorem fgStep_swExtract (h : s.swState = .extract) : fgStep s = swExtract s := by
  simp [fgStep, fgEnabled, runningContext, swEnabled, swMicroStep, h]

theorem fgStep_swWrite (h : s.swState = .write) : fgStep s = swWrite s := by
  simp [fgStep, fgEnabled, runningContext, swEnabled, swMicroStep, h]

theorem fgStep_release (h : s.swState = .release) :
    fgStep s = if s.swDue then .next (releaseSample s) else .next s := by
  cases hd : s.swDue <;> simp [fgStep, fgEnabled, runningContext, swEnabled, swMicroStep, h, hd]

theorem fgStep_swReserved (h : s.swState = .reserved) : fgStep s = .fault .swStateReserved := by
  simp [fgStep, fgEnabled, runningContext, swEnabled, swMicroStep, h]

end Handler

end Sys2Proof.Machine
end

