-- ==== Sys2Proof/Laws/Memory.lean ====
section
/-! SUPPORT. The laws of a frame buffer: a read after a write, and that every write keeps the canonical form. -/

namespace Sys2Proof.Machine

theorem cellsFrom_mono {lo lo' : Nat} (h : lo' ≤ lo) {m : Memory} (hm : cellsFrom lo m = true) : cellsFrom lo' m = true := by
  cases m with
  | nil => rfl
  | cons c t =>
    obtain ⟨k, v⟩ := c
    simp only [cellsFrom, Bool.and_eq_true, decide_eq_true_eq] at hm ⊢
    exact ⟨⟨by omega, hm.1.2⟩, hm.2⟩

/-- A read at the written offset gives the byte written. -/
@[simp] theorem read_write_same (m : Memory) (a : Nat) (b : Byte) : Memory.read (Memory.write m a b) a = some b := by
  induction m with
  | nil => simp [Memory.write, Memory.read]
  | cons c t ih =>
    obtain ⟨k, v⟩ := c
    by_cases h1 : a < k
    · simp [Memory.write, Memory.read, h1]
    · by_cases h2 : a = k
      · simp [Memory.write, Memory.read, h2]
      · simp [Memory.write, Memory.read, h1, h2, ih]

/-- A write leaves every other offset as it was. -/
theorem read_write_other (m : Memory) {a a' : Nat} (b : Byte) (h : a' ≠ a) :
    Memory.read (Memory.write m a b) a' = Memory.read m a' := by
  induction m with
  | nil => simp [Memory.write, Memory.read, h]
  | cons c t ih =>
    obtain ⟨k, v⟩ := c
    by_cases h1 : a < k
    · simp [Memory.write, Memory.read, h1, h]
    · by_cases h2 : a = k
      · subst h2
        simp [Memory.write, Memory.read, h]
      · simp [Memory.write, Memory.read, h1, h2, ih]

theorem read_write (m : Memory) (a a' : Nat) (b : Byte) :
    Memory.read (Memory.write m a b) a' = if a' = a then some b else Memory.read m a' := by
  split
  · next h => rw [h, read_write_same]
  · next h => rw [read_write_other m b h]

theorem cellsFrom_write {lo a : Nat} (b : Byte) {m : Memory} (hlo : lo ≤ a) (ha : a < frameCells)
    (hm : cellsFrom lo m = true) : cellsFrom lo (Memory.write m a b) = true := by
  induction m generalizing lo with
  | nil => simp [Memory.write, cellsFrom, hlo, ha]
  | cons c t ih =>
    obtain ⟨k, v⟩ := c
    simp only [cellsFrom, Bool.and_eq_true, decide_eq_true_eq] at hm
    obtain ⟨⟨h1, h2⟩, h3⟩ := hm
    by_cases h4 : a < k
    · simp only [Memory.write, h4, if_true, cellsFrom, Bool.and_eq_true, decide_eq_true_eq]
      exact ⟨⟨hlo, ha⟩, ⟨by omega, h2⟩, h3⟩
    · by_cases h5 : a = k
      · subst h5
        simp only [Memory.write, lt_irrefl, if_false, if_true, cellsFrom, Bool.and_eq_true, decide_eq_true_eq]
        exact ⟨⟨hlo, ha⟩, h3⟩
      · simp only [Memory.write, h4, h5, if_false, cellsFrom, Bool.and_eq_true, decide_eq_true_eq]
        exact ⟨⟨h1, h2⟩, ih (by omega) h3⟩

/-- A write inside the buffer keeps the canonical form. -/
theorem wf_write {m : Memory} {a : Nat} (b : Byte) (ha : a < frameCells) (hm : m.wf = true) :
    (Memory.write m a b).wf = true := cellsFrom_write b (Nat.zero_le a) ha hm

/-- An unwritten buffer is in canonical form: State.reset's two buffers are. -/
@[simp] theorem wf_nil : Memory.wf [] = true := rfl

/-- Every read of a canonical buffer that holds a byte is inside the buffer. -/
theorem read_lt_of_wf {m : Memory} {lo a : Nat} {b : Byte} (hm : cellsFrom lo m = true) (h : Memory.read m a = some b) :
    lo ≤ a ∧ a < frameCells := by
  induction m generalizing lo with
  | nil => simp [Memory.read] at h
  | cons c t ih =>
    obtain ⟨k, v⟩ := c
    simp only [cellsFrom, Bool.and_eq_true, decide_eq_true_eq] at hm
    by_cases h1 : a = k
    · subst h1; exact hm.1
    · simp only [Memory.read, h1, if_false] at h
      have := ih hm.2 h
      omega

/-- Equal reads at every offset make equal canonical buffers. -/
theorem eq_of_read_eq {m n : Memory} {lo : Nat} (hm : cellsFrom lo m = true) (hn : cellsFrom lo n = true)
    (h : ∀ a, Memory.read m a = Memory.read n a) : m = n := by
  induction m generalizing n lo with
  | nil =>
    cases n with
    | nil => rfl
    | cons c t =>
      obtain ⟨k, v⟩ := c
      have := h k
      simp [Memory.read] at this
  | cons c t ih =>
    obtain ⟨k, v⟩ := c
    simp only [cellsFrom, Bool.and_eq_true, decide_eq_true_eq] at hm
    cases n with
    | nil =>
      have := h k
      simp [Memory.read] at this
    | cons c' t' =>
      obtain ⟨k', v'⟩ := c'
      simp only [cellsFrom, Bool.and_eq_true, decide_eq_true_eq] at hn
      have hk : k = k' := by
        by_contra hne
        have e1 := h k
        have e2 := h k'
        simp only [Memory.read, if_true, hne, if_false] at e1
        simp only [Memory.read, if_true, Ne.symm hne, if_false] at e2
        have l1 := read_lt_of_wf hn.2 e1.symm
        have l2 := read_lt_of_wf hm.2 e2
        omega
      subst hk
      have hv : v = v' := by
        have := h k
        simpa [Memory.read] using this
      subst hv
      congr 1
      refine ih hm.2 hn.2 fun a => ?_
      by_cases ha : a = k
      · subst ha
        cases hr : Memory.read t a with
        | some b => have := read_lt_of_wf hm.2 hr; omega
        | none =>
          cases hr' : Memory.read t' a with
          | some b => have := read_lt_of_wf hn.2 hr'; omega
          | none => rfl
      · have := h a
        simpa [Memory.read, ha] using this

end Sys2Proof.Machine
end

