-- ==== Sys2Proof/Laws/Run.lean ====
section
/-! SUPPORT. The laws of runs of moves: a run is taken move by move and composes; each induction over a run starts here. -/

namespace Sys2Proof.Machine

@[simp] theorem moveRun_nil (s : State) : moveRun [] s = .next s := rfl

/-- A run whose first move answers t goes on from t. -/
theorem moveRun_cons {x : Move} {xs : List Move} {s t : State} (h : moveStep x s = .next t) :
    moveRun (x :: xs) s = moveRun xs t := by
  simp [moveRun, h]

/-- A run composes. -/
theorem moveRun_append {xs ys : List Move} {s t : State} (h : moveRun xs s = .next t) :
    moveRun (xs ++ ys) s = moveRun ys t := by
  induction xs generalizing s with
  | nil => simp only [moveRun_nil, Host.Outcome.next.injEq] at h; simp [h]
  | cons x xs ih =>
    simp only [List.cons_append, moveRun] at h ⊢
    split <;> rename_i hx <;> rw [hx] at h
    · exact ih h
    · simp at h
    · simp at h

@[simp] theorem fgRun_zero (s : State) : fgRun 0 s = .next s := rfl

/-- A run of FG turns starts with one turn. -/
theorem fgRun_succ {n : Nat} {s t : State} (h : fgStep s = .next t) : fgRun (n + 1) s = fgRun n t := by
  rw [fgRun, List.replicate_succ]
  exact moveRun_cons h

/-- Runs of FG turns compose. -/
theorem fgRun_add {n m : Nat} {s t : State} (h : fgRun n s = .next t) : fgRun (n + m) s = fgRun m t := by
  rw [fgRun, List.replicate_add]
  exact moveRun_append h

@[simp] theorem eventRun_nil (s : State) : eventRun [] s = .next s := rfl

/-- A run of events starts with its first. -/
theorem eventRun_cons {e : Event} {es : List Event} {s t : State} (h : eventStep e s = .next t) :
    eventRun (e :: es) s = eventRun es t := moveRun_cons h

/-- Runs of events compose. -/
theorem eventRun_append {es fs : List Event} {s t : State} (h : eventRun es s = .next t) :
    eventRun (es ++ fs) s = eventRun fs t := by
  rw [eventRun, List.map_append]
  exact moveRun_append h

/-- What every move of a run keeps, the run keeps, provided each move from a state with the property answers a next state. -/
theorem moveRun_keeps {P : State → Prop} {xs : List Move} {s : State} (hs : P s)
    (hstep : ∀ x ∈ xs, ∀ t, P t → ∃ u, moveStep x t = .next u ∧ P u) : ∃ t, moveRun xs s = .next t ∧ P t := by
  induction xs generalizing s with
  | nil => exact ⟨s, rfl, hs⟩
  | cons x xs ih =>
    obtain ⟨u, hu, hp⟩ := hstep x (by simp) s hs
    obtain ⟨t, ht, hpt⟩ := ih hp fun y hy => hstep y (by simp [hy])
    exact ⟨t, by rw [moveRun_cons hu, ht], hpt⟩

end Sys2Proof.Machine
end

