-- ==== Sys2Proof/Laws/Reception.lean ====
section
/-! SUPPORT. The laws of reception, for either context: each receive micro-step as an equation, everything a receive can answer
(`receive_cases`), and a whole good frame (`reception_run`). -/

namespace Sys2Proof.Machine

/-! ## Reading back the context's registers -/

@[simp] theorem rd_setRd (c : Ctx) (r : Rd) (s : State) : rd c (setRd c r s) = r := by cases c <;> rfl
@[simp] theorem rd_setFrame (c d : Ctx) (m : Memory) (s : State) : rd c (setFrame d m s) = rd c s := by
  cases c <;> cases d <;> rfl
@[simp] theorem rd_setFrameValid (c d : Ctx) (v : Bool) (s : State) : rd c (setFrameValid d v s) = rd c s := by
  cases c <;> cases d <;> rfl
@[simp] theorem frame_setFrame (c : Ctx) (m : Memory) (s : State) : frame c (setFrame c m s) = m := by cases c <;> rfl
@[simp] theorem frame_setRd (c d : Ctx) (r : Rd) (s : State) : frame c (setRd d r s) = frame c s := by
  cases c <;> cases d <;> rfl
@[simp] theorem frame_setFrameValid (c d : Ctx) (v : Bool) (s : State) : frame c (setFrameValid d v s) = frame c s := by
  cases c <;> cases d <;> rfl
@[simp] theorem frameValid_setFrameValid (c : Ctx) (v : Bool) (s : State) : frameValid c (setFrameValid c v s) = v := by
  cases c <;> rfl
@[simp] theorem frameValid_setRd (c d : Ctx) (r : Rd) (s : State) : frameValid c (setRd d r s) = frameValid c s := by
  cases c <;> cases d <;> rfl
@[simp] theorem frameValid_setFrame (c d : Ctx) (m : Memory) (s : State) : frameValid c (setFrame d m s) = frameValid c s := by
  cases c <;> cases d <;> rfl
@[simp] theorem rd_setRxq (c : Ctx) (q : List Byte) (s : State) : rd c { s with rxq := q } = rd c s := by cases c <;> rfl
@[simp] theorem frame_setRxq (c : Ctx) (q : List Byte) (s : State) : frame c { s with rxq := q } = frame c s := by
  cases c <;> rfl

/-- The state a receive of context c leaves: the buffer m, the progress r and the remaining queue q. -/
def received (c : Ctx) (m : Memory) (r : Rd) (q : List Byte) (s : State) : State := setRd c r (setFrame c m { s with rxq := q })

@[simp] theorem received_received (c : Ctx) (m m' : Memory) (r r' : Rd) (q q' : List Byte) (s : State) :
    received c m' r' q' (received c m r q s) = received c m' r' q' s := by
  cases c <;> simp only [received, setRd, setFrame]
@[simp] theorem rd_received (c : Ctx) (m : Memory) (r : Rd) (q : List Byte) (s : State) : rd c (received c m r q s) = r := by
  cases c <;> rfl
@[simp] theorem frame_received (c : Ctx) (m : Memory) (r : Rd) (q : List Byte) (s : State) :
    frame c (received c m r q s) = m := by cases c <;> rfl
@[simp] theorem rxq_received (c : Ctx) (m : Memory) (r : Rd) (q : List Byte) (s : State) :
    (received c m r q s).rxq = q := by cases c <;> rfl
@[simp] theorem params_received (c : Ctx) (m : Memory) (r : Rd) (q : List Byte) (s : State) :
    (received c m r q s).params = s.params := by cases c <;> rfl

/-- Putting back what is there changes nothing. -/
theorem received_self (c : Ctx) (s : State) :
    received c (frame c s) { ph := (rd c s).ph, idx := (rd c s).idx } s.rxq s = s := by cases c <;> rfl

/-- Everything a receive can answer: a byte is taken from the queue and stored at the offset RD selects; a header byte is
compared, and the frame's last byte sets FRAME_VALID. -/
theorem receive_cases {c : Ctx} {s t : State} {o : RxOutcome} (h : receive c s = some (o, t)) :
    ∃ b q, s.rxq = b :: q ∧
      (((rd c s).ph = .h0 ∧ b = s.params.hdr0 ∧ o = .more
          ∧ t = received c (Memory.write (frame c s) 0 b) { ph := .h1, idx := 0#5 } q s)
      ∨ ((rd c s).ph = .h0 ∧ b ≠ s.params.hdr0 ∧ o = .hdrMismatch
          ∧ t = setFrameValid c false (received c (Memory.write (frame c s) 0 b) { ph := .none, idx := 0#5 } q s))
      ∨ ((rd c s).ph = .h1 ∧ b = s.params.hdr1 ∧ o = .more
          ∧ t = received c (Memory.write (frame c s) 1 b) { ph := .pay, idx := 2#5 } q s)
      ∨ ((rd c s).ph = .h1 ∧ b ≠ s.params.hdr1 ∧ o = .hdrMismatch
          ∧ t = setFrameValid c false (received c (Memory.write (frame c s) 1 b) { ph := .none, idx := 0#5 } q s))
      ∨ ((rd c s).ph = .pay ∧ (rd c s).idx.toNat + 1 ≠ s.params.frameLen ∧ o = .more
          ∧ t = received c (Memory.write (frame c s) (rd c s).idx.toNat b) { ph := .pay, idx := (rd c s).idx + 1#5 } q s)
      ∨ ((rd c s).ph = .pay ∧ (rd c s).idx.toNat + 1 = s.params.frameLen ∧ o = .ok
          ∧ t = setFrameValid c true
              (received c (Memory.write (frame c s) (rd c s).idx.toNat b) { ph := .none, idx := 0#5 } q s))) := by
  unfold receive rxPop at h
  cases hq : s.rxq with
  | nil => simp only [hq] at h; cases hp : (rd c s).ph <;> simp [hp] at h
  | cons b q =>
    refine ⟨b, q, rfl, ?_⟩
    simp only [hq] at h
    cases hp : (rd c s).ph with
    | none => simp [hp] at h
    | h0 =>
      simp only [hp, headerReceive, Option.some.injEq] at h
      by_cases hb : b = s.params.hdr0
      · simp only [hb, Bool.false_eq_true, if_false, ne_eq, not_true_eq_false] at h
        injection h with h1 h2
        left
        subst h1 h2
        refine ⟨rfl, hb, rfl, ?_⟩
        cases c <;> simp [received, writeFrame, hb, frame, setFrame]
      · simp only [Bool.false_eq_true, if_false, ne_eq, hb, not_false_eq_true, if_true] at h
        injection h with h1 h2
        right; left
        subst h1 h2
        refine ⟨rfl, hb, rfl, ?_⟩
        cases c <;> rfl
    | h1 =>
      simp only [hp, headerReceive, Option.some.injEq] at h
      by_cases hb : b = s.params.hdr1
      · simp only [hb, if_true, ne_eq, not_true_eq_false, if_false] at h
        injection h with h1 h2
        right; right; left
        subst h1 h2
        refine ⟨rfl, hb, rfl, ?_⟩
        cases c <;> simp [received, writeFrame, hb, frame, setFrame]
      · simp only [ne_eq, hb, not_false_eq_true, if_true] at h
        injection h with h1 h2
        right; right; right; left
        subst h1 h2
        refine ⟨rfl, hb, rfl, ?_⟩
        cases c <;> rfl
    | pay =>
      simp only [hp, payloadReceive, rd_setRxq, Option.some.injEq] at h
      by_cases hl : (rd c s).idx.toNat + 1 = s.params.frameLen
      · simp only [hl, if_true] at h
        injection h with h1 h2
        right; right; right; right; right
        subst h1 h2
        refine ⟨rfl, hl, rfl, ?_⟩
        cases c <;> rfl
      · simp only [hl, if_false] at h
        injection h with h1 h2
        right; right; right; right; left
        subst h1 h2
        refine ⟨rfl, hl, rfl, ?_⟩
        cases c <;> rfl

/-- The frame of a receive: it changes FRAME[c], FRAME_VALID[c], RD[c] and RXQ, and no other register. -/
theorem receive_frame {c : Ctx} {s t : State} {o : RxOutcome} (h : receive c s = some (o, t)) :
    ∃ m r q v, t = setFrameValid c v (received c m r q s) := by
  have self : ∀ m r q, received c m r q s = setFrameValid c (frameValid c s) (received c m r q s) := by
    intro m r q; cases c <;> rfl
  obtain ⟨b, q, -, hc⟩ := receive_cases h
  rcases hc with ⟨-, -, -, rfl⟩ | ⟨-, -, -, rfl⟩ | ⟨-, -, -, rfl⟩ | ⟨-, -, -, rfl⟩ | ⟨-, -, -, rfl⟩ | ⟨-, -, -, rfl⟩
  · exact ⟨_, _, _, _, self _ _ _⟩
  · exact ⟨_, _, _, _, rfl⟩
  · exact ⟨_, _, _, _, self _ _ _⟩
  · exact ⟨_, _, _, _, rfl⟩
  · exact ⟨_, _, _, _, self _ _ _⟩
  · exact ⟨_, _, _, _, rfl⟩

/-- A host receive as one update. -/
theorem receive_frame_host {s t : State} {o : RxOutcome} (h : receive .host s = some (o, t)) :
    ∃ m r q v, t = { s with frameHost := m, frameValidHost := v, rdHost := r, rxq := q } := by
  obtain ⟨m, r, q, v, rfl⟩ := receive_frame h
  exact ⟨m, r, q, v, by simp only [setFrameValid, received, setRd, setFrame]⟩

/-- A handler receive as one update. -/
theorem receive_frame_sw {s t : State} {o : RxOutcome} (h : receive .sw s = some (o, t)) :
    ∃ m r q v, t = { s with frameSw := m, frameValidSw := v, rdSw := r, rxq := q } := by
  obtain ⟨m, r, q, v, rfl⟩ := receive_frame h
  exact ⟨m, r, q, v, by simp only [setFrameValid, received, setRd, setFrame]⟩

/-- A receive shortens RXQ by the byte it takes. -/
theorem receive_rxq {c : Ctx} {s t : State} {o : RxOutcome} (h : receive c s = some (o, t)) :
    t.rxq.length + 1 = s.rxq.length := by
  obtain ⟨b, q, hq, hc⟩ := receive_cases h
  rw [hq]
  rcases hc with ⟨-, -, -, rfl⟩ | ⟨-, -, -, rfl⟩ | ⟨-, -, -, rfl⟩ | ⟨-, -, -, rfl⟩ | ⟨-, -, -, rfl⟩ | ⟨-, -, -, rfl⟩ <;>
    simp [received]

/-! ## Each receive as an equation -/

section Equations
variable {c : Ctx} {s : State} {b : Byte} {q : List Byte} (hq : s.rxq = b :: q)
include hq

theorem receive_h0_good (hp : (rd c s).ph = .h0) (hb : b = s.params.hdr0) :
    receive c s = some (.more, received c (Memory.write (frame c s) 0 b) { ph := .h1, idx := 0#5 } q s) := by
  subst hb
  cases c <;> simp_all [receive, rxPop, headerReceive, received, writeFrame, rd, frame, setFrame, setRd]

theorem receive_h0_bad (hp : (rd c s).ph = .h0) (hb : b ≠ s.params.hdr0) :
    receive c s = some (.hdrMismatch,
      setFrameValid c false (received c (Memory.write (frame c s) 0 b) { ph := .none, idx := 0#5 } q s)) := by
  cases c <;> simp_all [receive, rxPop, headerReceive, received, writeFrame, rd, frame, setFrame, setRd, setFrameValid]

theorem receive_h1_good (hp : (rd c s).ph = .h1) (hb : b = s.params.hdr1) :
    receive c s = some (.more, received c (Memory.write (frame c s) 1 b) { ph := .pay, idx := 2#5 } q s) := by
  subst hb
  cases c <;> simp_all [receive, rxPop, headerReceive, received, writeFrame, rd, frame, setFrame, setRd]

theorem receive_h1_bad (hp : (rd c s).ph = .h1) (hb : b ≠ s.params.hdr1) :
    receive c s = some (.hdrMismatch,
      setFrameValid c false (received c (Memory.write (frame c s) 1 b) { ph := .none, idx := 0#5 } q s)) := by
  cases c <;> simp_all [receive, rxPop, headerReceive, received, writeFrame, rd, frame, setFrame, setRd, setFrameValid]

theorem receive_pay_more (hp : (rd c s).ph = .pay) (hl : (rd c s).idx.toNat + 1 ≠ s.params.frameLen) :
    receive c s = some (.more,
      received c (Memory.write (frame c s) (rd c s).idx.toNat b) { ph := .pay, idx := (rd c s).idx + 1#5 } q s) := by
  cases c <;> simp_all [receive, rxPop, payloadReceive, received, writeFrame, rd, frame, setFrame, setRd]

theorem receive_pay_last (hp : (rd c s).ph = .pay) (hl : (rd c s).idx.toNat + 1 = s.params.frameLen) :
    receive c s = some (.ok, setFrameValid c true
      (received c (Memory.write (frame c s) (rd c s).idx.toNat b) { ph := .none, idx := 0#5 } q s)) := by
  cases c <;> simp_all [receive, rxPop, payloadReceive, received, writeFrame, rd, frame, setFrame, setRd, setFrameValid]

end Equations

/-! ## A whole frame -/

/-- Context c is the running context and in READ. -/
def reading (c : Ctx) (s : State) : Prop :=
  match c with
  | .host => s.swState = .idle ∧ s.busy = true ∧ s.hostPhase = .read
  | .sw => s.swState = .read

theorem reading_received {c : Ctx} {s : State} (m : Memory) (r : Rd) (q : List Byte) (h : reading c s) :
    reading c (received c m r q s) := by cases c <;> exact h

/-- A receive that goes on is the whole turn of FG. -/
theorem fgStep_more {c : Ctx} {s t : State} (h : reading c s) (hr : receive c s = some (.more, t)) :
    fgStep s = .next t := by
  cases c with
  | host => obtain ⟨h1, h2, h3⟩ := h; rw [fgStep_hostRead h1 h2 h3, hostRead, hr]
  | sw => rw [fgStep_swRead h, swRead, hr]

/-- A host receive that fails completes the command (R126, R127). -/
theorem fgStep_hostMismatch {s t : State} (h : reading .host s) (hr : receive .host s = some (.hdrMismatch, t)) :
    fgStep s = .next (completeFail errHdrMismatch t) := by
  rw [fgStep_hostRead h.1 h.2.1 h.2.2, hostRead, hr]

/-- RDFRAME's last receive (R126). -/
theorem fgStep_hostFrame {s t : State} (h : reading .host s) (hr : receive .host s = some (.ok, t))
    (ho : s.cmd.op = opRdframe) : fgStep s = .next (completeOk 0x0000#16 t) := by
  have hc : t.cmd = s.cmd := by obtain ⟨m, r, q, v, rfl⟩ := receive_frame hr; rfl
  rw [fgStep_hostRead h.1 h.2.1 h.2.2, hostRead, hr]
  simp only [hc, ho, if_true]

/-- MEASURE's last receive (R127). -/
theorem fgStep_hostMeasured {s t : State} (h : reading .host s) (hr : receive .host s = some (.ok, t))
    (ho : s.cmd.op = opMeasure) : fgStep s = .next { t with hostPhase := .extract } := by
  have hc : t.cmd = s.cmd := by obtain ⟨m, r, q, v, rfl⟩ := receive_frame hr; rfl
  have hne : ¬ opMeasure = opRdframe := by decide
  rw [fgStep_hostRead h.1 h.2.1 h.2.2, hostRead, hr]
  simp only [hc, ho, hne, if_true, if_false]

/-- A handler receive that fails enters RELEASE (R164). -/
theorem fgStep_swMismatch {s t : State} (h : reading .sw s) (hr : receive .sw s = some (.hdrMismatch, t)) :
    fgStep s = .next (enterRelease t) := by
  rw [fgStep_swRead h, swRead, hr]

/-- The handler's last receive (R164). -/
theorem fgStep_swFrame {s t : State} (h : reading .sw s) (hr : receive .sw s = some (.ok, t)) :
    fgStep s = .next { t with swState := .extract } := by
  rw [fgStep_swRead h, swRead, hr]

/-- The field of a frame whose two bytes are there (R124). -/
theorem extractField_of_read {c : Ctx} {m : ModeBits} {s : State} {off : Nat} {hi lo : Byte}
    (h : fieldOffset s.params m = some off) (h1 : Memory.read (frame c s) off = some hi)
    (h2 : Memory.read (frame c s) (off + 1) = some lo) : extractField c m s = .value (bigEndian hi lo) := by
  simp [extractField, h, Memory.read16, h1, h2]

/-- The field's value (R61). -/
theorem bigEndian_toNat (hi lo : Byte) : (bigEndian hi lo).toNat = hi.toNat * 256 + lo.toNat := by
  have := hi.isLt
  have := lo.isLt
  simp only [bigEndian, BitVec.toNat_ofNat]
  omega

/-- The limits R6 sets on the parameters. -/
theorem params_wf_cases {p : Params} (h : p.wf = true) :
    3 ≤ p.frameLen ∧ p.frameLen ≤ 32 ∧ p.offPm1_0 + 1 < p.frameLen ∧ p.offPm2_5 + 1 < p.frameLen
      ∧ p.offPm10 + 1 < p.frameLen ∧ 1 ≤ p.rxFifoDepth := by
  simp only [Params.wf, Bool.and_eq_true, decide_eq_true_eq] at h
  obtain ⟨⟨⟨⟨⟨⟨⟨⟨⟨⟨h1, h2⟩, h3⟩, h4⟩, h5⟩, h6⟩, -⟩, -⟩, -⟩, -⟩, -⟩ := h
  exact ⟨h1, h2, h3, h4, h5, h6⟩

/-- What the model asks of the counts of modes and digits and of the release poll period (log 11, 14). -/
theorem params_wf_counts {p : Params} (h : p.wf = true) :
    p.resetMode.val < p.numModes ∧ p.numModes ≤ 3 ∧ p.numDigits = 4 ∧ 1 ≤ p.releasePollMs := by
  simp only [Params.wf, Bool.and_eq_true, decide_eq_true_eq] at h
  obtain ⟨⟨⟨⟨⟨-, h1⟩, h2⟩, h3⟩, h4⟩, -⟩ := h
  exact ⟨h1, h2, h3, h4⟩

/-- Every field lies inside the frame. -/
theorem fieldOffset_lt {p : Params} (h : p.wf = true) {m : ModeBits} {off : Nat} (ho : fieldOffset p m = some off) :
    off + 1 < p.frameLen := by
  have := params_wf_cases h
  unfold fieldOffset at ho
  split_ifs at ho <;> (injection ho with ho; omega)

/-- Payload bytes short of the frame's last are stored in order from IDX on. -/
theorem payload_run {c : Ctx} (bs rest : List Byte) {s : State} (h : reading c s) (hp : (rd c s).ph = .pay)
    (hq : s.rxq = bs ++ rest) (hl : (rd c s).idx.toNat + bs.length < s.params.frameLen) (hf : s.params.frameLen ≤ 32) :
    ∃ m, fgRun bs.length s
        = .next (received c m { ph := .pay, idx := BitVec.ofNat 5 ((rd c s).idx.toNat + bs.length) } rest s)
      ∧ ∀ k, Memory.read m k =
          if (rd c s).idx.toNat ≤ k ∧ k < (rd c s).idx.toNat + bs.length then bs[k - (rd c s).idx.toNat]?
          else Memory.read (frame c s) k := by
  induction bs generalizing s with
  | nil =>
    refine ⟨frame c s, ?_, fun k => ?_⟩
    · have hi : BitVec.ofNat 5 (rd c s).idx.toNat = (rd c s).idx := by simp
      simp only [List.length_nil, fgRun_zero, Nat.add_zero, hi]
      rw [List.nil_append] at hq
      rw [← hq, ← hp, received_self]
    · rw [if_neg (by simp only [List.length_nil]; omega)]
  | cons b bs ih =>
    simp only [List.length_cons] at hl
    have hm := receive_pay_more (c := c) (b := b) (q := bs ++ rest) (by rw [hq, List.cons_append]) hp (by omega)
    have hstep := fgStep_more h hm
    set u := received c (Memory.write (frame c s) (rd c s).idx.toNat b) { ph := .pay, idx := (rd c s).idx + 1#5 }
      (bs ++ rest) s with hu
    have hidx : (rd c u).idx.toNat = (rd c s).idx.toNat + 1 := by
      rw [hu, rd_received]
      simp only [BitVec.toNat_add, BitVec.toNat_ofNat]
      omega
    obtain ⟨m, hrun, hread⟩ := ih (s := u) (reading_received _ _ _ h) (by rw [hu, rd_received]) (by rw [hu, rxq_received])
      (by rw [hidx, hu, params_received]; omega) (by rw [hu, params_received]; exact hf)
    refine ⟨m, ?_, fun k => ?_⟩
    · rw [List.length_cons, fgRun_succ hstep, hrun, hidx, hu, received_received,
        show (rd c s).idx.toNat + 1 + bs.length = (rd c s).idx.toNat + (bs.length + 1) by omega]
    · rw [hread k, hidx, hu, frame_received, read_write]
      simp only [List.length_cons]
      by_cases h1 : k = (rd c s).idx.toNat
      · subst h1
        simp
      · by_cases h2 : (rd c s).idx.toNat + 1 ≤ k ∧ k < (rd c s).idx.toNat + 1 + bs.length
        · rw [if_pos h2, if_pos (by omega)]
          obtain ⟨j, hj⟩ : ∃ j, k - (rd c s).idx.toNat = j + 1 := ⟨k - (rd c s).idx.toNat - 1, by omega⟩
          rw [hj, List.getElem?_cons_succ]
          congr 1
          omega
        · rw [if_neg h2, if_neg h1, if_neg (by omega)]

/-- A frame with a good header, from the reception's start: every byte but the last has been taken and stored, and the last
receive answers OK, with the whole frame stored in arrival order. -/
theorem reception_run {c : Ctx} {s : State} (bytes rest : List Byte) (h : reading c s)
    (hrd : rd c s = { ph := .h0, idx := 0#5 }) (hq : s.rxq = bytes ++ rest) (hlen : bytes.length = s.params.frameLen)
    (hf3 : 3 ≤ s.params.frameLen) (hf32 : s.params.frameLen ≤ 32)
    (h0 : bytes[0]? = some s.params.hdr0) (h1 : bytes[1]? = some s.params.hdr1) :
    ∃ t m, fgRun (s.params.frameLen - 1) s = .next t ∧ reading c t
      ∧ receive c t = some (.ok, setFrameValid c true (received c m { ph := .none, idx := 0#5 } rest s))
      ∧ (∀ k, k < s.params.frameLen → Memory.read m k = bytes[k]?)
      ∧ ∀ k, s.params.frameLen ≤ k → Memory.read m k = Memory.read (frame c s) k := by
  match bytes, hlen, h0, h1, hq with
  | b0 :: b1 :: tl, hlen, h0, h1, hq =>
    simp only [List.getElem?_cons_zero, List.getElem?_cons_succ, Option.some.injEq] at h0 h1
    simp only [List.length_cons] at hlen
    obtain ⟨init, last, rfl⟩ : ∃ init last, tl = init ++ [last] :=
      ⟨tl.dropLast, tl.getLast (by rintro rfl; simp at hlen; omega), (List.dropLast_append_getLast _).symm⟩
    simp only [List.length_append, List.length_singleton] at hlen
    have e1 := fgStep_more h (receive_h0_good (c := c) (b := b0) (q := b1 :: (init ++ [last]) ++ rest)
      (by rw [hq, List.cons_append]) (by rw [hrd]) h0)
    set s1 := received c (Memory.write (frame c s) 0 b0) { ph := .h1, idx := 0#5 } (b1 :: (init ++ [last]) ++ rest) s with hs1
    have r1 : reading c s1 := reading_received _ _ _ h
    have e2 := fgStep_more r1 (receive_h1_good (c := c) (b := b1) (q := init ++ [last] ++ rest)
      (by rw [hs1, rxq_received]; rfl) (by rw [hs1, rd_received]) (by rw [hs1, params_received]; exact h1))
    rw [hs1, frame_received, received_received, ← hs1] at e2
    set s2 := received c (Memory.write (Memory.write (frame c s) 0 b0) 1 b1) { ph := .pay, idx := 2#5 }
      (init ++ [last] ++ rest) s with hs2
    have r2 : reading c s2 := reading_received _ _ _ h
    have i2 : (rd c s2).idx.toNat = 2 := by rw [hs2, rd_received]; rfl
    obtain ⟨m, hrun, hread⟩ := payload_run (c := c) init (last :: rest) (s := s2) r2 (by rw [hs2, rd_received])
      (by rw [hs2, rxq_received]; simp) (by rw [i2, hs2, params_received]; omega) (by rw [hs2, params_received]; exact hf32)
    rw [i2, hs2, received_received, ← hs2] at hrun
    set t := received c m { ph := .pay, idx := BitVec.ofNat 5 (2 + init.length) } (last :: rest) s with ht
    have it : (rd c t).idx.toNat = 2 + init.length := by
      rw [ht, rd_received, BitVec.toNat_ofNat]; omega
    refine ⟨t, Memory.write m (2 + init.length) last, ?_, reading_received _ _ _ h, ?_, ?_, ?_⟩
    · have : s.params.frameLen - 1 = init.length + 1 + 1 := by omega
      rw [this, fgRun_succ e1, fgRun_succ e2, hrun]
    · have := receive_pay_last (c := c) (s := t) (b := last) (q := rest) (by rw [ht, rxq_received]) (by rw [ht, rd_received])
        (by rw [it, ht, params_received]; omega)
      rw [this, it, ht, frame_received, received_received]
    · intro k hk
      rw [read_write, hread k, i2, hs2, frame_received, read_write, read_write]
      match k, hk with
      | 0, _ => simp; omega
      | 1, _ => simp; omega
      | k + 2, hk =>
        simp only [List.getElem?_cons_succ]
        by_cases hlast : k = init.length
        · rw [if_pos (by omega), hlast]; simp
        · have hki : k < init.length := by omega
          rw [if_neg (by omega), if_pos (by omega), List.getElem?_append_left hki]
          simp
    · intro k hk
      rw [read_write, hread k, i2, hs2, frame_received, read_write, read_write, if_neg (by omega), if_neg (by omega),
        if_neg (by omega), if_neg (by omega)]
  | [], hlen, _, _, _ => simp at hlen; omega
  | [_], hlen, _, _, _ => simp at hlen; omega

end Sys2Proof.Machine
end

