-- ==== Sys2Proof/Laws/Inversion.lean ====
section
/-! SUPPORT. Everything a turn of FG can do, said once: `FgMove s t` has one constructor for each micro-step of R92, with the
condition it is taken under, and `fgStep_cases` says that a turn that answers t is one of them. Every claim about all FG turns
starts from it, and from `receive_cases`, `putDigit_cases` and `handlerExit_cases`, and unfolds no step. -/

namespace Sys2Proof.Machine

/-- A digit write that happens writes one element, the one DIGIT_WRITE_ORDER names (R141). -/
theorem putDigit_cases {k : BitVec 3} {v : Half} {s t : State} (h : putDigit k v s = some t) :
    ∃ i, s.params.digitWriteOrder[k.toNat]? = some i
      ∧ t = { s with digits := Digits.set s.digits i (digitOf (saturate s.params v) i) } := by
  unfold putDigit at h
  split at h
  · simp at h
  · next i hi => exact ⟨i, hi, by simpa using h.symm⟩

/-- A digit write with fewer than four done always happens. -/
theorem putDigit_of_lt {k : BitVec 3} (v : Half) (s : State) (h : k.toNat < 4) :
    putDigit k v s = some { s with
      digits := Digits.set s.digits s.params.digitWriteOrder[k.toNat]
        (digitOf (saturate s.params v) s.params.digitWriteOrder[k.toNat]) } := by
  simp [putDigit, h]

/-- With the four digits of R6 a SETDIG is over after its fourth write (R141). -/
theorem writesDone_iff {p : Params} (h : p.numDigits = 4) (k : BitVec 3) : writesDone p k = true ↔ k = 4#3 := by
  simp only [writesDone, h, beq_iff_eq]
  exact ⟨fun e => BitVec.eq_of_toNat_eq e, fun e => by rw [e]; rfl⟩

/-- The handler's exit: to IDLE, or on a latched edge into a new handler (R167). -/
theorem handlerExit_cases (s : State) :
    (s.swPending = false ∧ handlerExit s = { s with swState := .idle })
    ∨ (s.swPending = true
      ∧ handlerExit s = { s with swPending := false, swState := .debounce, swCnt := s.params.debounceMs }) := by
  unfold handlerExit
  cases h : s.swPending <;> simp [handlerEntry]

/-- The host is the running context, with a command in progress in phase p. -/
def hostIn (p : HostPhase) (s : State) : Prop := s.swState = .idle ∧ s.busy = true ∧ s.hostPhase = p

/-- A receive that does not happen was not enabled (R23, R112). -/
theorem receiveEnabled_of_none {c : Ctx} {s : State} (h : receive c s = none) : receiveEnabled c s = false := by
  unfold receive rxPop at h
  unfold receiveEnabled
  cases hp : (rd c s).ph <;> cases hq : s.rxq <;> simp_all

/-- What a turn of FG does. -/
inductive FgMove (s : State) : State → Prop
  /-- No micro-step is enabled (R23). -/
  | stay (he : fgEnabled s = false) : FgMove s s
  /-- A command that has nothing to write but its result completes. -/
  | complete {ok : Bool} {v : Half} {e : BitVec 3}
      (hp : hostIn .start s ∨ hostIn .extract s ∨ (hostIn .toneWait s ∧ s.toneActive = false)
        ∨ (hostIn .count s ∧ s.hostCnt = 0#16))
      (hform : if ok then e = errNone else v = 0x0000#16) (he : e.toNat ≤ 4) : FgMove s (complete ok v e s)
  /-- RDFRAME or MEASURE starts its reception. -/
  | startRead (hp : hostIn .start s) (hop : s.cmd.op = opRdframe ∨ s.cmd.op = opMeasure) : FgMove s (startHostRead s)
  /-- SETDIG starts. -/
  | startWrite (hp : hostIn .start s) (hop : s.cmd.op = 0x4#4) : FgMove s { s with hostK := 0#3, hostPhase := .write }
  /-- ALARMCHK fires, or BEEP starts. -/
  | startTone (hp : hostIn .start s) (hop : s.cmd.op = opAlarmchk ∨ s.cmd.op = 0x6#4) : FgMove s (toneAndWait s)
  /-- WAITMS starts to count. -/
  | startCount (hp : hostIn .start s) (hop : s.cmd.op = 0x7#4) (hn : s.hostVal ≠ 0#16) :
      FgMove s { s with hostCnt := s.hostVal, hostPhase := .count }
  /-- A host receive that goes on. -/
  | hostMore {t : State} (hp : hostIn .read s) (hr : receive .host s = some (.more, t)) : FgMove s t
  /-- A host receive that fails. -/
  | hostMismatch {t : State} (hp : hostIn .read s) (hr : receive .host s = some (.hdrMismatch, t)) :
      FgMove s (completeFail errHdrMismatch t)
  /-- RDFRAME's last receive. -/
  | hostFrame {t : State} (hp : hostIn .read s) (hop : s.cmd.op = opRdframe) (hr : receive .host s = some (.ok, t)) :
      FgMove s (completeOk 0x0000#16 t)
  /-- MEASURE's last receive. -/
  | hostMeasured {t : State} (hp : hostIn .read s) (hop : s.cmd.op = opMeasure) (hr : receive .host s = some (.ok, t)) :
      FgMove s { t with hostPhase := .extract }
  /-- A host digit write before the last. -/
  | hostDigit {t : State} (hp : hostIn .write s) (hk : writesDone s.params (s.hostK + 1#3) = false)
      (hd : putDigit s.hostK s.hostVal s = some t) : FgMove s { t with hostK := s.hostK + 1#3 }
  /-- The host's last digit write. -/
  | hostLastDigit {t : State} (hp : hostIn .write s) (hk : writesDone s.params (s.hostK + 1#3) = true)
      (hd : putDigit s.hostK s.hostVal s = some t) :
      FgMove s (completeOk (saturated s.params s.hostVal) { t with hostK := s.hostK + 1#3 })
  /-- The debounce sample finds the line released. -/
  | debounceAbort (hsw : s.swState = .debounce) (hc : s.swCnt = 0) (hb : s.btnLine = true) : FgMove s (handlerExit s)
  /-- The debounce sample finds the line pressed. -/
  | debouncePress (hsw : s.swState = .debounce) (hc : s.swCnt = 0) (hb : s.btnLine = false) :
      FgMove s { s with swState := .actMode }
  /-- The mode advance. -/
  | advance {ind : BitVec 3} (hsw : s.swState = .actMode) (hm : s.mode ≠ 3#2) (hi : indicator (nextMode s.params s.mode) = some ind) :
      FgMove s { startRx .sw { s with mode := nextMode s.params s.mode, indOut := ind } with swState := .read }
  /-- A handler receive that goes on. -/
  | swMore {t : State} (hsw : s.swState = .read) (hr : receive .sw s = some (.more, t)) : FgMove s t
  /-- A handler receive that fails. -/
  | swMismatch {t : State} (hsw : s.swState = .read) (hr : receive .sw s = some (.hdrMismatch, t)) :
      FgMove s (enterRelease t)
  /-- The handler's last receive. -/
  | swFrame {t : State} (hsw : s.swState = .read) (hr : receive .sw s = some (.ok, t)) :
      FgMove s { t with swState := .extract }
  /-- The handler's extraction. -/
  | swValue {v : Half} (hsw : s.swState = .extract) (hx : extractField .sw s.mode s = .value v) :
      FgMove s { s with swVal := v, swK := 0#3, swState := .write }
  /-- A handler digit write before the last. -/
  | swDigit {t : State} (hsw : s.swState = .write) (hk : writesDone s.params (s.swK + 1#3) = false)
      (hd : putDigit s.swK s.swVal s = some t) :
      FgMove s { t with swK := s.swK + 1#3 }
  /-- The handler's last digit write. -/
  | swLastDigit {t : State} (hsw : s.swState = .write) (hk : writesDone s.params (s.swK + 1#3) = true)
      (hd : putDigit s.swK s.swVal s = some t) :
      FgMove s (enterRelease { t with swK := s.swK + 1#3 })
  /-- The release sample finds the line pressed. -/
  | releaseWait (hsw : s.swState = .release) (hd : s.swDue = true) (hb : s.btnLine = false) :
      FgMove s { s with swDue := false }
  /-- The release sample finds the line released. -/
  | releaseExit (hsw : s.swState = .release) (hd : s.swDue = true) (hb : s.btnLine = true) :
      FgMove s (handlerExit { s with swDue := false })

theorem finishExtraction_cases {m : ModeBits} {s t : State} (h : finishExtraction m s = .next t) :
    ∃ ok v e, t = complete ok v e s ∧ (if ok then e = errNone else v = 0x0000#16) ∧ e.toNat ≤ 4 := by
  unfold finishExtraction at h
  split at h
  · injection h with h; exact ⟨true, _, _, h.symm, rfl, by decide⟩
  · injection h with h; exact ⟨false, _, _, h.symm, rfl, by decide⟩
  · simp at h

theorem extractHost_cases {m : ModeBits} {s t : State} (h : extractHost m s = .next t) :
    ∃ ok v e, t = complete ok v e s ∧ (if ok then e = errNone else v = 0x0000#16) ∧ e.toNat ≤ 4 := by
  unfold extractHost at h
  split at h
  · injection h with h; exact ⟨false, _, _, h.symm, rfl, by decide⟩
  · exact finishExtraction_cases h

/-- A START micro-step (R219). -/
theorem exec_cases {s t : State} (hp : hostIn .start s) (h : exec (decode s.cmd) s = .next t) : FgMove s t := by
  have hop := fun o => @op_of_decode s.cmd o
  cases hd : decode s.cmd with
  | nop => rw [hd] at h; injection h with h; subst h; exact .complete (.inl hp) rfl (by decide)
  | illegal w => rw [hd] at h; injection h with h; subst h; exact .complete (.inl hp) rfl (by decide)
  | rdframe =>
    rw [hd] at h hop; injection h with h; subst h; exact .startRead hp (.inl (hop _ rfl))
  | measure m => rw [hd] at h hop; injection h with h; subst h; exact .startRead hp (.inr (hop _ rfl))
  | measureCur => rw [hd] at h hop; injection h with h; subst h; exact .startRead hp (.inr (hop _ rfl))
  | extract m =>
    rw [hd] at h
    obtain ⟨ok, v, e, rfl, hf, he⟩ := extractHost_cases h
    exact .complete (.inl hp) hf he
  | extractCur =>
    rw [hd] at h
    simp only [exec, execExtractCur] at h
    split at h
    · simp at h
    · obtain ⟨ok, v, e, rfl, hf, he⟩ := extractHost_cases h
      exact .complete (.inl hp) hf he
  | setdig v => rw [hd] at h hop; injection h with h; subst h; exact .startWrite hp (hop _ rfl)
  | alarmchk v =>
    rw [hd] at h hop
    simp only [exec, execAlarmchk] at h
    split at h <;> (injection h with h; subst h)
    · exact .startTone hp (.inl (hop _ rfl))
    · exact .complete (.inl hp) rfl (by decide)
  | beep => rw [hd] at h hop; injection h with h; subst h; exact .startTone hp (.inr (hop _ rfl))
  | waitms n =>
    rw [hd] at h hop
    simp only [exec, execWaitms] at h
    split at h <;> (injection h with h; subst h)
    · exact .complete (.inl hp) rfl (by decide)
    · next hn => exact .startCount hp (hop _ rfl) hn

/-- A turn of FG while the host runs. -/
theorem host_cases {s t : State} (hsw : s.swState = .idle) (h : fgStep s = .next t) : FgMove s t := by
  cases hb : s.busy with
  | false =>
    rw [fgStep_quiescent hsw hb] at h; injection h with h; subst h
    exact .stay (by simp [fgEnabled, runningContext, hsw, hb])
  | true =>
    cases hp : s.hostPhase with
    | idle =>
      rw [fgStep_busyIdle hsw hb hp] at h; injection h with h; subst h
      exact .stay (by simp [fgEnabled, runningContext, hsw, hb, hostEnabled, hp])
    | start => rw [fgStep_start hsw hb hp] at h; exact exec_cases ⟨hsw, hb, hp⟩ h
    | read =>
      rw [fgStep_hostRead hsw hb hp] at h
      unfold hostRead at h
      split at h
      · next hr =>
        injection h with h; subst h
        exact .stay (by simp [fgEnabled, runningContext, hsw, hb, hostEnabled, hp, receiveEnabled_of_none hr])
      · next hr => injection h with h; subst h; exact .hostMore ⟨hsw, hb, hp⟩ hr
      · next hr => injection h with h; subst h; exact .hostMismatch ⟨hsw, hb, hp⟩ hr
      · next u hr =>
        have hc : u.cmd = s.cmd := by
          obtain ⟨m, r, q, v, rfl⟩ := receive_frame hr
          rfl
        split_ifs at h with h1 h2
        · injection h with h; subst h; exact .hostFrame ⟨hsw, hb, hp⟩ (hc ▸ h1) hr
        · injection h with h; subst h; exact .hostMeasured ⟨hsw, hb, hp⟩ (hc ▸ h2) hr
    | extract =>
      rw [fgStep_hostExtract hsw hb hp] at h
      have hx : ∃ m, finishExtraction m s = .next t := by
        unfold hostExtract at h
        split at h
        · split at h
          · simp at h
          · exact ⟨_, h⟩
        · exact ⟨_, h⟩
      obtain ⟨m, hx⟩ := hx
      obtain ⟨ok, v, e, rfl, hf, he⟩ := finishExtraction_cases hx
      exact .complete (.inr (.inl ⟨hsw, hb, hp⟩)) hf he
    | write =>
      rw [fgStep_hostWrite hsw hb hp] at h
      unfold hostWrite at h
      split at h
      · simp at h
      · next u hu =>
        simp only at h
        split at h <;> (injection h with h; subst h)
        · next hk => exact .hostLastDigit ⟨hsw, hb, hp⟩ hk hu
        · next hk => exact .hostDigit ⟨hsw, hb, hp⟩ (by simpa using hk) hu
    | toneWait =>
      rw [fgStep_toneWait hsw hb hp] at h
      split at h <;> (injection h with h; subst h)
      · next ha => exact .stay (by simp [fgEnabled, runningContext, hsw, hb, hostEnabled, hp, ha])
      · next ha => exact .complete (.inr (.inr (.inl ⟨⟨hsw, hb, hp⟩, by simpa using ha⟩))) rfl (by decide)
    | count =>
      rw [fgStep_count hsw hb hp] at h
      split at h <;> (injection h with h; subst h)
      · next hc => exact .complete (.inr (.inr (.inr ⟨⟨hsw, hb, hp⟩, hc⟩))) rfl (by decide)
      · next hc => exact .stay (by simp [fgEnabled, runningContext, hsw, hb, hostEnabled, hp, hc])
    | reserved => rw [fgStep_hostReserved hsw hb hp] at h; simp at h

/-- A turn of FG that answers a state is one of the moves of `FgMove`. -/
theorem fgStep_cases {s t : State} (h : fgStep s = .next t) : FgMove s t := by
  cases hs : s.swState with
  | idle => exact host_cases hs h
  | debounce =>
    rw [fgStep_debounce hs] at h
    split at h <;> (injection h with h; subst h)
    · next hc =>
      unfold debounceSample
      split
      · next hb => exact .debounceAbort hs hc hb
      · next hb => exact .debouncePress hs hc (by simpa using hb)
    · next hc => exact .stay (by simp [fgEnabled, runningContext, swEnabled, hs, hc])
  | actMode =>
    rw [fgStep_actMode hs] at h
    unfold modeAdvance at h
    split at h
    · next m ind hm hi =>
      injection h with h; subst h
      have hne : s.mode ≠ 3#2 := by intro h3; simp [currentMode, h3] at hm
      simp only [currentMode, hne, if_false, Option.some.injEq] at hm
      subst hm
      exact .advance hs hne hi
    · simp at h
  | read =>
    rw [fgStep_swRead hs] at h
    unfold swRead at h
    split at h
    · next hr =>
      injection h with h; subst h
      exact .stay (by simp [fgEnabled, runningContext, swEnabled, hs, receiveEnabled_of_none hr])
    · next hr => injection h with h; subst h; exact .swMore hs hr
    · next hr => injection h with h; subst h; exact .swFrame hs hr
    · next hr => injection h with h; subst h; exact .swMismatch hs hr
  | extract =>
    rw [fgStep_swExtract hs] at h
    unfold swExtract at h
    split at h
    · next hx => injection h with h; subst h; exact .swValue hs hx
    · simp at h
    · simp at h
  | write =>
    rw [fgStep_swWrite hs] at h
    unfold swWrite at h
    split at h
    · simp at h
    · next u hu =>
      simp only at h
      split at h <;> (injection h with h; subst h)
      · next hk => exact .swLastDigit hs hk hu
      · next hk => exact .swDigit hs (by simpa using hk) hu
  | release =>
    rw [fgStep_release hs] at h
    split at h <;> (injection h with h; subst h)
    · next hd =>
      unfold releaseSample
      simp only
      split
      · next hb => exact .releaseExit hs hd hb
      · next hb => exact .releaseWait hs hd (by simpa using hb)
    · next hd => exact .stay (by simpa [fgEnabled, runningContext, swEnabled, hs] using hd)
  | reserved => rw [fgStep_swReserved hs] at h; simp at h

end Sys2Proof.Machine
end

