-- ==== Sys2Proof/Laws/Display.lean ====
section
/-! SUPPORT. The laws of the digit writes (R141): a read of DIGITS after a write, n writes in either context as one equation, and
what they leave at each position of DIGIT_WRITE_ORDER. -/

namespace Sys2Proof.Machine

/-- A read of DIGITS after a write of one element. -/
theorem digits_get_set (d : Digits) (i j : Fin 4) (v : BitVec 4) :
    Digits.get (Digits.set d i v) j = if j = i then v else Digits.get d j := by
  match i, j with
  | 0, 0 | 0, 1 | 0, 2 | 0, 3 | 1, 0 | 1, 1 | 1, 2 | 1, 3 | 2, 0 | 2, 1 | 2, 2 | 2, 3 | 3, 0 | 3, 1 | 3, 2 | 3, 3 => rfl

/-- DIGITS are told by their elements. -/
theorem digits_ext {d e : Digits} (h : ∀ i, Digits.get d i = Digits.get e i) : d = e := by
  obtain ⟨a, b, c, f⟩ := d
  obtain ⟨a', b', c', f'⟩ := e
  have h0 := h 0
  have h1 := h 1
  have h2 := h 2
  have h3 := h 3
  simp only [Digits.get] at h0 h1 h2 h3
  subst h0 h1 h2 h3
  rfl

theorem digitsOf_get (v : Nat) (i : Fin 4) : Digits.get (digitsOf v) i = digitOf v i := by
  match i with
  | 0 | 1 | 2 | 3 => rfl

/-- DIGITS after n writes of v, from position k of DIGIT_WRITE_ORDER on. -/
def writeDigits (p : Params) (v : Half) (k n : Nat) (d : Digits) : Digits :=
  match n with
  | 0 => d
  | n + 1 =>
    writeDigits p v (k + 1) n
      (if h : k < 4 then Digits.set d p.digitWriteOrder[k] (digitOf (saturate p v) p.digitWriteOrder[k]) else d)

/-- The write order visits each digit once (D15). -/
theorem order_injective {p : Params} (h : p.wf = true) {i j : Fin 4} (e : p.digitWriteOrder[i] = p.digitWriteOrder[j]) :
    i = j := by
  simp only [Params.wf, Bool.and_eq_true, decide_eq_true_eq] at h
  have := h.2
  rw [List.nodup_iff_injective_get] at this
  have hi : i.val < p.digitWriteOrder.toList.length := by simp
  have hj : j.val < p.digitWriteOrder.toList.length := by simp
  have key := @this ⟨i.val, hi⟩ ⟨j.val, hj⟩ (by simpa using e)
  exact Fin.ext (by simpa using key)

/-- The write order visits every digit (D15). -/
theorem order_surjective {p : Params} (h : p.wf = true) (i : Fin 4) : ∃ j : Fin 4, p.digitWriteOrder[j] = i := by
  have hinj : Function.Injective fun j : Fin 4 => p.digitWriteOrder[j] := fun _ _ e => order_injective h e
  exact (Finite.injective_iff_surjective.mp hinj) i

/-- Each position of the order after n writes from k on: the new digit inside the range, the old one outside. -/
theorem writeDigits_get {p : Params} (h : p.wf = true) (v : Half) (n : Nat) {k : Nat} (d : Digits) (j : Fin 4) (hk : k + n ≤ 4) :
    Digits.get (writeDigits p v k n d) p.digitWriteOrder[j] =
      if k ≤ j.val ∧ j.val < k + n then digitOf (saturate p v) p.digitWriteOrder[j]
      else Digits.get d p.digitWriteOrder[j] := by
  induction n generalizing k d with
  | zero => rw [if_neg (by omega)]; rfl
  | succ n ih =>
    have hk4 : k < 4 := by omega
    rw [writeDigits, ih _ (by omega), dif_pos hk4, digits_get_set]
    by_cases hj : j.val = k
    · obtain rfl : j = ⟨k, hk4⟩ := Fin.ext hj
      rw [if_neg (by simp), if_pos (by simp), if_pos (by simp)]
      rfl
    · have hne : p.digitWriteOrder[j] ≠ p.digitWriteOrder[k] := by
        intro e
        have := order_injective h (i := j) (j := ⟨k, hk4⟩) e
        exact hj (by rw [this])
      rw [if_neg hne]
      by_cases h2 : k + 1 ≤ j.val ∧ j.val < k + 1 + n
      · rw [if_pos h2, if_pos (by omega)]
      · rw [if_neg h2, if_neg (by omega)]

/-- All four writes leave the decimal digits of the saturated value, whatever was there and in whichever order. -/
theorem writeDigits_all {p : Params} (h : p.wf = true) (v : Half) (d : Digits) :
    writeDigits p v 0 4 d = digitsOf (saturate p v) := by
  refine digits_ext fun i => ?_
  obtain ⟨j, rfl⟩ := order_surjective h i
  rw [writeDigits_get h v 4 d j (by omega), if_pos (by omega), digitsOf_get]

/-- One digit write, K below 4. -/
theorem putDigit_eq {k : Nat} (v : Half) (s : State) (h : k < 4) :
    putDigit (BitVec.ofNat 3 k) v s = some { s with digits := writeDigits s.params v k 1 s.digits } := by
  have hk : (BitVec.ofNat 3 k).toNat = k := by rw [BitVec.toNat_ofNat]; omega
  rw [putDigit_of_lt v s (by omega)]
  simp only [writeDigits, h, dif_pos, hk]

theorem succ_ofNat (k : Nat) : BitVec.ofNat 3 k + 1#3 = BitVec.ofNat 3 (k + 1) := by
  rw [BitVec.ofNat_add]

theorem ofNat_eq_four {k : Nat} (h : k < 5) : BitVec.ofNat 3 k = 4#3 ↔ k = 4 := by
  constructor
  · intro e
    have := congrArg BitVec.toNat e
    simp only [BitVec.toNat_ofNat] at this
    omega
  · rintro rfl; rfl

/-- Writes compose. -/
theorem writeDigits_succ (p : Params) (v : Half) (n : Nat) (k : Nat) (d : Digits) :
    writeDigits p v k (n + 1) d = writeDigits p v (k + n) 1 (writeDigits p v k n d) := by
  induction n generalizing k d with
  | zero => rfl
  | succ n ih =>
    rw [writeDigits, ih, show k + 1 + n = k + (n + 1) by omega]
    rfl

/-- A digit write of the host before the last. -/
theorem hostK_more {k : Nat} {s : State} (h4 : s.params.numDigits = 4) (h : hostIn .write s) (hk : s.hostK = BitVec.ofNat 3 k) (h3 : k < 3) :
    fgStep s = .next { s with
      digits := writeDigits s.params s.hostVal k 1 s.digits, hostK := BitVec.ofNat 3 (k + 1) } := by
  have hne : ¬ BitVec.ofNat 3 (k + 1) = 4#3 := by rw [ofNat_eq_four (by omega)]; omega
  rw [fgStep_hostWrite h.1 h.2.1 h.2.2, hostWrite, hk, putDigit_eq s.hostVal s (by omega)]
  simp only [succ_ofNat, writesDone_iff h4]
  rw [if_neg hne]

/-- The last digit write of the host. -/
theorem hostK_last {s : State} (h4 : s.params.numDigits = 4) (h : hostIn .write s) (hk : s.hostK = BitVec.ofNat 3 3) :
    fgStep s = .next (completeOk (saturated s.params s.hostVal) { s with
      digits := writeDigits s.params s.hostVal 3 1 s.digits, hostK := 4#3 }) := by
  rw [fgStep_hostWrite h.1 h.2.1 h.2.2, hostWrite, hk, putDigit_eq s.hostVal s (by omega)]
  simp only [succ_ofNat, writesDone_iff h4]
  rw [if_pos (by decide)]

/-- Digit writes of the host that do not reach the fourth. -/
theorem hostK_run (n : Nat) {k : Nat} {s : State} (hd : s.params.numDigits = 4) (h : hostIn .write s) (hk : s.hostK = BitVec.ofNat 3 k) (hn : k + n < 4) :
    fgRun n s = .next { s with
      digits := writeDigits s.params s.hostVal k n s.digits, hostK := BitVec.ofNat 3 (k + n) } := by
  induction n generalizing k s with
  | zero => simp [writeDigits, ← hk]
  | succ n ih =>
    rw [fgRun_succ (hostK_more hd h hk (by omega))]
    refine (ih (k := k + 1) ?_ ?_ rfl (by omega)).trans ?_
    · exact hd
    · exact h
    simp only [writeDigits, Nat.add_assoc, Nat.add_comm 1 n]

/-- The digit writes of the host from position k to the end. -/
theorem hostK_finish {k : Nat} {s : State} (hd : s.params.numDigits = 4) (h : hostIn .write s) (hk : s.hostK = BitVec.ofNat 3 k) (hk4 : k < 4) :
    fgRun (4 - k) s = .next (completeOk (saturated s.params s.hostVal) { s with
      digits := writeDigits s.params s.hostVal k (4 - k) s.digits, hostK := 4#3 }) := by
  have h4 : 4 - k = (3 - k) + 1 := by omega
  have h3 : k + (3 - k) = 3 := by omega
  rw [h4, fgRun_add (hostK_run (3 - k) hd h hk (by omega)), h3]
  refine (fgRun_succ (hostK_last ?_ ?_ rfl)).trans ?_
  · exact hd
  · exact h
  rw [fgRun_zero, writeDigits_succ s.params s.hostVal (3 - k) k s.digits, h3]

/-- A digit write of the handler before the last. -/
theorem swK_more {k : Nat} {s : State} (h4 : s.params.numDigits = 4) (h : s.swState = .write) (hk : s.swK = BitVec.ofNat 3 k) (h3 : k < 3) :
    fgStep s = .next { s with
      digits := writeDigits s.params s.swVal k 1 s.digits, swK := BitVec.ofNat 3 (k + 1) } := by
  have hne : ¬ BitVec.ofNat 3 (k + 1) = 4#3 := by rw [ofNat_eq_four (by omega)]; omega
  rw [fgStep_swWrite h, swWrite, hk, putDigit_eq s.swVal s (by omega)]
  simp only [succ_ofNat, writesDone_iff h4]
  rw [if_neg hne]

/-- The last digit write of the handler. -/
theorem swK_last {s : State} (h4 : s.params.numDigits = 4) (h : s.swState = .write) (hk : s.swK = BitVec.ofNat 3 3) :
    fgStep s = .next (enterRelease { s with
      digits := writeDigits s.params s.swVal 3 1 s.digits, swK := 4#3 }) := by
  rw [fgStep_swWrite h, swWrite, hk, putDigit_eq s.swVal s (by omega)]
  simp only [succ_ofNat, writesDone_iff h4]
  rw [if_pos (by decide)]

/-- Digit writes of the handler that do not reach the fourth. -/
theorem swK_run (n : Nat) {k : Nat} {s : State} (hd : s.params.numDigits = 4) (h : s.swState = .write) (hk : s.swK = BitVec.ofNat 3 k) (hn : k + n < 4) :
    fgRun n s = .next { s with
      digits := writeDigits s.params s.swVal k n s.digits, swK := BitVec.ofNat 3 (k + n) } := by
  induction n generalizing k s with
  | zero => simp [writeDigits, ← hk]
  | succ n ih =>
    rw [fgRun_succ (swK_more hd h hk (by omega))]
    refine (ih (k := k + 1) ?_ ?_ rfl (by omega)).trans ?_
    · exact hd
    · exact h
    simp only [writeDigits, Nat.add_assoc, Nat.add_comm 1 n]

/-- The digit writes of the handler from position k to the end. -/
theorem swK_finish {k : Nat} {s : State} (hd : s.params.numDigits = 4) (h : s.swState = .write) (hk : s.swK = BitVec.ofNat 3 k) (hk4 : k < 4) :
    fgRun (4 - k) s = .next (enterRelease { s with
      digits := writeDigits s.params s.swVal k (4 - k) s.digits, swK := 4#3 }) := by
  have h4 : 4 - k = (3 - k) + 1 := by omega
  have h3 : k + (3 - k) = 3 := by omega
  rw [h4, fgRun_add (swK_run (3 - k) hd h hk (by omega)), h3]
  refine (fgRun_succ (swK_last ?_ ?_ rfl)).trans ?_
  · exact hd
  · exact h
  rw [fgRun_zero, writeDigits_succ s.params s.swVal (3 - k) k s.digits, h3]

end Sys2Proof.Machine
end

