-- ==== Sys2Proof/Laws/Events.lean ====
section
/-! SUPPORT. The laws of the events: the states inside the rules, what a scan tick and an MS event do, and runs of TONE events. -/

namespace Sys2Proof.Machine

/-- The states inside the rules (R234), field by field. -/
theorem outsideRules_eq_none {s : State} : outsideRules s = none ↔
    s.hostPhase ≠ .reserved ∧ s.swState ≠ .reserved ∧ s.mode ≠ 3#2 ∧ s.status.toNat ≤ 4
      ∧ s.digits.d0 = 0#4 ∧ s.digits.d1.toNat ≤ 9 ∧ s.digits.d2.toNat ≤ 9 ∧ s.digits.d3.toNat ≤ 9 := by
  unfold outsideRules
  constructor
  · intro h
    split_ifs at h with h1 h2 h3 h4 h5 h6
    refine ⟨h1, h2, h3, by omega, by simpa using h6, by omega, by omega, by omega⟩
  · rintro ⟨h1, h2, h3, h4, h5, h6, h7, h8⟩
    have h9 : ¬ 4 < s.status.toNat := by omega
    have h10 : ¬ (9 < s.digits.d0.toNat ∨ 9 < s.digits.d1.toNat ∨ 9 < s.digits.d2.toNat ∨ 9 < s.digits.d3.toNat) := by
      rw [h5]; simp; omega
    rw [if_neg h1, if_neg h2, if_neg h3, if_neg h9, if_neg h10, if_neg (by simpa using h5)]

/-- SEGTAB is defined on 0..9 and nowhere else (R150). -/
theorem segCode_isSome {p : Params} {d : BitVec 4} : d.toNat ≤ 9 ↔ ∃ code, segCode p d = some code := by
  unfold segCode
  constructor
  · intro h
    exact ⟨p.segTab[d.toNat], by rw [Vector.getElem?_eq_getElem]⟩
  · rintro ⟨code, h⟩
    have : ¬ 10 ≤ d.toNat := fun hc => by rw [Vector.getElem?_eq_none hc] at h; simp at h
    omega

/-- With the four digits of R6, POS advances modulo 4 (R145, R148). -/
theorem nextPosition_val {p : Params} (h : p.numDigits = 4) (i : Fin 4) : (nextPosition p i).val = (i.val + 1) % 4 := by
  simp [nextPosition, h]

/-- A scan tick writes SEG_OUT and DSEL_OUT and advances POS (R145). -/
theorem scanTick_cases {s t : State} (h : scanTick s = some t) :
    ∃ seg sel, t = { s with segOut := seg, dselOut := sel, pos := nextPosition s.params s.pos }
      ∧ ((blankPosition s = true ∧ sel = 0#4 ∧ seg = 0#8)
        ∨ (blankPosition s = false ∧ sel = selectLine s.pos ∧ segCode s.params (Digits.get s.digits s.pos) = some seg)) := by
  unfold scanTick at h
  split at h
  · next hb => exact ⟨_, _, by simpa using h.symm, .inl ⟨hb, rfl, rfl⟩⟩
  · next hb =>
    split at h
    · simp at h
    · next code hc => exact ⟨code, _, by simpa using h.symm, .inr ⟨by simpa using hb, rfl, hc⟩⟩

/-- Inside the rules a scan tick always happens. -/
theorem scanTick_exists {s : State} (h : outsideRules s = none) : ∃ t, scanTick s = some t := by
  obtain ⟨-, -, -, -, h5, h6, h7, h8⟩ := outsideRules_eq_none.mp h
  have hd : (Digits.get s.digits s.pos).toNat ≤ 9 := by
    match s.pos with
    | 0 => simp [Digits.get, h5]
    | 1 => exact h6
    | 2 => exact h7
    | 3 => exact h8
  obtain ⟨code, hc⟩ := segCode_isSome (p := s.params).mp hd
  unfold scanTick
  split
  · exact ⟨_, rfl⟩
  · rw [hc]; exact ⟨_, rfl⟩

/-- An MS event inside the rules (R240): the registers it writes, and no other. -/
theorem msEvent_eq {s : State} (h : outsideRules s = none) :
    ∃ seg sel, eventStep .ms s = .next { s with
        segOut := seg, dselOut := sel, pos := nextPosition s.params s.pos, swCnt := debounceCount s, swDue := releaseDue s,
        swPoll := pollCount s, hostCnt := waitCount s }
      ∧ ((blankPosition s = true ∧ sel = 0#4 ∧ seg = 0#8)
        ∨ (blankPosition s = false ∧ sel = selectLine s.pos ∧ segCode s.params (Digits.get s.digits s.pos) = some seg)) := by
  obtain ⟨t, ht⟩ := scanTick_exists h
  obtain ⟨seg, sel, rfl, hs⟩ := scanTick_cases ht
  exact ⟨seg, sel, by simp [eventStep, msEvent, ht], hs⟩

/-- The states inside the rules are told by six registers: a step that leaves them leaves a state inside the rules. -/
theorem outsideRules_congr {s t : State} (h : outsideRules s = none) (h1 : t.hostPhase = s.hostPhase)
    (h2 : t.swState = s.swState) (h3 : t.mode = s.mode) (h4 : t.status = s.status) (h5 : t.digits = s.digits) :
    outsideRules t = none := by
  rw [outsideRules_eq_none] at h ⊢
  rw [h1, h2, h3, h4, h5]
  exact h

/-- Everything a button event does (R160). -/
theorem btnEvent_cases (l : Bool) (s : State) :
    (s.btnLine = true ∧ l = false ∧ s.swState = .idle
      ∧ btnEvent l s = { s with btnLine := l, swState := .debounce, swCnt := s.params.debounceMs })
    ∨ (s.btnLine = true ∧ l = false ∧ s.swState ≠ .idle ∧ s.params.edgePendingPolicy = .latchOne
      ∧ btnEvent l s = { s with btnLine := l, swPending := true })
    ∨ ((s.btnLine = false ∨ l = true ∨ (s.swState ≠ .idle ∧ s.params.edgePendingPolicy = .discard))
      ∧ btnEvent l s = { s with btnLine := l }) := by
  unfold btnEvent
  by_cases h : s.btnLine = true ∧ l = false
  · by_cases hs : s.swState = .idle
    · left; exact ⟨h.1, h.2, hs, by simp [h, hs, handlerEntry]⟩
    · cases hp : s.params.edgePendingPolicy with
      | latchOne => right; left; exact ⟨h.1, h.2, hs, rfl, by simp [h, hs]⟩
      | discard => right; right; exact ⟨.inr (.inr ⟨hs, rfl⟩), by simp [h, hs]⟩
  · right; right
    refine ⟨?_, by simp only [h, if_false]⟩
    cases hb : s.btnLine <;> cases l <;> simp_all

/-- Everything a TONE event does (R192). -/
theorem toneEvent_cases {s t : State} (h : eventStep .tone s = .next t) :
    (s.toneActive = false ∧ t = s)
    ∨ (s.toneActive = true ∧ s.toneLeft = 1 ∧ t = { s with toneLeft := 0, toneOut := false, toneActive := false })
    ∨ ∃ n, s.toneActive = true ∧ s.toneLeft = n + 2 ∧ t = { s with toneLeft := n + 1, toneOut := !s.toneOut } := by
  simp only [eventStep, toneEvent] at h
  split at h
  · next ha =>
    split at h
    · simp at h
    · next hl => injection h with h; subst h; exact .inr (.inl ⟨ha, hl, rfl⟩)
    · next n hl => injection h with h; subst h; exact .inr (.inr ⟨n, ha, hl, rfl⟩)
  · next ha => injection h with h; subst h; exact .inl ⟨by simpa using ha, rfl⟩

/-- The bound of RXQ is kept by an arrival at a FIFO that holds at least one byte (R36, R111). -/
theorem rxPush_length {depth : Nat} {policy : OverrunPolicy} {q : List Byte} (b : Byte) (hd : 1 ≤ depth)
    (h : q.length ≤ depth) : (rxPush depth policy q b).length ≤ depth := by
  unfold rxPush
  split
  · simp; omega
  · cases policy
    · exact h
    · simp; omega

end Sys2Proof.Machine
end

