-- ==== Sys2Proof/Laws/PerInstr.lean ====
section
/-! SUPPORT. The per-instruction family LegalEncoding: the word of a well-formed command is illegal (R88) exactly when the command is
ILLEGAL, one lemma for each constructor. -/

namespace Sys2Proof

/-- What the family says of an instruction. -/
def Laws.LegalEncoding.Statement (i : Instr) : Prop :=
  i.wellFormed = true → (illegalWord (encode i) = true ↔ ∃ w, i = .illegal w)

/-- A word that decodes to a command other than ILLEGAL is not illegal. -/
theorem legal_of_decode {i : Instr} (hi : ∀ w, i ≠ .illegal w) {o : BitVec 4} {c z : BitVec 1} {m : BitVec 2} {v : BitVec 16}
    (he : encode i = pack o c z m v) (hd : decode (pack o c z m v) = i) : Laws.LegalEncoding.Statement i := by
  intro _
  rw [he, illegalWord_pack, hd]
  exact ⟨fun h => absurd h (hi _), fun ⟨w, h⟩ => absurd h (hi w)⟩

theorem Laws.LegalEncoding.nop : Laws.LegalEncoding.Statement .nop :=
  legal_of_decode (by simp) (encodeN_eq_pack _) (by simp [decode_pack])

theorem Laws.LegalEncoding.rdframe : Laws.LegalEncoding.Statement .rdframe :=
  legal_of_decode (by simp) (encodeN_eq_pack _) (by simp [decode_pack])

theorem Laws.LegalEncoding.extract (m : ModeBits) : Laws.LegalEncoding.Statement (.extract m) :=
  legal_of_decode (by simp) (encodeM_eq_pack _ _ _) (by simp [decode_pack])

theorem Laws.LegalEncoding.extractCur : Laws.LegalEncoding.Statement .extractCur :=
  legal_of_decode (by simp) (encodeM_eq_pack _ _ _) (by simp [decode_pack])

theorem Laws.LegalEncoding.measure (m : ModeBits) : Laws.LegalEncoding.Statement (.measure m) :=
  legal_of_decode (by simp) (encodeM_eq_pack _ _ _) (by simp [decode_pack])

theorem Laws.LegalEncoding.measureCur : Laws.LegalEncoding.Statement .measureCur :=
  legal_of_decode (by simp) (encodeM_eq_pack _ _ _) (by simp [decode_pack])

theorem Laws.LegalEncoding.setdig (v : Half) : Laws.LegalEncoding.Statement (.setdig v) :=
  legal_of_decode (by simp) (encodeI_eq_pack _ _) (by simp [decode_pack])

theorem Laws.LegalEncoding.alarmchk (v : Half) : Laws.LegalEncoding.Statement (.alarmchk v) :=
  legal_of_decode (by simp) (encodeI_eq_pack _ _) (by simp [decode_pack])

theorem Laws.LegalEncoding.beep : Laws.LegalEncoding.Statement .beep :=
  legal_of_decode (by simp) (encodeN_eq_pack _) (by simp [decode_pack])

theorem Laws.LegalEncoding.waitms (n : Half) : Laws.LegalEncoding.Statement (.waitms n) :=
  legal_of_decode (by simp) (encodeI_eq_pack _ _) (by simp [decode_pack])

theorem Laws.LegalEncoding.illegal (w : CmdWord) : Laws.LegalEncoding.Statement (.illegal w) :=
  fun h => ⟨fun _ => ⟨w, rfl⟩, fun _ => h⟩

end Sys2Proof
end

