-- ==== Sys2Proof/Laws/Soundness.lean ====
section
/-! SUPPORT. The pieces of the invariant: the frame buffers keep their canonical form, and starting a reception and each receive keep
`receptionSound`. -/

namespace Sys2Proof.Machine

/-- Every receive keeps both buffers canonical: the offset it stores at has 5 bits. -/
theorem receive_keeps_wf {c d : Ctx} {s t : State} {o : RxOutcome} (h : receive c s = some (o, t))
    (hw : (frame d s).wf = true) : (frame d t).wf = true := by
  have hf : ∀ (v : Bool) (a : Nat) (b : Byte) (r : Rd) (q : List Byte), a < frameCells →
      (frame d (received c (Memory.write (frame c s) a b) r q s)).wf = true
        ∧ (frame d (setFrameValid c v (received c (Memory.write (frame c s) a b) r q s))).wf = true := by
    intro v a b r q ha
    have key : (frame d (received c (Memory.write (frame c s) a b) r q s)).wf = true := by
      cases c <;> cases d <;> first | exact wf_write b ha hw | exact hw
    exact ⟨key, by rw [frame_setFrameValid]; exact key⟩
  have hidx : (rd c s).idx.toNat < frameCells := (rd c s).idx.isLt
  obtain ⟨b, q, -, hc⟩ := receive_cases h
  rcases hc with ⟨-, -, -, rfl⟩ | ⟨-, -, -, rfl⟩ | ⟨-, -, -, rfl⟩ | ⟨-, -, -, rfl⟩ | ⟨-, -, -, rfl⟩ | ⟨-, -, -, rfl⟩
  · exact (hf true 0 b _ q (by decide)).1
  · exact (hf _ 0 b _ q (by decide)).2
  · exact (hf true 1 b _ q (by decide)).1
  · exact (hf _ 1 b _ q (by decide)).2
  · exact (hf true _ b _ q hidx).1
  · exact (hf _ _ b _ q hidx).2

/-- The reset state's two buffers are canonical. -/
theorem reset_frames_wf (p : Params) (b : Bool) (stim : List Stimulus) (c : Ctx) :
    (frame c (State.resetWith p b stim)).wf = true := by
  cases c <;> rfl

theorem filled_iff {m : Memory} {n : Nat} : filled m n = true ↔ ∀ a, a < n → ∃ b, Memory.read m a = some b := by
  simp [filled, Option.isSome_iff_exists]

/-- What has been written stays written. -/
theorem filled_write {m : Memory} {n : Nat} (a : Nat) (b : Byte) (h : filled m n = true) :
    filled (Memory.write m a b) n = true := by
  rw [filled_iff] at h ⊢
  intro k hk
  rw [read_write]
  split
  · exact ⟨b, rfl⟩
  · exact h k hk

/-- The write at offset n extends what has been written. -/
theorem filled_succ {m : Memory} {n : Nat} (b : Byte) (h : filled m n = true) :
    filled (Memory.write m n b) (n + 1) = true := by
  rw [filled_iff] at h ⊢
  intro k hk
  rw [read_write]
  split
  · exact ⟨b, rfl⟩
  · exact h k (by omega)

/-- A write past the header leaves the header. -/
theorem headerGood_write {p : Params} {m : Memory} {a : Nat} (b : Byte) (ha : 2 ≤ a) (h : headerGood p m = true) :
    headerGood p (Memory.write m a b) = true := by
  unfold headerGood at h ⊢
  rw [read_write_other m b (by omega), read_write_other m b (by omega)]
  exact h

/-- A reception's start is sound over any canonical buffer (R120). -/
theorem receptionSound_start {p : Params} {m : Memory} (h : m.wf = true) :
    receptionSound p { ph := .h0, idx := 0#5 } false m = true := by
  simp [receptionSound, h]

theorem receptionSound_wf {p : Params} {r : Rd} {v : Bool} {m : Memory} (h : receptionSound p r v m = true) : m.wf = true := by
  simp only [receptionSound, Bool.and_eq_true] at h
  exact h.1.1

/-- A whole accepted frame: every byte is written and the header is good (R34). -/
theorem receptionSound_valid {p : Params} {r : Rd} {m : Memory} (h : receptionSound p r true m = true) :
    headerGood p m = true ∧ filled m p.frameLen = true := by
  simp only [receptionSound, Bool.and_eq_true, Bool.not_true, Bool.false_or] at h
  exact h.2

/-- A receive keeps the reception sound, and the outcome says what the reception has come to. -/
theorem receive_sound {c : Ctx} {s t : State} {o : RxOutcome} (hp : s.params.wf = true)
    (h : receptionSound s.params (rd c s) (frameValid c s) (frame c s) = true) (hr : receive c s = some (o, t)) :
    receptionSound s.params (rd c t) (frameValid c t) (frame c t) = true
      ∧ (match o with
        | .more => (rd c t).ph ≠ .none
        | .ok => (rd c t).ph = .none ∧ frameValid c t = true
        | .hdrMismatch => (rd c t).ph = .none ∧ frameValid c t = false) := by
  have hw := params_wf_cases hp
  have hm := receive_keeps_wf (d := c) hr (receptionSound_wf h)
  obtain ⟨b, q, -, hc⟩ := receive_cases hr
  rcases hc with ⟨h1, h2, rfl, rfl⟩ | ⟨h1, h2, rfl, rfl⟩ | ⟨h1, h2, rfl, rfl⟩ | ⟨h1, h2, rfl, rfl⟩ | ⟨h1, h2, rfl, rfl⟩
    | ⟨h1, h2, rfl, rfl⟩ <;>
    simp only [receptionSound, h1, Bool.and_eq_true, Bool.not_eq_true', beq_iff_eq, decide_eq_true_eq] at h
  · obtain ⟨⟨-, h3, h4⟩, -⟩ := h
    have hv : frameValid c (received c (Memory.write (frame c s) 0 b) { ph := .h1, idx := 0#5 } q s) = false := by
      rw [← h4]; cases c <;> rfl
    refine ⟨?_, by simp⟩
    simp only [frame_received] at hm
    simp only [receptionSound, rd_received, frame_received, hv, hm, read_write_same]
    simp [h2]
  · refine ⟨?_, by simp⟩
    simp only [frame_received, frame_setFrameValid] at hm
    simp only [receptionSound, rd_received, rd_setFrameValid, frame_received, frame_setFrameValid,
      frameValid_setFrameValid, hm]
    simp
  · obtain ⟨⟨-, ⟨h3, h4⟩, h5⟩, -⟩ := h
    have hv : frameValid c (received c (Memory.write (frame c s) 1 b) { ph := .pay, idx := 2#5 } q s) = false := by
      rw [← h4]; cases c <;> rfl
    have hg : headerGood s.params (Memory.write (frame c s) 1 b) = true := by
      unfold headerGood
      rw [read_write_other _ b (by omega : (0 : Nat) ≠ 1), h5, read_write_same, h2]
      simp
    have hf : filled (Memory.write (frame c s) 1 b) 2 = true := by
      refine filled_succ b (filled_iff.mpr fun a ha => ?_)
      obtain rfl : a = 0 := by omega
      exact ⟨_, h5⟩
    refine ⟨?_, by simp⟩
    simp only [frame_received] at hm
    simp only [receptionSound, rd_received, frame_received, hv, hm, hg]
    simp only [BitVec.toNat_ofNat, hf]
    simp
    omega
  · refine ⟨?_, by simp⟩
    simp only [frame_received, frame_setFrameValid] at hm
    simp only [receptionSound, rd_received, rd_setFrameValid, frame_received, frame_setFrameValid,
      frameValid_setFrameValid, hm]
    simp
  · obtain ⟨⟨-, ⟨⟨⟨h3, h4⟩, h5⟩, h6⟩, h7⟩, -⟩ := h
    have hv : frameValid c (received c (Memory.write (frame c s) (rd c s).idx.toNat b)
        { ph := .pay, idx := (rd c s).idx + 1#5 } q s) = false := by
      rw [← h5]; cases c <;> rfl
    have hi : ((rd c s).idx + 1#5).toNat = (rd c s).idx.toNat + 1 := by
      rw [BitVec.toNat_add]
      simp only [BitVec.toNat_ofNat]
      omega
    refine ⟨?_, by simp⟩
    simp only [frame_received] at hm
    simp only [receptionSound, rd_received, frame_received, hv, hm, headerGood_write b h3 h6, hi, filled_succ b h7]
    simp
    omega
  · obtain ⟨⟨-, ⟨⟨⟨h3, h4⟩, h5⟩, h6⟩, h7⟩, -⟩ := h
    refine ⟨?_, by simp⟩
    simp only [frame_received, frame_setFrameValid] at hm
    have hf := filled_succ b h7
    rw [h2] at hf
    simp only [receptionSound, rd_received, rd_setFrameValid, frame_received, frame_setFrameValid,
      frameValid_setFrameValid, hm, headerGood_write b h3 h6, hf]
    simp

/-- A whole accepted frame holds every mode's field (R125): an extraction over it reads no unwritten byte. -/
theorem extractField_of_valid {c : Ctx} {s : State} {m : ModeBits} (hp : s.params.wf = true)
    (h : receptionSound s.params (rd c s) (frameValid c s) (frame c s) = true) (hv : frameValid c s = true) (hm : m ≠ 3#2) :
    ∃ v, extractField c m s = .value v := by
  rw [hv] at h
  have hf := filled_iff.mp (receptionSound_valid h).2
  obtain ⟨off, ho⟩ : ∃ off, fieldOffset s.params m = some off := by
    have : m = 0#2 ∨ m = 1#2 ∨ m = 2#2 ∨ m = 3#2 := by clear * -; revert m; decide
    rcases this with rfl | rfl | rfl | rfl
    · exact ⟨_, rfl⟩
    · exact ⟨_, rfl⟩
    · exact ⟨_, rfl⟩
    · exact absurd rfl hm
  have hlt := fieldOffset_lt hp ho
  obtain ⟨hi, h1⟩ := hf off (by omega)
  obtain ⟨lo, h2⟩ := hf (off + 1) hlt
  exact ⟨_, extractField_of_read ho h1 h2⟩

end Sys2Proof.Machine
end

