-- ==== Sys2Proof/Tests/Slice0.lean ====
section
/-! SUPPORT. The model's own tests: well-formedness smoke, decoding of words written out from 30_encoding.md R83 and R95 and
95_test_vectors.md section 2, at most two single steps for each command, and a witness for the hypotheses of each obligation. The
expected values are the spec's; the comment of each test says where they stand. -/

namespace Sys2Proof.Tests

open Sys2Proof.Machine

/-! ## Well-formedness: an ill-formed term for each check (R88, R89) -/

/-- Format N: ILLEGAL cannot stand for the words of NOP, RDFRAME and BEEP. -/
theorem test_wf_format_n : (Instr.illegal 0x000000#24).wellFormed = false ∧ (Instr.illegal 0x100000#24).wellFormed = false
    ∧ (Instr.illegal 0x600000#24).wellFormed = false := by decide

/-- Format M: nor for EXTRACT #3, EXTRACT CUR, MEASURE PM10. -/
theorem test_wf_format_m : (Instr.illegal 0x230000#24).wellFormed = false ∧ (Instr.illegal 0x280000#24).wellFormed = false
    ∧ (Instr.illegal 0x320000#24).wellFormed = false := by decide

/-- Format I: nor for SETDIG #65535, ALARMCHK #74, WAITMS #0. -/
theorem test_wf_format_i : (Instr.illegal 0x40FFFF#24).wellFormed = false ∧ (Instr.illegal 0x50004A#24).wellFormed = false
    ∧ (Instr.illegal 0x700000#24).wellFormed = false := by decide

/-- And it does stand for a word of each clause of R88, (a) to (e). -/
theorem test_wf_illegal : (Instr.illegal 0x800000#24).wellFormed = true ∧ (Instr.illegal 0x600100#24).wellFormed = true
    ∧ (Instr.illegal 0x240000#24).wellFormed = true ∧ (Instr.illegal 0x290000#24).wellFormed = true
    ∧ (Instr.illegal 0x410000#24).wellFormed = true := by decide

/-! ## Decoding: words written out from R83 (95_test_vectors.md section 2) -/

theorem test_decode_nop : decode 0b0000_00000000000000000000#24 = .nop := by decide
theorem test_decode_rdframe : decode 0b0001_00000000000000000000#24 = .rdframe := by decide
theorem test_decode_extract : decode 0b0010_0_0_11_0000000000000000#24 = .extract 3#2 := by decide
theorem test_decode_extract_cur : decode 0b0010_1_0_00_0000000000000000#24 = .extractCur := by decide
theorem test_decode_measure : decode 0b0011_0_0_10_0000000000000000#24 = .measure 2#2 := by decide
theorem test_decode_measure_cur : decode 0b0011_1_0_00_0000000000000000#24 = .measureCur := by decide
theorem test_decode_setdig : decode 0b0100_0000_0000000001111011#24 = .setdig 123#16 := by decide
theorem test_decode_alarmchk : decode 0b0101_0000_0000000001001010#24 = .alarmchk 74#16 := by decide
theorem test_decode_beep : decode 0b0110_00000000000000000000#24 = .beep := by decide
theorem test_decode_waitms : decode 0b0111_0000_0000000111110100#24 = .waitms 500#16 := by decide
theorem test_decode_illegal : decode 0x0FFFFF#24 = .illegal 0x0FFFFF#24 ∧ decode 0x200001#24 = .illegal 0x200001#24
    ∧ decode 0x2B0000#24 = .illegal 0x2B0000#24 ∧ decode 0x3C0000#24 = .illegal 0x3C0000#24
    ∧ decode 0x4FFFFF#24 = .illegal 0x4FFFFF#24 ∧ decode 0xF00000#24 = .illegal 0xF00000#24 := by decide

/-- Event words (95_test_vectors.md section 2). -/
theorem test_decode_events : decodeEvent 0x000#12 = some (.reset false) ∧ decodeEvent 0x001#12 = some (.reset true)
    ∧ decodeEvent 0x100#12 = some .ms ∧ decodeEvent 0x200#12 = some .tone ∧ decodeEvent 0x342#12 = some (.rxByte 0x42#8)
    ∧ decodeEvent 0x400#12 = some (.btn false) ∧ decodeEvent 0x401#12 = some (.btn true) ∧ decodeEvent 0x101#12 = none
    ∧ decodeEvent 0x402#12 = none ∧ decodeEvent 0x500#12 = none ∧ decodeEvent 0xF00#12 = none := by decide

/-- A table word is the port's word: 24 bits, the same bit numbers (R63). -/
theorem test_decode_table_word : decodeTableWord 24 0x40007B = some (.setdig 123#16) ∧ decodeTableWord 32 0 = none := by decide

/-! ## States for the tests -/

/-- Parameters for the tests: R6's defaults, and values for the OPEN ones. -/
def params : Params where
  resetMode := 0
  rxFifoDepth := 64
  rxOverrunPolicy := .dropNew
  edgePendingPolicy := .latchOne
  segTab := #v[0xA0, 0xA1, 0xA2, 0xA3, 0xA4, 0xA5, 0xA6, 0xA7, 0xA8, 0xA9]
  segLevel := .activeHigh
  dselLevel := .activeLow
  indLevel := .activeHigh
  toneLevel := .activeLow

/-- `@RESET 1`. -/
def start : State := State.resetWith params true []

/-- `CMD w` from the reset state. -/
def commanded (w : CmdWord) : State := acceptCommand w start

/-- Frame FA's header and fields (95_test_vectors.md): 26, 50, 75. -/
def frameFA : Memory := [(0, 0x42), (1, 0x4D), (8, 0x00), (9, 0x1A), (10, 0x00), (11, 0x32), (12, 0x00), (13, 0x4B)]

/-- A register of the state a step answers. -/
def after {α : Type} (o : Host.Outcome State Fault Refusal) (f : State → α) : Option α :=
  match o with
  | .next t => some (f t)
  | _ => none

/-- The result (OK, VALUE, ERR). -/
def resultOf (s : State) : Bool × Nat × Nat := (s.result.ok, s.result.value.toNat, s.status.toNat)

/-! ## Single steps -/

/-- HV2. -/
theorem test_nop : after (step (commanded 0x000000#24)) (fun t => (resultOf t, t.busy)) = some ((true, 0, 0), false) := by decide

/-- DV13: RD[HOST] = (H0, 0) and HOST_PHASE = READ. -/
theorem test_rdframe_start : after (step (commanded 0x100000#24)) (fun t => (t.rdHost, t.hostPhase, t.busy))
    = some ({ ph := .h0, idx := 0#5 }, .read, true) := by decide

/-- R122: the last payload byte ends RDFRAME with (1, 0, 0). -/
theorem test_rdframe_last : after (step { commanded 0x100000#24 with
      hostPhase := .read, rdHost := { ph := .pay, idx := 31#5 }, rxq := [0x99#8, 0x42#8] })
    (fun t => (resultOf t, t.frameValidHost, Memory.read t.frameHost 31, t.rxq))
    = some ((true, 0, 0), true, some 0x99#8, [0x42#8]) := by decide

/-- DV2: EXTRACT PM1_0 of FA. -/
theorem test_extract : after (step { commanded 0x200000#24 with frameHost := frameFA, frameValidHost := true }) resultOf
    = some (true, 26, 0) := by decide

/-- DV5 and DV6: INVALID_MODE is checked before NO_FRAME. -/
theorem test_extract_fails : after (step (commanded 0x200000#24)) resultOf = some (false, 0, 3)
    ∧ after (step (commanded 0x230000#24)) resultOf = some (false, 0, 2) := by decide

/-- E1: EXTRACT CUR in PM10. -/
theorem test_extract_cur : after (step { commanded 0x280000#24 with
      mode := 2#2, frameHost := frameFA, frameValidHost := true }) resultOf = some (true, 75, 0) := by decide

/-- R127: MEASURE's START. -/
theorem test_measure_start : after (step (commanded 0x320000#24)) (fun t => (t.rdHost, t.hostPhase, t.frameValidHost))
    = some ({ ph := .h0, idx := 0#5 }, .read, false) := by decide

/-- DV8: big-endian, not 0x3412. -/
theorem test_measure_extraction : after (step { commanded 0x300000#24 with
      hostPhase := .extract, frameValidHost := true, frameHost := [(8, 0x12), (9, 0x34)] }) resultOf
    = some (true, 4660, 0) := by decide

/-- P1 step 3: MEASURE CUR extracts in the mode MODE holds. -/
theorem test_measure_cur_extraction : after (step { commanded 0x380000#24 with
      hostPhase := .extract, mode := 2#2, frameValidHost := true, frameHost := frameFA }) resultOf
    = some (true, 75, 0) := by decide

/-- DV12: a bad header fails before the mode is looked at. -/
theorem test_measure_cur_mismatch : after (step { commanded 0x380000#24 with
      hostPhase := .read, rdHost := { ph := .h0, idx := 0#5 }, rxq := [0x41#8] }) (fun t => (resultOf t, t.rxq))
    = some ((false, 0, 1), []) := by decide

/-- R140: SETDIG's START. -/
theorem test_setdig_start : after (step (commanded 0x400007#24)) (fun t => (t.hostK, t.hostPhase, t.hostVal.toNat))
    = some (0#3, .write, 7) := by decide

/-- Section 4: SETDIG #1000's last write and result. -/
theorem test_setdig_last : after (step { commanded 0x4003E8#24 with hostPhase := .write, hostK := 3#3 })
    (fun t => (resultOf t, t.digits.d3)) = some ((true, 999, 0), 9#4) := by decide

/-- TV7: 74 does not fire. -/
theorem test_alarmchk_silent : after (step (commanded 0x50004A#24)) (fun t => (resultOf t, t.toneActive))
    = some ((true, 0, 0), false) := by decide

/-- TV10: 65535 saturates to 999 and fires. -/
theorem test_alarmchk_fires : after (step (commanded 0x50FFFF#24)) (fun t => (t.toneActive, t.toneLeft, t.hostPhase))
    = some (true, 1200, .toneWait) := by decide

/-- TV1. -/
theorem test_beep : after (step (commanded 0x600000#24)) (fun t => (t.toneActive, t.toneLeft, t.toneOut, t.busy))
    = some (true, 1200, true, true) := by decide

/-- TV5: the wait's end. -/
theorem test_beep_end : after (step { commanded 0x600000#24 with hostPhase := .toneWait }) (fun t => (resultOf t, t.busy))
    = some ((true, 0, 0), false) := by decide

/-- HV3. -/
theorem test_waitms_zero : after (step (commanded 0x700000#24)) resultOf = some (true, 0, 0) := by decide

/-- HV4. -/
theorem test_waitms : after (step (commanded 0x700003#24)) (fun t => (t.hostCnt.toNat, t.hostPhase, t.busy))
    = some (3, .count, true) := by decide

/-- HV10. -/
theorem test_illegal : after (step (commanded 0x290000#24)) (fun t => (resultOf t, t.busy))
    = some ((false, 0, 4), false) := by decide

/-- SV5 and SV4: position 0. -/
theorem test_scan_position_zero :
    after (eventStep .ms { start with digits := { d0 := 0#4, d1 := 0#4, d2 := 1#4, d3 := 0#4 } }) (fun t => (t.segOut, t.dselOut, t.pos))
      = some (0xA0#8, 0b0001#4, 1)
    ∧ after (eventStep .ms { start with digits := { d0 := 0#4, d1 := 0#4, d2 := 0#4, d3 := 5#4 } }) (fun t => (t.segOut, t.dselOut, t.pos))
      = some (0x00#8, 0b0000#4, 1) := by decide

/-- WV7: the mode advance from 1. -/
theorem test_mode_advance : after (fgStep { start with mode := 1#2, swState := .actMode })
    (fun t => (t.mode, t.indOut, t.rdSw.ph, t.swState)) = some (2#2, 0b111#3, .h0, .read) := by decide

/-- HV14: an MS event while the handler debounces does not count for the host. -/
theorem test_ms_counts : after (eventStep .ms { commanded 0x700007#24 with
      swState := .debounce, swCnt := 1, hostPhase := .count, hostCnt := 7#16 }) (fun t => (t.swCnt, t.hostCnt.toNat))
    = some (0, 7) := by decide

/-- DV16 and DV17: a full queue of depth 1. -/
theorem test_overrun : rxPush 1 .dropNew [0x42#8] 0x4D#8 = [0x42#8] ∧ rxPush 1 .dropOldest [0x42#8] 0x4D#8 = [0x4D#8] := by decide

/-- TV3 and the last half-period of TV5. -/
theorem test_tone : after (eventStep .tone { start with toneActive := true, toneLeft := 1199, toneOut := false })
      (fun t => (t.toneLeft, t.toneOut)) = some (1198, true)
    ∧ after (eventStep .tone { start with toneActive := true, toneLeft := 1, toneOut := false })
      (fun t => (t.toneLeft, t.toneOut, t.toneActive)) = some (0, false, false) := by decide

/-- R6: TONE_CYCLES = 600 and TONE_STROBE_HZ = 4000 at the defaults. -/
theorem test_derived_parameters : params.toneCycles = 600 ∧ params.toneStrobeHz = 4000 ∧ params.wf = true := by decide

/-- The host's question: the very next step from reset runs the placed word. -/
theorem test_reset_runs_placed_word : after (step (State.reset.withFetchWord 24 0x100000)) (fun t => (t.rdHost, t.hostPhase))
    = some ({ ph := .h0, idx := 0#5 }, .read) := by decide

/-- RV1: State.reset's registers. -/
theorem test_reset : State.reset.mode = 0#2 ∧ State.reset.indOut = 0b001#3 ∧ State.reset.btnLine = true
    ∧ resultOf State.reset = (false, 0, 0) ∧ State.reset.rxq = [] ∧ Memory.wf State.reset.frameHost = true := by decide

/-! ## Witnesses: for each obligation with hypotheses, states and operands that meet them, a row for each clause -/

/-- A host command w in phase p, with the handler idle. -/
def inPhase (w : CmdWord) (p : HostPhase) : State := { commanded w with hostPhase := p }

/-- The handler in state q, the host waiting in RDFRAME's reception. -/
def handlerIn (q : SwState) : State := { inPhase 0x100000#24 .read with swState := q, rdHost := { ph := .h0, idx := 0#5 } }

/-- A good frame of the length `params` gives. -/
def goodFrame : List Byte := [0x42#8, 0x4D#8] ++ List.replicate 30 0x07#8

/-- A frame buffer with every byte of `goodFrame` stored. -/
def goodBuffer : Memory := (List.range 32).zip goodFrame

/-- `params` with DEBOUNCE_MS = 1 and the given policy. -/
def quick (e : EdgePolicy) : Params := { params with debounceMs := 1, edgePendingPolicy := e }

/-- DecodeInvertsEncode: every constructor, at the last operand its field holds. -/
theorem witness_DecodeInvertsEncode : ([Instr.nop, .rdframe, .extract 3#2, .extractCur, .measure 3#2, .measureCur,
    .setdig 0xFFFF#16, .alarmchk 0xFFFF#16, .beep, .waitms 0xFFFF#16, .illegal 0xFFFFFF#24].all Instr.wellFormed) = true := by
  decide

/-- EveryWordIsExactlyOneCommand: no row matches 0x800000. -/
theorem witness_EveryWordIsExactlyOneCommand : ∀ r ∈ rows, r.hits 0x800000#24 = false := by decide

/-- IllegalWordsAreThoseNamed. -/
theorem witness_IllegalWordsAreThoseNamed : ∃ v, decode 0x800000#24 = .illegal v := ⟨0x800000#24, by decide⟩

/-- EventWordsNameEvents. -/
theorem witness_EventWordsNameEvents : decodeEvent 0x3FF#12 = some (.rxByte 0xFF#8) := by decide

/-- PseudoInstructionsExpand: R6's POLL_INTERVAL_MS. -/
theorem witness_PseudoInstructionsExpand : params.pollIntervalMs = 500 := by decide

/-- StepRunsTheDecodedCommand: an empty schedule, and FG scheduled. -/
theorem witness_StepRunsTheDecodedCommand :
    (let s := commanded 0x600000#24
     outsideRules s = none ∧ s.swState = .idle ∧ s.busy = true ∧ s.hostPhase = .start ∧ decode s.cmd = .beep ∧ s.stim = [])
    ∧ (let s := { commanded 0x600000#24 with stim := [.foreground] }
       outsideRules s = none ∧ s.swState = .idle ∧ s.busy = true ∧ s.hostPhase = .start ∧ decode s.cmd = .beep
        ∧ s.stim = .foreground :: []) := by decide

/-- PlacedCommandRunsNext. -/
theorem witness_PlacedCommandRunsNext : outsideRules start = none := by decide

/-- StepTakesTheNextMove: a state of each kind outside the rules, ERR at its last code, and each kind of scheduled move. -/
theorem witness_StepTakesTheNextMove :
    ([{ start with hostPhase := .reserved }, { start with swState := .reserved }, { start with mode := 3#2 },
      { start with status := 5#3 }, { start with digits := { d0 := 10#4, d1 := 0#4, d2 := 0#4, d3 := 0#4 } },
      { start with digits := { d0 := 0#4, d1 := 10#4, d2 := 0#4, d3 := 0#4 } },
      { start with digits := { d0 := 0#4, d1 := 0#4, d2 := 10#4, d3 := 0#4 } },
      { start with digits := { d0 := 0#4, d1 := 0#4, d2 := 0#4, d3 := 10#4 } },
      { start with digits := { d0 := 1#4, d1 := 0#4, d2 := 0#4, d3 := 0#4 } }].all fun s => (outsideRules s).isSome) = true
    ∧ outsideRules { start with status := 4#3, digits := { d0 := 0#4, d1 := 9#4, d2 := 9#4, d3 := 9#4 } } = none ∧ outsideRules start = none ∧ start.stim = []
    ∧ (let s := { start with stim := [.foreground] }; outsideRules s = none ∧ s.stim = .foreground :: [])
    ∧ (let s := { start with stim := [.command 0#24] }; outsideRules s = none ∧ s.stim = .command 0#24 :: [])
    ∧ (let s := { start with stim := [.event 0x100#12] }
       outsideRules s = none ∧ s.stim = .event 0x100#12 :: [] ∧ decodeEvent 0x100#12 = some .ms)
    ∧ (let s := { start with stim := [.event 0x500#12] }
       outsideRules s = none ∧ s.stim = .event 0x500#12 :: [] ∧ decodeEvent 0x500#12 = none) := by decide

/-- CommandAcceptance: BUSY = 0 and BUSY = 1. -/
theorem witness_CommandAcceptance : start.busy = false ∧ (commanded 0#24).busy = true := by decide

/-- ForegroundEnabling: each position of FG. -/
theorem witness_ForegroundEnabling :
    (start.swState = .idle ∧ start.busy = false)
    ∧ ([SwState.debounce, .actMode, .read, .extract, .write, .release].all fun q => (handlerIn q).swState = q) = true
    ∧ ([HostPhase.idle, .start, .read, .extract, .write, .toneWait, .count].all fun p =>
        (inPhase 0#24 p).swState = .idle ∧ (inPhase 0#24 p).busy = true ∧ (inPhase 0#24 p).hostPhase = p) = true
    ∧ fgEnabled start = false := by decide

/-- The reset state of `params` is sound. -/
theorem start_sound : Inv start := by constructor <;> decide

/-- EnabledMicroStepMakesProgress. -/
theorem witness_EnabledMicroStepMakesProgress : Inv (commanded 0x100000#24) ∧ fgEnabled (commanded 0x100000#24) = true :=
  ⟨by constructor <;> decide, by decide⟩

/-- HandlerLeavesTheHostAlone: the handler's mode advance, its extraction and its fourth digit write. -/
theorem witness_HandlerLeavesTheHostAlone :
    (∃ t, fgStep (handlerIn .actMode) = .next t) ∧ (∃ t, fgStep { handlerIn .extract with frameSw := frameFA } = .next t)
    ∧ (∃ t, fgStep { handlerIn .write with swK := 3#3 } = .next t)
    ∧ (handlerIn .actMode).swState ≠ .idle ∧ (handlerIn .extract).swState ≠ .idle ∧ (handlerIn .write).swState ≠ .idle :=
  ⟨⟨_, rfl⟩, ⟨_, rfl⟩, ⟨_, rfl⟩, by decide, by decide, by decide⟩

/-- ReceptionCommandsStart: each of the three commands. -/
theorem witness_ReceptionCommandsStart :
    ∀ i ∈ [Instr.rdframe, .measure 3#2, .measureCur], i = .rdframe ∨ (∃ m, i = .measure m) ∨ i = .measureCur := by
  intro i hi
  simp only [List.mem_cons, List.not_mem_nil, or_false] at hi
  obtain rfl | rfl | rfl := hi
  · exact .inl rfl
  · exact .inr (.inl ⟨_, rfl⟩)
  · exact .inr (.inr rfl)

/-- ExtractResult: no frame, a readable field (PM10, the last mode), and a field half written. -/
theorem witness_ExtractResult :
    ((2#2 : ModeBits) ≠ 3#2 ∧ start.frameValidHost = false)
    ∧ (let s := { start with frameHost := frameFA, frameValidHost := true }
       ((2#2 : ModeBits), 12) ∈ [(0#2, s.params.offPm1_0), (1#2, s.params.offPm2_5), (2#2, s.params.offPm10)]
        ∧ s.frameValidHost = true ∧ Memory.read s.frameHost 12 = some 0x00#8
        ∧ Memory.read s.frameHost (12 + 1) = some 0x4B#8)
    ∧ (let s := { start with frameHost := [(8, 0x00#8)], frameValidHost := true }
       ((0#2 : ModeBits), 8) ∈ [(0#2, s.params.offPm1_0), (1#2, s.params.offPm2_5), (2#2, s.params.offPm10)]
        ∧ s.frameValidHost = true ∧ Memory.read s.frameHost (8 + 1) = none) := by decide

/-- ExtractCurReadsMode: MODE 3, no frame, a readable field. -/
theorem witness_ExtractCurReadsMode :
    { start with mode := 3#2 }.mode = 3#2 ∧ (start.mode ≠ 3#2 ∧ start.frameValidHost = false)
    ∧ (let s := { start with mode := 1#2, frameHost := frameFA, frameValidHost := true }
       (s.mode, 10) ∈ [(0#2, s.params.offPm1_0), (1#2, s.params.offPm2_5), (2#2, s.params.offPm10)]
        ∧ s.frameValidHost = true ∧ Memory.read s.frameHost 10 = some 0x00#8
        ∧ Memory.read s.frameHost (10 + 1) = some 0x32#8) := by decide

/-- ExtractAlwaysCompletes. -/
theorem witness_ExtractAlwaysCompletes : Inv start ∧ (∃ m, Instr.extract 3#2 = .extract m) := ⟨start_sound, _, rfl⟩

/-- AlarmCheckCompares: at the threshold with a tone and with TONE_CYCLES = 0, and one below it. -/
theorem witness_AlarmCheckCompares :
    (let s := { start with hostVal := 75#16 }
     s.hostVal = 75#16 ∧ s.params.alarmThreshold ≤ min (75#16 : Half).toNat s.params.displayMax
      ∧ toneHalfPeriods s.params ≠ 0)
    ∧ (let s := { start with hostVal := 75#16, params := { params with toneFreqHz := 0 } }
       s.hostVal = 75#16 ∧ s.params.alarmThreshold ≤ min (75#16 : Half).toNat s.params.displayMax
        ∧ toneHalfPeriods s.params = 0)
    ∧ (let s := { start with hostVal := 74#16 }
       s.hostVal = 74#16 ∧ min (74#16 : Half).toNat s.params.displayMax < s.params.alarmThreshold) := by decide

/-- BeepStarts: with a tone, and with TONE_CYCLES = 0. -/
theorem witness_BeepStarts : 2 * start.params.toneCycles ≠ 0 ∧ 2 * { params with toneFreqHz := 0 }.toneCycles = 0 := by decide

/-- WaitmsStarts: 0 and 65535. -/
theorem witness_WaitmsStarts : { start with hostVal := 0#16 }.hostVal = 0#16
    ∧ ({ start with hostVal := 0xFFFF#16 }.hostVal = 0xFFFF#16 ∧ 0xFFFF#16 ≠ 0#16) := by decide

/-- RdframeReceivesTheFrame. -/
theorem witness_RdframeReceivesTheFrame :
    (let s := { commanded 0x100000#24 with rxq := goodFrame ++ [0x42#8] }
     s.params.wf = true ∧ s.swState = .idle ∧ s.busy = true ∧ s.hostPhase = .start ∧ decode s.cmd = .rdframe
      ∧ s.rxq = goodFrame ++ [0x42#8] ∧ goodFrame.length = s.params.frameLen ∧ goodFrame[0]? = some s.params.hdr0
      ∧ goodFrame[1]? = some s.params.hdr1) := by decide

/-- MeasureReturnsTheField: an explicit mode, MODE 3, and CUR. -/
theorem witness_MeasureReturnsTheField :
    ([(0x320000#24, 2#2), (0x330000#24, 3#2), (0x380000#24, 0#2)].all fun (w, m) =>
      let s := { commanded w with rxq := goodFrame }
      s.params.wf = true ∧ s.swState = .idle ∧ s.busy = true ∧ s.hostPhase = .start
        ∧ (decode s.cmd = .measure m ∨ (decode s.cmd = .measureCur ∧ s.mode = m ∧ m ≠ 3#2)) ∧ s.rxq = goodFrame ++ []
        ∧ goodFrame.length = s.params.frameLen ∧ goodFrame[0]? = some s.params.hdr0
        ∧ goodFrame[1]? = some s.params.hdr1) = true
    ∧ (((2#2 : ModeBits), 12) ∈ [(0#2, params.offPm1_0), (1#2, params.offPm2_5), (2#2, params.offPm10)]
      ∧ goodFrame[12]? = some 0x07#8 ∧ goodFrame[12 + 1]? = some 0x07#8) := by decide

/-- HeaderMismatchConsumesOneOrTwo: a bad first byte, and a bad second byte. -/
theorem witness_HeaderMismatchConsumesOneOrTwo :
    (let s := { commanded 0x100000#24 with rxq := [0x41#8] }
     s.swState = .idle ∧ s.busy = true ∧ s.hostPhase = .start ∧ decode s.cmd = .rdframe ∧ (0x41#8 : Byte) ≠ s.params.hdr0
      ∧ s.rxq = 0x41#8 :: [])
    ∧ (let s := { commanded 0x380000#24 with rxq := [0x42#8, 0x4E#8] }
       s.swState = .idle ∧ s.busy = true ∧ s.hostPhase = .start ∧ decode s.cmd = .measureCur ∧ 0x42#8 = s.params.hdr0
        ∧ (0x4E#8 : Byte) ≠ s.params.hdr1 ∧ s.rxq = 0x42#8 :: 0x4E#8 :: []) := by decide

/-- SetdigWritesSaturatedDigits: 999, 1000 and 65535. -/
theorem witness_SetdigWritesSaturatedDigits :
    ([(0x4003E7#24, 999#16), (0x4003E8#24, 1000#16), (0x40FFFF#24, 65535#16)].all fun (w, v) =>
      (commanded w).params.wf = true ∧ (commanded w).swState = .idle ∧ (commanded w).busy = true
        ∧ (commanded w).hostPhase = .start ∧ decode (commanded w).cmd = .setdig v ∧ (commanded w).hostVal = v) = true := by decide

/-- SetdigIsTornBetweenWrites: none and three of the writes done. -/
theorem witness_SetdigIsTornBetweenWrites :
    (let s := commanded 0x4003E7#24
     s.params.wf = true ∧ s.swState = .idle ∧ s.busy = true ∧ s.hostPhase = .start ∧ decode s.cmd = .setdig 999#16
      ∧ s.hostVal = 999#16) ∧ 0 < 4 ∧ 3 < 4 := by decide

/-- HandlerInsideSetdigMixesDigits: after one and after three of the host's writes. -/
theorem witness_HandlerInsideSetdigMixesDigits :
    [1, 3].all (fun k =>
      let s := { inPhase 0x40007B#24 .write with hostK := BitVec.ofNat 3 k, swState := .write, swVal := 75#16 }
      s.params.wf = true ∧ s.busy = true ∧ s.hostPhase = .write ∧ 1 ≤ k ∧ k ≤ 3 ∧ s.hostK = BitVec.ofNat 3 k
        ∧ s.hostVal = 123#16 ∧ s.swState = .write ∧ s.swK = 0#3 ∧ s.swVal = 75#16 ∧ s.btnLine = true
        ∧ s.swPending = false) = true := by decide

/-- ToneWaveform: no event and all 1200. -/
theorem witness_ToneWaveform : 1 ≤ start.params.toneCycles ∧ 0 ≤ 2 * start.params.toneCycles
    ∧ 1200 ≤ 2 * start.params.toneCycles := by decide

/-- ToneWaitEnds: a silent unit, and the wait with the tone on and off. -/
theorem witness_ToneWaitEnds : start.toneActive = false
    ∧ (let s := inPhase 0x50004B#24 .toneWait
       s.swState = .idle ∧ s.busy = true ∧ s.hostPhase = .toneWait ∧ s.toneActive = false)
    ∧ (let s := { inPhase 0x600000#24 .toneWait with toneActive := true }
       s.swState = .idle ∧ s.busy = true ∧ s.hostPhase = .toneWait ∧ s.toneActive = true) := by decide

/-- WaitmsCountsMsEvents: the handler idle, one event short of the end and at it, and the handler busy. -/
theorem witness_WaitmsCountsMsEvents :
    (let s := { inPhase 0x700003#24 .count with hostCnt := 3#16 }
     outsideRules s = none ∧ s.busy = true ∧ s.hostPhase = .count ∧ s.swState = .idle ∧ s.hostCnt.toNat ≤ 3
      ∧ 2 < s.hostCnt.toNat)
    ∧ (let s := { inPhase 0x700003#24 .count with hostCnt := 3#16, swState := .release }
       outsideRules s = none ∧ s.busy = true ∧ s.hostPhase = .count ∧ s.swState ≠ .idle) := by decide

/-- MeasureExtraction: `#3`, an explicit mode, and CUR in PM10. -/
theorem witness_MeasureExtraction :
    (let s := inPhase 0x330000#24 .extract
     s.swState = .idle ∧ s.busy = true ∧ s.hostPhase = .extract
      ∧ 3#2 = (if s.cmd.getLsbD 19 then s.mode else s.cmd.extractLsb' 16 2) ∧ s.cmd.getLsbD 19 = false)
    ∧ ([(0x310000#24, 1#2, 0#2, 10, 0x32#8), (0x380000#24, 2#2, 2#2, 12, 0x4B#8)].all fun (w, m, r, off, lo) =>
      let s := { inPhase w .extract with mode := r, frameHost := frameFA }
      s.swState = .idle ∧ s.busy = true ∧ s.hostPhase = .extract
        ∧ m = (if s.cmd.getLsbD 19 then s.mode else s.cmd.extractLsb' 16 2)
        ∧ (m, off) ∈ [(0#2, s.params.offPm1_0), (1#2, s.params.offPm2_5), (2#2, s.params.offPm10)]
        ∧ Memory.read s.frameHost off = some 0x00#8 ∧ Memory.read s.frameHost (off + 1) = some lo) = true := by decide

/-- ScanTickDrivesOneDigit: each position, position 0 blanked and not, the last legal digit, and a digit over 9. -/
theorem witness_ScanTickDrivesOneDigit :
    (start.pos = 0 ∧ start.digits.d0 = 0#4 ∧ start.digits.d1 = 0#4 ∧ start.digits.d2 = 0#4 ∧ start.params.numDigits = 4)
    ∧ (let s := { start with digits := { d0 := 0#4, d1 := 0#4, d2 := 1#4, d3 := 9#4 } }
       s.pos = 0 ∧ s.digits.d2 ≠ 0#4 ∧ s.params.segTab[s.digits.d0.toNat]? = some 0xA0#8)
    ∧ (let s := { start with digits := { d0 := 0#4, d1 := 9#4, d2 := 1#4, d3 := 9#4 }, pos := 1 }
       s.pos = 1 ∧ s.params.segTab[s.digits.d1.toNat]? = some 0xA9#8)
    ∧ (let s := { start with pos := 2 }; s.pos = 2 ∧ s.params.segTab[s.digits.d2.toNat]? = some 0xA0#8)
    ∧ (let s := { start with pos := 3 }; s.pos = 3 ∧ s.params.segTab[s.digits.d3.toNat]? = some 0xA0#8)
    ∧ (let s := { start with digits := { d0 := 0#4, d1 := 10#4, d2 := 0#4, d3 := 0#4 }, pos := 1 }
       9 < (Digits.get s.digits s.pos).toNat) := by decide

/-- MsEventParts: the default RELEASE_POLL_MS. -/
theorem witness_MsEventParts : outsideRules start = none ∧ start.params.releasePollMs = 1 := by decide

/-- ScannerIgnoresTheForeground: the host blocked in READ, and the handler in RELEASE. -/
theorem witness_ScannerIgnoresTheForeground :
    let s := inPhase 0x100000#24 .read
    let s' := handlerIn .release
    outsideRules s = none ∧ outsideRules s' = none ∧ s.pos = s'.pos ∧ s.digits = s'.digits
      ∧ s.params.segTab = s'.params.segTab ∧ s.params.numDigits = s'.params.numDigits := by decide

/-- RotationVisitsEveryPosition: with DIGITS[1] lit. -/
theorem witness_RotationVisitsEveryPosition :
    let s := { start with digits := { d0 := 0#4, d1 := 1#4, d2 := 2#4, d3 := 3#4 } }
    outsideRules s = none ∧ s.params.numDigits = 4 ∧ 1 ≤ 4 ∧ s.digits.d1 ≠ 0#4 := by decide

/-- ByteArrival: room for one byte, and a full queue under each policy. -/
theorem witness_ByteArrival :
    (let s := { start with params := { params with rxFifoDepth := 1 } }
     1 ≤ s.params.rxFifoDepth ∧ s.rxq.length < s.params.rxFifoDepth)
    ∧ ([OverrunPolicy.dropNew, .dropOldest].all fun o =>
      let s := { start with params := { params with rxFifoDepth := 1, rxOverrunPolicy := o }, rxq := [0x42#8] }
      1 ≤ s.params.rxFifoDepth ∧ s.rxq.length ≤ s.params.rxFifoDepth ∧ s.rxq.length = s.params.rxFifoDepth
        ∧ s.params.rxOverrunPolicy = o ∧ s.rxq = 0x42#8 :: []) = true := by decide

/-- ButtonEvent: a fall in IDLE, a fall while busy under each policy, and no fall. -/
theorem witness_ButtonEvent :
    (start.btnLine = true ∧ start.swState = .idle)
    ∧ ([EdgePolicy.latchOne, .discard].all fun e =>
      let s := { handlerIn .release with params := quick e }
      s.btnLine = true ∧ s.swState ≠ .idle ∧ s.params.edgePendingPolicy = e) = true
    ∧ { start with btnLine := false }.btnLine = false := by decide

/-- ResetEventResetsEverything: two states that differ and share parameters and schedule. -/
theorem witness_ResetEventResetsEverything : let s := commanded 0x600000#24
    let s' := handlerIn .release
    s ≠ s' ∧ s.params = s'.params ∧ s.stim = s'.stim := by decide

/-- DebounceSamplesOnce: too few MS events, a press, an abort, and an abort into a latched edge. -/
theorem witness_DebounceSamplesOnce :
    let s := { start with params := quick .latchOne }
    outsideRules s = none ∧ s.swState = .idle ∧ s.btnLine = true
      ∧ ([].count Event.ms < s.params.debounceMs)
      ∧ (s.params.debounceMs ≤ [Event.ms].count .ms
        ∧ after (eventRun [.btn false, .ms] s) (·.btnLine) = some false)
      ∧ (s.params.debounceMs ≤ [Event.btn true, Event.ms].count .ms
        ∧ after (eventRun [.btn false, .btn true, .ms] s) (fun t => (t.btnLine, t.swPending)) = some (true, false))
      ∧ (s.params.debounceMs ≤ [Event.btn true, .btn false, .btn true, Event.ms].count .ms
        ∧ after (eventRun [.btn false, .btn true, .btn false, .btn true, .ms] s) (fun t => (t.btnLine, t.swPending))
          = some (true, true)) := by decide

/-- ModeAdvanceCycles: one, two and three modes, from each mode; with two, mode 1 goes back to mode 0. -/
theorem witness_ModeAdvanceCycles :
    ([1, 2, 3].all fun n => [0#2, 1#2, 2#2].all fun m =>
      let s := { handlerIn .actMode with mode := m, params := { params with numModes := n } }
      s.swState = .actMode ∧ s.mode ≠ 3#2 ∧ 1 ≤ s.params.numModes ∧ s.params.numModes ≤ 3) = true
    ∧ after (fgStep { handlerIn .actMode with mode := 1#2, params := { params with numModes := 2 } })
        (fun t => (t.mode, t.indOut)) = some (0#2, 0b001#3) := by decide

/-- HandlerRefreshesTheDisplay. -/
theorem witness_HandlerRefreshesTheDisplay :
    let s := { handlerIn .read with rdSw := { ph := .h0, idx := 0#5 }, mode := 2#2, rxq := goodFrame }
    s.params.wf = true ∧ s.swState = .read ∧ s.rdSw = { ph := .h0, idx := 0#5 } ∧ s.rxq = goodFrame ++ []
      ∧ goodFrame.length = s.params.frameLen ∧ goodFrame[0]? = some s.params.hdr0 ∧ goodFrame[1]? = some s.params.hdr1
      ∧ (s.mode, 12) ∈ [(0#2, s.params.offPm1_0), (1#2, s.params.offPm2_5), (2#2, s.params.offPm10)] ∧ goodFrame[12]? = some 0x07#8 ∧ goodFrame[12 + 1]? = some 0x07#8 := by decide

/-- HandlerMismatchSkipsTheRefresh: at either header byte. -/
theorem witness_HandlerMismatchSkipsTheRefresh :
    (let s := { handlerIn .read with rdSw := { ph := .h0, idx := 0#5 }, rxq := [0x00#8] }
     s.swState = .read ∧ s.rxq = 0x00#8 :: [] ∧ s.rdSw.ph = .h0 ∧ (0x00#8 : Byte) ≠ s.params.hdr0)
    ∧ (let s := { handlerIn .read with rdSw := { ph := .h1, idx := 0#5 }, rxq := [0x42#8] }
       s.swState = .read ∧ s.rxq = 0x42#8 :: [] ∧ s.rdSw.ph = .h1 ∧ (0x42#8 : Byte) ≠ s.params.hdr1) := by decide

/-- ReleaseSampleExits: no sample due, still pressed, released, and released with an edge latched. -/
theorem witness_ReleaseSampleExits :
    [(false, true, false), (true, false, false), (true, true, false), (true, true, true)].all (fun (due, line, pending) =>
      let s := { handlerIn .release with swDue := due, btnLine := line, swPending := pending }
      s.swState = .release ∧ s.swDue = due ∧ s.btnLine = line ∧ s.swPending = pending) = true := by decide

/-- HandlerStealsTheHostsByte: at the first payload byte and at the last but one. -/
theorem witness_HandlerStealsTheHostsByte :
    [2, 30].all (fun k =>
      let s := { inPhase 0x380000#24 .read with
        rdHost := { ph := .pay, idx := BitVec.ofNat 5 k }, swState := .read, rdSw := { ph := .h0, idx := 0#5 },
        rxq := [0x00#8, 0x1A#8] }
      s.busy = true ∧ s.hostPhase = .read ∧ s.rdHost = { ph := .pay, idx := BitVec.ofNat 5 k } ∧ 2 ≤ k
        ∧ k + 1 < s.params.frameLen ∧ s.params.frameLen ≤ 32 ∧ s.swState = .read ∧ s.rdSw = { ph := .h0, idx := 0#5 }
        ∧ s.rxq = 0x00#8 :: 0x1A#8 :: [] ∧ (0x00#8 : Byte) ≠ s.params.hdr0 ∧ s.btnLine = true ∧ s.swPending = false) = true := by
  decide

/-- HeldButtonFreezesTheHost: the host in RDFRAME's reception, the button held in RELEASE. -/
theorem witness_HeldButtonFreezesTheHost :
    let s := { handlerIn .release with btnLine := false, swDue := true }
    let xs : List Move := [.fg, .event .ms, .event .tone, .event (.rxByte 0x42#8)]
    Inv s ∧ s.swState = .release ∧ s.btnLine = false
      ∧ ∀ x ∈ xs, x = .fg ∨ x = .event .ms ∨ x = .event .tone ∨ ∃ b, x = .event (.rxByte b) := by
  refine ⟨by constructor <;> decide, by decide, by decide, ?_⟩
  intro x hx
  simp only [List.mem_cons, List.not_mem_nil, or_false] at hx
  obtain rfl | rfl | rfl | rfl := hx <;> simp

/-- SensorStallNeverEnds: the handler receiving, and the host receiving. -/
theorem witness_SensorStallNeverEnds :
    (let s := { handlerIn .read with rdSw := { ph := .h0, idx := 0#5 } }
     Inv s ∧ s.rxq = [] ∧ s.swState = .read)
    ∧ (let s := handlerIn .idle
       Inv s ∧ s.rxq = [] ∧ s.swState = .idle ∧ s.hostPhase = .read)
    ∧ ∀ x ∈ [Move.fg, .event .ms, .event .tone], x = .fg ∨ x = .event .ms ∨ x = .event .tone :=
  ⟨⟨by constructor <;> decide, by decide, by decide⟩, ⟨by constructor <;> decide, by decide, by decide, by decide⟩, by decide⟩

/-- ResetIsSound. -/
theorem witness_ResetIsSound : params.wf = true := by decide

/-- StepKeepsTheInvariant: a sound state whose step answers a next state. -/
theorem witness_StepKeepsTheInvariant : Inv (commanded 0x40007B#24) ∧ ∃ t, step (commanded 0x40007B#24) = .next t :=
  ⟨by constructor <;> decide, _, rfl⟩

/-- SoundRunsNeverFault. -/
theorem witness_SoundRunsNeverFault : Inv (commanded 0x40007B#24) := witness_StepKeepsTheInvariant.1

/-- EachRegisterHasItsWriters: a turn of FG, an event that is no RESET, and a command. -/
theorem witness_EachRegisterHasItsWriters :
    (∃ t, moveStep .fg (commanded 0x600000#24) = .next t) ∧ (∃ t, moveStep (.event .ms) start = .next t)
    ∧ (∃ t, moveStep (.command 0x600000#24) start = .next t)
    ∧ (∀ b, Move.fg ≠ .event (.reset b)) ∧ (∀ b, Move.event .ms ≠ .event (.reset b)) :=
  ⟨⟨_, rfl⟩, ⟨_, rfl⟩, ⟨_, rfl⟩, by decide, by decide⟩

/-- ParametersNeverChange. -/
theorem witness_ParametersNeverChange : ∃ t, step { start with stim := [.event 0x100#12, .foreground] } = .next t := ⟨_, rfl⟩

/-- NominalCountsFitTheirWidths: R6's defaults, the largest DEBOUNCE_MS, a payload byte before the last and a digit write in
either context, and an MS event. -/
theorem witness_NominalCountsFitTheirWidths :
    (Inv start ∧ start.params.debounceMs ≤ 31 ∧ 2 * start.params.toneCycles ≤ 2047)
    ∧ (let s := { start with params := { params with debounceMs := 31 } }; Inv s ∧ s.params.debounceMs ≤ 31)
    ∧ (let s := { inPhase 0x100000#24 .read with rdHost := { ph := .pay, idx := 30#5 }, frameHost := goodBuffer }
       Inv s ∧ s.rdHost.ph = .pay ∧ s.rdHost.idx.toNat + 1 ≠ s.params.frameLen)
    ∧ (let s := { start with swState := .read, rdSw := { ph := .pay, idx := 2#5 }, frameSw := goodBuffer }
       Inv s ∧ s.rdSw.ph = .pay ∧ s.rdSw.idx.toNat + 1 ≠ s.params.frameLen)
    ∧ (let s := { inPhase 0x400007#24 .write with hostVal := 7#16, hostK := 3#3 }; Inv s ∧ s.hostPhase = .write)
    ∧ (let s := { start with swState := .write, swK := 3#3, frameValidSw := true, frameSw := goodBuffer }
       Inv s ∧ s.swState = .write)
    ∧ ∃ t, eventStep .ms start = .next t :=
  ⟨⟨start_sound, by decide, by decide⟩, ⟨by constructor <;> decide, by decide⟩,
    ⟨by constructor <;> decide, by decide, by decide⟩, ⟨by constructor <;> decide, by decide, by decide⟩,
    ⟨by constructor <;> decide, by decide⟩, ⟨by constructor <;> decide, by decide⟩, _, rfl⟩

/-- OutputsAreRegisterImages: either polarity. -/
theorem witness_OutputsAreRegisterImages :
    (start.params.segLevel = .activeHigh ∧ start.params.indLevel = .activeHigh)
    ∧ (start.params.dselLevel = .activeLow ∧ start.params.toneLevel = .activeLow)
    ∧ (let p := { params with segLevel := .activeLow, dselLevel := .activeHigh, indLevel := .activeLow, toneLevel := .activeHigh }
       p.segLevel = .activeLow ∧ p.dselLevel = .activeHigh ∧ p.indLevel = .activeLow ∧ p.toneLevel = .activeHigh) := by decide

/-- MainLoopAlarmLaw: a failed and a good measurement, a state that holds its saturated value, and POLL_INTERVAL_MS at the last
value WAITMS holds and one above it. -/
theorem witness_MainLoopAlarmLaw :
    ({ ok := false, value := 0#16 } : Result).ok = false ∧ ({ ok := true, value := 75#16 } : Result).ok = true
    ∧ (let s := { start with hostVal := 75#16 }
       s.params = params ∧ s.hostVal = saturated params 75#16 ∧ s.toneActive = false ∧ toneHalfPeriods params ≠ 0)
    ∧ { params with pollIntervalMs := 65535 }.pollIntervalMs < 65536
    ∧ 65536 ≤ { params with pollIntervalMs := 65536 }.pollIntervalMs := by decide

/-- FrameBufferReadsWhatWasWritten: a canonical buffer, and the last offset. -/
theorem witness_FrameBufferReadsWhatWasWritten : Memory.wf frameFA = true ∧ 31 < 32 := by decide

/-- SourceValuesAreTheDefaults: RX_FIFO_DEPTH at R6's bound and below it. -/
theorem witness_SourceValuesAreTheDefaults :
    1 ≤ { params with rxFifoDepth := 1 }.rxFifoDepth ∧ ¬ 1 ≤ { params with rxFifoDepth := 0 }.rxFifoDepth := by decide

/-- ReceiveMicroStep, the host's: either header byte good and bad, a payload byte before the last, and the last byte of RDFRAME, of an
explicit MEASURE and of MEASURE CUR. -/
theorem witness_ReceiveMicroStep :
    ([(0x42#8, RxPhase.h0, 0#5), (0x41#8, .h0, 0#5), (0x4D#8, .h1, 0#5), (0x42#8, .h1, 0#5), (0x99#8, .pay, 2#5),
      (0x99#8, .pay, 30#5), (0x99#8, .pay, 31#5)].all fun (b, ph, idx) =>
      [(0x100000#24, Instr.rdframe), (0x330000#24, .measure 3#2), (0x380000#24, .measureCur)].all fun (w, i) =>
        let s := { inPhase w .read with rdHost := { ph := ph, idx := idx }, rxq := [b] }
        s.swState = .idle ∧ s.busy = true ∧ s.hostPhase = .read ∧ s.rxq = b :: [] ∧ s.rdHost.ph = ph ∧ decode s.cmd = i) = true
    ∧ 0x42#8 = params.hdr0 ∧ (0x41#8 : Byte) ≠ params.hdr0 ∧ 0x4D#8 = params.hdr1 ∧ (0x42#8 : Byte) ≠ params.hdr1
    ∧ (30#5).toNat + 1 ≠ params.frameLen ∧ (31#5).toNat + 1 = params.frameLen := by decide

/-- ReceiveMicroStep, the handler's: either header byte, a payload byte before the last, and the last. -/
theorem witness_ReceiveMicroStep_handler :
    ([(0x42#8, RxPhase.h0, 0#5), (0x4D#8, .h1, 0#5), (0x99#8, .pay, 30#5), (0x99#8, .pay, 31#5)].all fun (b, ph, idx) =>
      let s := { handlerIn .read with rdSw := { ph := ph, idx := idx }, rxq := [b] }
      s.swState = .read ∧ s.rxq = b :: [] ∧ s.rdSw.ph = ph) = true
    ∧ 0x42#8 = params.hdr0 ∧ 0x4D#8 = params.hdr1 ∧ (30#5).toNat + 1 ≠ params.frameLen
    ∧ (31#5).toNat + 1 = params.frameLen := by decide

/-- FrameArrivesByteByByte: RX_FIFO_DEPTH = 1, RDFRAME, an explicit MEASURE and MEASURE CUR, and the handler. -/
theorem witness_FrameArrivesByteByByte :
    ([(0x100000#24, Instr.rdframe), (0x330000#24, .measure 3#2), (0x380000#24, .measureCur)].all fun (w, i) =>
      let s := { inPhase w .read with rdHost := { ph := .h0, idx := 0#5 }, params := { params with rxFifoDepth := 1 } }
      s.params.wf = true ∧ s.rxq = [] ∧ goodFrame.length = s.params.frameLen ∧ goodFrame[0]? = some s.params.hdr0
        ∧ goodFrame[1]? = some s.params.hdr1 ∧ s.swState = .idle ∧ s.busy = true ∧ s.hostPhase = .read
        ∧ s.rdHost = { ph := .h0, idx := 0#5 } ∧ decode s.cmd = i) = true
    ∧ (let s := { handlerIn .read with rdSw := { ph := .h0, idx := 0#5 }, params := { params with rxFifoDepth := 1 } }
       s.params.wf = true ∧ s.rxq = [] ∧ goodFrame.length = s.params.frameLen ∧ goodFrame[0]? = some s.params.hdr0
        ∧ goodFrame[1]? = some s.params.hdr1 ∧ s.swState = .read ∧ s.rdSw = { ph := .h0, idx := 0#5 }) := by decide

/-- ReleasePollClock: RELEASE_POLL_MS at its bound and above it; the clock itself one strobe short of the sample and at it. -/
theorem witness_ReleasePollClock :
    ([1, 3].all fun n =>
      let s := { handlerIn .release with params := { params with releasePollMs := n } }
      outsideRules s = none ∧ s.swState = .release ∧ s.swPoll = 0 ∧ s.swDue = false ∧ 1 ≤ s.params.releasePollMs) = true
    ∧ (let s := { handlerIn .release with params := { params with releasePollMs := 3 } }
       after (eventRun [.ms, .ms] s) (·.swDue) = some false ∧ after (eventRun [.ms, .ms, .ms] s) (·.swDue) = some true) := by
  decide

end Sys2Proof.Tests
end

section
/-! PROOF. The scope of the model (00_scope.md): what a step takes from the schedule, which states it faults in, that it
leaves the parameters alone, and R6's table of values. -/

namespace Sys2Proof.Machine

/-! ## Which states are outside the rules, and what a step takes (R10, R234) -/

/-- R234's list: the states outside the rules, whichever fault each is given. -/
theorem exists_outsideRules_iff {s : State} : (∃ f, outsideRules s = some f) ↔
    (s.hostPhase = .reserved ∨ s.swState = .reserved ∨ s.mode = 3#2 ∨ 4 < s.status.toNat
      ∨ 9 < s.digits.d0.toNat ∨ 9 < s.digits.d1.toNat ∨ 9 < s.digits.d2.toNat ∨ 9 < s.digits.d3.toNat
      ∨ s.digits.d0 ≠ 0#4) := by
  -- DIGITS[0] = 0 already rules out a DIGITS[0] above 9, which `outsideRules_eq_none` does not list.
  have hd0 : 9 < s.digits.d0.toNat → s.digits.d0 ≠ 0#4 := by
    intro h h0; simp [h0] at h
  rw [← Option.ne_none_iff_exists', ne_eq, outsideRules_eq_none]
  simp only [ne_eq, not_and_or, not_not, not_le]
  tauto

theorem step_of_outside {s : State} {f : Fault} (h : outsideRules s = some f) : step s = .fault f := by
  simp [step, h]

section Inside
variable {s : State} (hin : outsideRules s = none)
include hin

theorem step_of_nil (h : s.stim = []) : step s = fgStep s := by
  simp [step, hin, h]

theorem step_of_cons {x : Stimulus} {rest : List Stimulus} (h : s.stim = x :: rest) :
    step s = stimulusStep x { s with stim := rest } := by
  simp [step, hin, h]

end Inside

/-- A step that answers a next state is a turn of FG with nothing scheduled, or the first scheduled move. -/
theorem step_cases {s t : State} (h : step s = .next t) :
    (s.stim = [] ∧ fgStep s = .next t)
    ∨ ∃ x rest, s.stim = x :: rest ∧ stimulusStep x { s with stim := rest } = .next t := by
  cases hout : outsideRules s with
  | some f => simp [step_of_outside hout] at h
  | none =>
    cases hs : s.stim with
    | nil => exact .inl ⟨rfl, step_of_nil hout hs ▸ h⟩
    | cons x rest => exact .inr ⟨x, rest, rfl, step_of_cons hout hs ▸ h⟩

theorem eventWordStep_of_decode {w : EventWord} {e : Event} (h : decodeEvent w = some e) (s : State) :
    eventWordStep w s = eventStep e s := by
  simp [eventWordStep, h]

theorem eventWordStep_of_reserved {w : EventWord} (h : decodeEvent w = none) (s : State) :
    eventWordStep w s = .refused .reservedEvent := by
  simp [eventWordStep, h]

/-- Settles O9, by R234's list and the equations of a step. -/
theorem stepTakesTheNextMove : Obligations.StepTakesTheNextMove := by
  intro s
  refine ⟨exists_outsideRules_iff, fun f => step_of_outside, fun hin => ⟨step_of_nil hin, ?_, ?_, ?_, ?_⟩⟩
  · intro rest hs
    exact step_of_cons hin hs
  · intro w rest hs
    exact step_of_cons hin hs
  · intro w e rest hs he
    exact (step_of_cons hin hs).trans (eventWordStep_of_decode he _)
  · intro w rest hs he
    exact (step_of_cons hin hs).trans (eventWordStep_of_reserved he _)

/-! ## No operation writes the parameters or the schedule (R6; log 1, 3) -/

/-- t has the parameters and the schedule of s. -/
def SameSetup (s t : State) : Prop := t.params = s.params ∧ t.stim = s.stim

@[simp] theorem stim_received (c : Ctx) (m : Memory) (r : Rd) (q : List Byte) (s : State) :
    (received c m r q s).stim = s.stim := by cases c <;> rfl

theorem receive_sameSetup {c : Ctx} {s t : State} {o : RxOutcome} (h : receive c s = some (o, t)) : SameSetup s t := by
  obtain ⟨b, q, -, hcases⟩ := receive_cases h
  obtain ⟨-, -, -, rfl⟩ | ⟨-, -, -, rfl⟩ | ⟨-, -, -, rfl⟩ | ⟨-, -, -, rfl⟩ | ⟨-, -, -, rfl⟩ | ⟨-, -, -, rfl⟩ := hcases <;>
    simp [SameSetup]

theorem putDigit_sameSetup {k : BitVec 3} {v : Half} {s t : State} (h : putDigit k v s = some t) : SameSetup s t := by
  obtain ⟨i, -, rfl⟩ := putDigit_cases h
  exact ⟨rfl, rfl⟩

theorem handlerExit_sameSetup (s : State) : SameSetup s (handlerExit s) :=
  ⟨handlerExit_params s, handlerExit_stim s⟩

/-- A turn of FG: the receives and the digit writes go by their own lemmas, and every other micro-step writes registers
that are neither. -/
theorem fgStep_sameSetup {s t : State} (h : fgStep s = .next t) : SameSetup s t := by
  cases fgStep_cases h with
  | hostMore _ hr | hostMismatch _ hr | hostFrame _ _ hr | hostMeasured _ _ hr | swMore _ hr | swMismatch _ hr
  | swFrame _ hr =>
    obtain ⟨hp, hstim⟩ := receive_sameSetup hr
    exact ⟨hp, hstim⟩
  | hostDigit _ _ hd | hostLastDigit _ _ hd | swDigit _ _ hd | swLastDigit _ _ hd =>
    obtain ⟨hp, hstim⟩ := putDigit_sameSetup hd
    exact ⟨hp, hstim⟩
  | debounceAbort => exact handlerExit_sameSetup s
  | releaseExit => exact handlerExit_sameSetup { s with swDue := false }
  | startTone => exact ⟨toneStart_params s, toneStart_stim s⟩
  | _ => exact ⟨rfl, rfl⟩

/-- An event: RESET too keeps both, for neither is a register (R262). -/
theorem eventStep_sameSetup {e : Event} {s t : State} (h : eventStep e s = .next t) : SameSetup s t := by
  cases e with
  | reset b => injection h with h; subst h; exact ⟨rfl, rfl⟩
  | ms =>
    simp only [eventStep, msEvent] at h
    split at h
    · simp at h
    · next u hu =>
      obtain ⟨seg, sel, rfl, -⟩ := scanTick_cases hu
      injection h with h; subst h; exact ⟨rfl, rfl⟩
  | tone => obtain ⟨-, rfl⟩ | ⟨-, -, rfl⟩ | ⟨n, -, -, rfl⟩ := toneEvent_cases h <;> exact ⟨rfl, rfl⟩
  | rxByte b => injection h with h; subst h; exact ⟨rfl, rfl⟩
  | btn l =>
    injection h with h; subst h
    obtain ⟨-, -, -, hb⟩ | ⟨-, -, -, -, hb⟩ | ⟨-, hb⟩ := btnEvent_cases l s <;> rw [hb] <;> exact ⟨rfl, rfl⟩

theorem presentCommand_sameSetup {w : CmdWord} {s t : State} (h : presentCommand w s = .next t) : SameSetup s t := by
  unfold presentCommand at h
  split at h
  · simp at h
  · injection h with h; subst h; exact ⟨acceptCommand_params w s, acceptCommand_stim w s⟩

theorem stimulusStep_sameSetup {x : Stimulus} {s t : State} (h : stimulusStep x s = .next t) : SameSetup s t := by
  cases x with
  | foreground => exact fgStep_sameSetup h
  | command w => exact presentCommand_sameSetup h
  | event w =>
    cases he : decodeEvent w with
    | none => simp [stimulusStep, eventWordStep_of_reserved he] at h
    | some e => exact eventStep_sameSetup ((eventWordStep_of_decode he s).symm.trans h)

/-- Settles O52: a step only drops the head of the schedule, and the move it then makes keeps parameters and schedule. -/
theorem parametersNeverChange : Obligations.ParametersNeverChange := by
  intro s t h
  obtain ⟨hs, hfg⟩ | ⟨x, rest, hs, hx⟩ := step_cases h
  · obtain ⟨hp, hstim⟩ := fgStep_sameSetup hfg
    exact ⟨hp, by simp [hstim, hs]⟩
  · obtain ⟨hp, hstim⟩ := stimulusStep_sameSetup hx
    exact ⟨hp, by simp [hstim, hs]⟩

/-! ## R6's table (log 14) -/

/-- Settles O56: every value is a field's default or computed from one, and of Params.wf's bounds the defaults leave only
the one on RX_FIFO_DEPTH open (RESET_MODE is below 3 by its type). -/
theorem sourceValuesAreTheDefaults : Obligations.SourceValuesAreTheDefaults := by
  intro r d o e g l1 l2 l3 l4 p
  have hmode : p.resetMode.val < p.numModes := r.isLt
  have hcycles : p.toneCycles = 600 := by
    simp [Params.toneCycles, p]
  have hwf : p.wf = true ↔ 1 ≤ d := by
    simp [Params.wf, hmode, p]
  exact ⟨rfl, rfl, rfl, rfl, rfl, rfl, rfl, rfl, rfl, rfl, rfl, rfl, rfl, rfl, hcycles, rfl, rfl, rfl, rfl, hwf⟩

end Sys2Proof.Machine
end

section
/-! PROOF. The invariant (10_state.md sections 3 to 7) as a few parts, each over its own registers, and the registers
at rest in each phase. -/

namespace Sys2Proof.Machine

/-! ## The invariant, by the registers its clauses speak of

Each part is over a few registers, so that a move that leaves them leaves the part as it stands. -/

/-- The host's phase: what else its registers hold in it. -/
def HostSound (s : State) : Prop :=
  (s.hostPhase = .idle ↔ s.busy = false) ∧ phaseFitsCommand s.hostPhase s.cmd = true ∧ s.hostVal = s.cmd.imm16
  ∧ (s.hostPhase = .read ↔ s.rdHost.ph ≠ .none) ∧ (s.hostPhase = .extract → s.frameValidHost = true)
  ∧ (s.hostPhase = .write → s.hostK.toNat < 4) ∧ (s.hostCnt ≠ 0#16 → s.hostPhase = .count)
  ∧ (s.toneActive = true → s.hostPhase = .toneWait)

/-- The handler's state: what else its registers hold in it. -/
def HandlerSound (s : State) : Prop :=
  s.swState ≠ .reserved ∧ (s.swState = .read ↔ s.rdSw.ph ≠ .none) ∧ (s.swState = .extract → s.frameValidSw = true)
  ∧ (s.swState = .write → s.swK.toNat < 4) ∧ s.swCnt ≤ s.params.debounceMs ∧ (s.swCnt ≠ 0 → s.swState = .debounce)
  ∧ (s.swDue = true → s.swState = .release) ∧ s.swPoll < s.params.releasePollMs
  ∧ (s.swPending = true → s.swState ≠ .idle ∧ s.params.edgePendingPolicy = .latchOne)

/-- RXQ is bounded, and each context's reception agrees with its buffer. -/
def ReceptionsSound (s : State) : Prop :=
  s.rxq.length ≤ s.params.rxFifoDepth ∧ receptionSound s.params s.rdHost s.frameValidHost s.frameHost = true
  ∧ receptionSound s.params s.rdSw s.frameValidSw s.frameSw = true

/-- The digits are decimal, and DIGITS[0] is 0. -/
def DigitsSound (d : Digits) : Prop :=
  d.d0 = 0#4 ∧ d.d1.toNat ≤ 9 ∧ d.d2.toNat ≤ 9 ∧ d.d3.toNat ≤ 9

/-- At most one digit is selected, and none is lit with none selected. -/
def ScanSound (s : State) : Prop := (s.dselOut = 0#4 ∧ s.segOut = 0#8) ∨ ∃ p, s.dselOut = selectLine p

/-- RESULT and STATUS are an outcome of R26 and R27. -/
def ResultSound (r : Result) (e : BitVec 3) : Prop :=
  e.toNat ≤ 4 ∧ if r.ok then e = errNone else r.value = 0x0000#16

namespace Inv
variable {s : State} (hs : Inv s)
include hs

theorem hostSound : HostSound s :=
  ⟨hs.idle_iff_not_busy, hs.phase_fits, hs.host_val, hs.host_reads, hs.host_extract_ready, hs.host_k, hs.host_cnt,
    hs.tone_waited⟩

theorem handlerSound : HandlerSound s := by
  obtain ⟨-, hne, -⟩ := outsideRules_eq_none.mp hs.inside_rules
  obtain ⟨hcnt, hdeb⟩ := hs.sw_cnt
  exact ⟨hne, hs.sw_reads, hs.sw_extract_ready, hs.sw_k, hcnt, hdeb, hs.sw_due, hs.sw_poll, hs.sw_pending⟩

theorem receptionsSound : ReceptionsSound s := ⟨hs.rxq_bound, hs.host_reception, hs.sw_reception⟩

theorem digitsSound : DigitsSound s.digits := by
  obtain ⟨-, -, -, -, hdig⟩ := outsideRules_eq_none.mp hs.inside_rules
  exact hdig

theorem resultSound : ResultSound s.result s.status := by
  obtain ⟨-, -, -, hst, -⟩ := outsideRules_eq_none.mp hs.inside_rules
  exact ⟨hst, hs.result_form⟩

theorem mode_ne_three : s.mode ≠ 3#2 := by
  obtain ⟨-, -, hmode, -⟩ := outsideRules_eq_none.mp hs.inside_rules
  exact hmode

/-- Context c's reception agrees with its buffer. -/
theorem reception (c : Ctx) : receptionSound s.params (rd c s) (frameValid c s) (frame c s) = true :=
  match c with
  | .host => hs.host_reception
  | .sw => hs.sw_reception

/-- Outside READ the host receives nothing. -/
theorem rdHost_none (h : s.hostPhase ≠ .read) : s.rdHost.ph = .none := by
  simpa [h] using hs.host_reads

theorem rdSw_none (h : s.swState ≠ .read) : s.rdSw.ph = .none := by
  simpa [h] using hs.sw_reads

theorem hostCnt_zero (h : s.hostPhase ≠ .count) : s.hostCnt = 0#16 := by
  by_contra hc; exact h (hs.host_cnt hc)

theorem toneActive_false (h : s.hostPhase ≠ .toneWait) : s.toneActive = false := by
  by_contra hc; exact h (hs.tone_waited (by simpa using hc))

theorem swCnt_zero (h : s.swState ≠ .debounce) : s.swCnt = 0 := by
  by_contra hc; exact h (hs.sw_cnt.2 hc)

theorem swDue_false (h : s.swState ≠ .release) : s.swDue = false := by
  by_contra hc; exact h (hs.sw_due (by simpa using hc))

/-- At START, and wherever a command completes without a receive or a digit write, the host receives and counts nothing and
no tone sounds. -/
theorem host_at_rest (hp : hostIn .start s ∨ hostIn .extract s ∨ (hostIn .toneWait s ∧ s.toneActive = false)
    ∨ (hostIn .count s ∧ s.hostCnt = 0#16)) :
    s.rdHost.ph = .none ∧ s.hostCnt = 0#16 ∧ s.toneActive = false := by
  obtain ⟨-, -, hp⟩ | ⟨-, -, hp⟩ | ⟨⟨-, -, hp⟩, ha⟩ | ⟨⟨-, -, hp⟩, hc⟩ := hp
  · exact ⟨hs.rdHost_none (by simp [hp]), hs.hostCnt_zero (by simp [hp]), hs.toneActive_false (by simp [hp])⟩
  · exact ⟨hs.rdHost_none (by simp [hp]), hs.hostCnt_zero (by simp [hp]), hs.toneActive_false (by simp [hp])⟩
  · exact ⟨hs.rdHost_none (by simp [hp]), hs.hostCnt_zero (by simp [hp]), ha⟩
  · exact ⟨hs.rdHost_none (by simp [hp]), hc, hs.toneActive_false (by simp [hp])⟩

end Inv

theorem indicator_three : indicator 3#2 = none := rfl

/-- The invariant is its parts: that no state of R234 is reached follows from the clauses that name each register's range. -/
theorem inv_iff {s : State} : Inv s ↔
    s.params.wf = true ∧ HostSound s ∧ HandlerSound s ∧ ReceptionsSound s ∧ DigitsSound s.digits ∧ ScanSound s
    ∧ ResultSound s.result s.status ∧ indicator s.mode = some s.indOut
    ∧ toneSound s.params s.toneActive s.toneLeft s.toneOut = true := by
  constructor
  · intro h
    exact ⟨h.params_wf, h.hostSound, h.handlerSound, h.receptionsSound, h.digitsSound, h.one_digit, h.resultSound,
      h.indicator_shows_mode, h.tone_sound⟩
  · rintro ⟨hwf, ⟨hidle, hfits, hval, hreads, hext, hk, hcnt, hwait⟩,
      ⟨hne, hsreads, hsext, hsk, hscnt, hsdeb, hsdue, hspoll, hspend⟩, ⟨hq, hrec, hsrec⟩, hdig, hscan, ⟨hst, hform⟩, hind,
      htone⟩
    have hmode : s.mode ≠ 3#2 := by
      intro h; rw [h, indicator_three] at hind; cases hind
    have hph : s.hostPhase ≠ .reserved := by
      intro h; rw [h] at hfits; cases hfits
    exact ⟨hwf, outsideRules_eq_none.mpr ⟨hph, hne, hmode, hst, hdig⟩, hidle, hfits, hval, hform, hind, hscan, hq, hrec,
      hsrec, hreads, hsreads, hext, hsext, hk, hsk, hcnt, ⟨hscnt, hsdeb⟩, hsdue, hspoll, hspend, htone, hwait⟩

end Sys2Proof.Machine
end

section
/-! PROOF. What each move writes (R40): everything an event can do, and, register by register, when a turn of FG writes it. -/

namespace Sys2Proof.Machine

/-! ## Everything an event can do -/

/-- What an event does. -/
inductive EventMove (s : State) : Event → State → Prop
  /-- Every register takes its reset value (R262). -/
  | reset (b : Bool) : EventMove s (.reset b) (State.resetWith s.params b s.stim)
  /-- The scan tick and the three counts (R240). -/
  | ms {seg : Byte} {sel : BitVec 4} (hsel : (blankPosition s = true ∧ sel = 0#4 ∧ seg = 0#8)
      ∨ (blankPosition s = false ∧ sel = selectLine s.pos ∧ segCode s.params (Digits.get s.digits s.pos) = some seg)) :
      EventMove s .ms { s with
        segOut := seg, dselOut := sel, pos := nextPosition s.params s.pos, swCnt := debounceCount s, swDue := releaseDue s,
        swPoll := pollCount s, hostCnt := waitCount s }
  /-- With no tone a TONE event does nothing. -/
  | toneRest (ha : s.toneActive = false) : EventMove s .tone s
  /-- The last half-period ends the tone. -/
  | toneEnd (ha : s.toneActive = true) (hl : s.toneLeft = 1) :
      EventMove s .tone { s with toneLeft := 0, toneOut := false, toneActive := false }
  /-- A half-period before the last turns the line over. -/
  | toneHalf {n : Nat} (ha : s.toneActive = true) (hl : s.toneLeft = n + 2) :
      EventMove s .tone { s with toneLeft := n + 1, toneOut := !s.toneOut }
  /-- A byte arrives (R111). -/
  | rxByte (b : Byte) : EventMove s (.rxByte b) (rxByteEvent b s)
  /-- A fall in IDLE enters the handler (R161). -/
  | press {l : Bool} (hb : s.btnLine = true) (hl : l = false) (hsw : s.swState = .idle) :
      EventMove s (.btn l) { s with btnLine := l, swState := .debounce, swCnt := s.params.debounceMs }
  /-- A fall while the handler is busy is latched (R160). -/
  | latch {l : Bool} (hb : s.btnLine = true) (hl : l = false) (hsw : s.swState ≠ .idle)
      (hp : s.params.edgePendingPolicy = .latchOne) :
      EventMove s (.btn l) { s with btnLine := l, swPending := true }
  /-- Only the line's level changes. -/
  | level {l : Bool}
      (h : s.btnLine = false ∨ l = true ∨ (s.swState ≠ .idle ∧ s.params.edgePendingPolicy = .discard)) :
      EventMove s (.btn l) { s with btnLine := l }

/-- An event that answers a state is one of the moves of `EventMove`. -/
theorem eventStep_cases {e : Event} {s t : State} (h : eventStep e s = .next t) : EventMove s e t := by
  cases e with
  | reset b => injection h with h; subst h; exact .reset b
  | ms =>
    simp only [eventStep, msEvent] at h
    split at h
    · simp at h
    · next u hu =>
      obtain ⟨seg, sel, rfl, hsel⟩ := scanTick_cases hu
      injection h with h; subst h
      exact .ms hsel
  | tone =>
    obtain ⟨ha, rfl⟩ | ⟨ha, hl, rfl⟩ | ⟨n, ha, hl, rfl⟩ := toneEvent_cases h
    · exact .toneRest ha
    · exact .toneEnd ha hl
    · exact .toneHalf ha hl
  | rxByte b => injection h with h; subst h; exact .rxByte b
  | btn l =>
    injection h with h; subst h
    obtain ⟨hb, hl, hsw, he⟩ | ⟨hb, hl, hsw, hp, he⟩ | ⟨hn, he⟩ := btnEvent_cases l s <;> rw [he]
    · exact .press hb hl hsw
    · exact .latch hb hl hsw hp
    · exact .level hn

/-! ## What a turn of FG writes -/

/-- Starting the tone: nothing where a tone has no half-period, else the tone's three registers (R190). -/
theorem toneStart_cases (s : State) :
    (toneHalfPeriods s.params = 0 ∧ toneStart s = s)
    ∨ (toneHalfPeriods s.params ≠ 0
      ∧ toneStart s = { s with toneActive := true, toneLeft := toneHalfPeriods s.params, toneOut := true }) := by
  unfold toneStart
  split
  · next h => exact .inl ⟨h, rfl⟩
  · next h => exact .inr ⟨h, rfl⟩

/-- What a turn of FG writes: each register is as it was, or the turn is its writer's (R40). A move names the registers it
writes; the others are unchanged by `rfl`. -/
structure FgWrites (s t : State) : Prop where
  scanner : t.pos = s.pos ∧ t.segOut = s.segOut ∧ t.dselOut = s.dselOut := by exact ⟨rfl, rfl, rfl⟩
  port : t.cmd = s.cmd ∧ t.hostVal = s.hostVal := by exact ⟨rfl, rfl⟩
  line : t.btnLine = s.btnLine := by rfl
  mode : (t.mode = s.mode ∧ t.indOut = s.indOut) ∨ (s.swState = .actMode ∧ indicator t.mode = some t.indOut) := by
    exact .inl ⟨rfl, rfl⟩
  digits : t.digits = s.digits
    ∨ ((s.swState = .write ∨ hostIn .write s) ∧ ∃ i n, t.digits = Digits.set s.digits i (digitOf n i)) := by exact .inl rfl
  tone : (t.toneActive = s.toneActive ∧ t.toneLeft = s.toneLeft ∧ t.toneOut = s.toneOut)
    ∨ (hostIn .start s ∧ toneHalfPeriods s.params ≠ 0
      ∧ t.toneActive = true ∧ t.toneLeft = toneHalfPeriods s.params ∧ t.toneOut = true) := by exact .inl ⟨rfl, rfl, rfl⟩
  result : (t.result = s.result ∧ t.status = s.status)
    ∨ (s.swState = .idle ∧ s.busy = true ∧ ResultSound t.result t.status) := by exact .inl ⟨rfl, rfl⟩
  hostReception : (t.frameHost = s.frameHost ∧ t.frameValidHost = s.frameValidHost ∧ t.rdHost = s.rdHost)
    ∨ hostIn .start s ∨ hostIn .read s := by exact .inl ⟨rfl, rfl, rfl⟩
  swReception : (t.frameSw = s.frameSw ∧ t.frameValidSw = s.frameValidSw ∧ t.rdSw = s.rdSw)
    ∨ s.swState = .actMode ∨ s.swState = .read := by exact .inl ⟨rfl, rfl, rfl⟩
  rxq : t.rxq = s.rxq ∨ s.swState = .read ∨ hostIn .read s := by exact .inl rfl
  host : (t.busy = s.busy ∧ t.hostPhase = s.hostPhase ∧ t.hostK = s.hostK ∧ t.hostCnt = s.hostCnt) ∨ s.swState = .idle := by
    exact .inl ⟨rfl, rfl, rfl, rfl⟩
  handler : (t.swVal = s.swVal ∧ t.swK = s.swK ∧ t.swState = s.swState ∧ t.swPending = s.swPending ∧ t.swCnt = s.swCnt
      ∧ t.swDue = s.swDue ∧ t.swPoll = s.swPoll) ∨ s.swState ≠ .idle := by exact .inl ⟨rfl, rfl, rfl, rfl, rfl, rfl, rfl⟩

theorem resultSound_ok (v : Half) : ResultSound { ok := true, value := v } errNone := ⟨by decide, rfl⟩

theorem resultSound_hdrMismatch : ResultSound { ok := false, value := 0x0000#16 } errHdrMismatch := ⟨by decide, rfl⟩

/-- Each micro-step writes what R40 lets it write. -/
theorem FgMove.writes {s t : State} (h : FgMove s t) : FgWrites s t := by
  cases h with
  | stay => exact {}
  | complete hp hform he =>
    have hrun : s.swState = .idle ∧ s.busy = true := by
      obtain ⟨hq, hb, -⟩ | ⟨hq, hb, -⟩ | ⟨⟨hq, hb, -⟩, -⟩ | ⟨⟨hq, hb, -⟩, -⟩ := hp <;> exact ⟨hq, hb⟩
    exact { result := .inr ⟨hrun.1, hrun.2, he, hform⟩, host := .inr hrun.1 }
  | startRead hp => exact { hostReception := .inr (.inl hp), host := .inr hp.1 }
  | startWrite hp | startCount hp => exact { host := .inr hp.1 }
  | startTone hp =>
    obtain ⟨-, he⟩ | ⟨hn, he⟩ := toneStart_cases s <;> rw [toneAndWait, he]
    · exact { host := .inr hp.1 }
    · exact { tone := .inr ⟨hp, hn, rfl, rfl, rfl⟩, host := .inr hp.1 }
  | hostMore hp hr | hostMeasured hp _ hr =>
    obtain ⟨m, r, q, v, rfl⟩ := receive_frame_host hr
    exact { hostReception := .inr (.inr hp), rxq := .inr (.inr hp), host := .inr hp.1 }
  | hostMismatch hp hr =>
    obtain ⟨m, r, q, v, rfl⟩ := receive_frame_host hr
    exact { hostReception := .inr (.inr hp), rxq := .inr (.inr hp), host := .inr hp.1
            result := .inr ⟨hp.1, hp.2.1, resultSound_hdrMismatch⟩ }
  | hostFrame hp _ hr =>
    obtain ⟨m, r, q, v, rfl⟩ := receive_frame_host hr
    exact { hostReception := .inr (.inr hp), rxq := .inr (.inr hp), host := .inr hp.1
            result := .inr ⟨hp.1, hp.2.1, resultSound_ok _⟩ }
  | hostDigit hp _ hd =>
    obtain ⟨i, -, rfl⟩ := putDigit_cases hd
    exact { digits := .inr ⟨.inr hp, i, _, rfl⟩, host := .inr hp.1 }
  | hostLastDigit hp _ hd =>
    obtain ⟨i, -, rfl⟩ := putDigit_cases hd
    exact { digits := .inr ⟨.inr hp, i, _, rfl⟩, host := .inr hp.1, result := .inr ⟨hp.1, hp.2.1, resultSound_ok _⟩ }
  | debounceAbort hq =>
    obtain ⟨-, he⟩ | ⟨-, he⟩ := handlerExit_cases s <;> rw [he] <;> exact { handler := .inr (by simp [hq]) }
  | releaseExit hq =>
    obtain ⟨-, he⟩ | ⟨-, he⟩ := handlerExit_cases { s with swDue := false } <;> rw [he] <;>
      exact { handler := .inr (by simp [hq]) }
  | debouncePress hq | swValue hq | releaseWait hq => exact { handler := .inr (by simp [hq]) }
  | advance hq _ hi =>
    exact { mode := .inr ⟨hq, hi⟩, swReception := .inr (.inl hq), handler := .inr (by simp [hq]) }
  | swMore hq hr | swMismatch hq hr | swFrame hq hr =>
    obtain ⟨m, r, q, v, rfl⟩ := receive_frame_sw hr
    exact { swReception := .inr (.inr hq), rxq := .inr (.inl hq), handler := .inr (by simp [hq]) }
  | swDigit hq _ hd | swLastDigit hq _ hd =>
    obtain ⟨i, -, rfl⟩ := putDigit_cases hd
    exact { digits := .inr ⟨.inl hq, i, _, rfl⟩, handler := .inr (by simp [hq]) }

/-! ## Each register's writers -/

/-- Settles O51: a turn of FG by what it writes, an event by its cases, an acceptance by the four registers it latches. -/
theorem eachRegisterHasItsWriters : Obligations.EachRegisterHasItsWriters := by
  intro x s t hx h
  cases x with
  | fg =>
    have w := (fgStep_cases h).writes
    have hscan := w.scanner
    have hport := w.port
    refine ⟨?_, by tauto, ?_, ?_, ?_, ?_, ?_, ?_, by tauto, ?_, ?_, ?_, ?_, ?_, ?_, fun hc => absurd w.line hc⟩
    · intro hc
      obtain ⟨hq, -⟩ := w.mode.resolve_left (by tauto)
      exact ⟨rfl, hq⟩
    · intro hc
      obtain ⟨hq | ⟨hq, -, hp⟩, -⟩ := w.digits.resolve_left hc
      · exact ⟨rfl, .inl hq⟩
      · exact ⟨rfl, .inr ⟨hq, hp⟩⟩
    · intro hc
      obtain ⟨hq, -, hp⟩ | ⟨hq, -, hp⟩ := w.hostReception.resolve_left (by tauto)
      · exact ⟨rfl, hq, .inl hp⟩
      · exact ⟨rfl, hq, .inr hp⟩
    · exact fun hc => ⟨rfl, w.swReception.resolve_left (by tauto)⟩
    · intro hc
      obtain hq | ⟨hq, -, hp⟩ := w.rxq.resolve_left hc
      · exact .inr ⟨rfl, .inl hq⟩
      · exact .inr ⟨rfl, .inr ⟨hq, hp⟩⟩
    · intro hc
      obtain ⟨⟨hq, -, hp⟩, -⟩ := w.tone.resolve_left (by tauto)
      exact .inr ⟨rfl, hq, hp⟩
    · intro hc
      obtain ⟨hq, hb, -⟩ := w.result.resolve_left (by tauto)
      exact ⟨rfl, hq, hb⟩
    · exact fun hc => .inr ⟨rfl, w.host.resolve_left (by tauto)⟩
    · exact fun hc => .inr ⟨rfl, w.host.resolve_left (by tauto)⟩
    · exact fun hc => ⟨rfl, w.handler.resolve_left (by tauto)⟩
    · exact fun hc => .inr ⟨rfl, w.handler.resolve_left (by tauto)⟩
    · exact fun hc => .inr (.inr ⟨rfl, w.handler.resolve_left (by tauto)⟩)
    · exact fun hc => .inr ⟨rfl, w.handler.resolve_left (by tauto)⟩
  | event e =>
    cases eventStep_cases h with
    | reset b => exact absurd rfl (hx b)
    | ms | toneRest | toneEnd | toneHalf | press | latch | level => simp
    | rxByte b => simp [rxByteEvent]
  | command w =>
    simp only [moveStep, presentCommand] at h
    split at h
    · simp at h
    · injection h with h; subst h; simp

end Sys2Proof.Machine
end

section
/-! PROOF. Every move keeps the invariant (R24 to R38, R149, R247), part by part. -/

namespace Sys2Proof.Machine

/-- A digit write before the last leaves fewer than four done. -/
theorem succ_lt_four {p : Params} (hp : p.wf = true) {k : BitVec 3} (hk : k.toNat < 4)
    (hw : writesDone p (k + 1#3) = false) : (k + 1#3).toNat < 4 := by
  obtain ⟨-, -, hdigits, -⟩ := params_wf_counts hp
  have h4 : (k + 1#3).toNat ≠ 4 := by
    simpa [writesDone, hdigits] using hw
  have hadd : (k + 1#3).toNat = k.toNat + 1 := by
    rw [BitVec.toNat_add, BitVec.toNat_ofNat]; omega
  omega

section Turn
variable {s t : State} (hs : Inv s)
include hs

/-! ## Receives from a sound state -/

section Receive
variable {c : Ctx} {o : RxOutcome} (hr : receive c s = some (o, t))
include hr

/-- A receive keeps both receptions sound: the one it belongs to by `receive_sound`, the other one untouched. -/
theorem receive_keeps_receptionsSound : ReceptionsSound t := by
  have hlen : t.rxq.length ≤ s.params.rxFifoDepth := by
    have := receive_rxq hr
    have := hs.rxq_bound
    omega
  have hown := (receive_sound hs.params_wf (hs.reception c) hr).1
  obtain ⟨m, r, q, v, rfl⟩ := receive_frame hr
  cases c
  · exact ⟨hlen, hown, hs.sw_reception⟩
  · exact ⟨hlen, hs.host_reception, hown⟩

theorem receive_goes_on (ho : o = .more) : (rd c t).ph ≠ .none := by
  subst ho; exact (receive_sound hs.params_wf (hs.reception c) hr).2

theorem receive_ends (ho : o ≠ .more) : (rd c t).ph = .none := by
  have h := (receive_sound hs.params_wf (hs.reception c) hr).2
  cases o
  · exact absurd rfl ho
  · exact h.1
  · exact h.1

theorem receive_validates (ho : o = .ok) : frameValid c t = true := by
  subst ho; exact (receive_sound hs.params_wf (hs.reception c) hr).2.2

end Receive

/-! ## A turn of FG keeps the host's part -/

omit hs in
/-- A command completes soundly where the host's other registers are at rest. -/
theorem hostSound_complete {ok : Bool} {v : Half} {e : BitVec 3} (hval : s.hostVal = s.cmd.imm16)
    (hrd : s.rdHost.ph = .none) (hcnt : s.hostCnt = 0#16) (hta : s.toneActive = false) :
    HostSound (complete ok v e s) := by
  simp [HostSound, phaseFitsCommand, hval, hrd, hcnt, hta]

/-- A turn of FG keeps the host's part: each START micro-step finds the other registers of the part at rest, and each
completion leaves them so. -/
theorem fgMove_keeps_hostSound (h : FgMove s t) : HostSound t := by
  have hhost := hs.hostSound
  have hval := hs.host_val
  cases h with
  | complete hp =>
    obtain ⟨hrd, hcnt, hta⟩ := hs.host_at_rest hp
    exact hostSound_complete hval hrd hcnt hta
  | startRead hp hop =>
    obtain ⟨-, hcnt, hta⟩ := hs.host_at_rest (.inl hp)
    simpa [HostSound, phaseFitsCommand, startHostRead, startRx, setRd, setFrameValid, hp.2.1, hval, hcnt, hta] using hop
  | startWrite hp hop =>
    obtain ⟨hrd, hcnt, hta⟩ := hs.host_at_rest (.inl hp)
    simp [HostSound, phaseFitsCommand, hp.2.1, hop, hval, hrd, hcnt, hta]
  | startTone hp hop =>
    obtain ⟨hrd, hcnt, -⟩ := hs.host_at_rest (.inl hp)
    simpa [HostSound, phaseFitsCommand, toneAndWait, hp.2.1, hval, hrd, hcnt] using hop
  | startCount hp hop =>
    obtain ⟨hrd, -, hta⟩ := hs.host_at_rest (.inl hp)
    simp [HostSound, phaseFitsCommand, hp.2.1, hop, hval, hrd, hta]
  | hostMore hp hr =>
    obtain ⟨-, -, hp⟩ := hp
    have hrd : t.rdHost.ph ≠ .none := receive_goes_on hs hr rfl
    obtain ⟨hidle, hfits, -, -, -, -, hcnt, hwait⟩ := hhost
    obtain ⟨m, r, q, v, rfl⟩ := receive_frame_host hr
    exact ⟨hidle, hfits, hval, iff_of_true hp hrd, by simp [hp], by simp [hp], hcnt, hwait⟩
  | hostMismatch hp hr | hostFrame hp _ hr =>
    obtain ⟨-, -, hp⟩ := hp
    have hrd := receive_ends hs hr (by simp)
    obtain ⟨m, r, q, v, rfl⟩ := receive_frame_host hr
    exact hostSound_complete hval hrd (hs.hostCnt_zero (by simp [hp])) (hs.toneActive_false (by simp [hp]))
  | hostMeasured hp hop hr =>
    obtain ⟨-, hb, hp⟩ := hp
    have hcnt := hs.hostCnt_zero (by simp [hp])
    have hta := hs.toneActive_false (by simp [hp])
    obtain ⟨m, r, q, v, rfl⟩ := receive_frame_host hr
    have hrd : r.ph = .none := receive_ends hs hr (by simp)
    have hv : v = true := receive_validates hs hr rfl
    simp [HostSound, phaseFitsCommand, hb, hop, hval, hcnt, hta, hrd, hv]
  | hostDigit hp hw hd =>
    obtain ⟨-, -, hp⟩ := hp
    obtain ⟨i, -, rfl⟩ := putDigit_cases hd
    obtain ⟨hidle, hfits, -, hreads, hext, hk, hcnt, hwait⟩ := hhost
    exact ⟨hidle, hfits, hval, hreads, hext, fun _ => succ_lt_four hs.params_wf (hk hp) hw, hcnt, hwait⟩
  | hostLastDigit hp _ hd =>
    obtain ⟨-, -, hp⟩ := hp
    obtain ⟨i, -, rfl⟩ := putDigit_cases hd
    exact hostSound_complete hval (hs.rdHost_none (by simp [hp])) (hs.hostCnt_zero (by simp [hp]))
      (hs.toneActive_false (by simp [hp]))
  | swMore _ hr | swMismatch _ hr | swFrame _ hr =>
    obtain ⟨m, r, q, v, rfl⟩ := receive_frame_sw hr
    exact hhost
  | swDigit _ _ hd | swLastDigit _ _ hd =>
    obtain ⟨i, -, rfl⟩ := putDigit_cases hd
    exact hhost
  | debounceAbort | releaseExit => simpa [HostSound] using hhost
  | _ => exact hhost

/-! ## A turn of FG keeps the handler's part -/

/-- RELEASE is entered soundly from any state whose handler receives nothing and counts nothing. -/
theorem handlerSound_enterRelease {u : State} (hu : u.params = s.params) (hrd : u.rdSw.ph = .none) (hcnt : u.swCnt = 0)
    (hpend : u.swPending = s.swPending) : HandlerSound (enterRelease u) := by
  have hpoll : 0 < s.params.releasePollMs := Nat.zero_lt_of_lt hs.sw_poll
  simpa [HandlerSound, hu, hrd, hcnt, hpoll, hpend] using fun h => (hs.sw_pending h).2

omit hs in
/-- The handler's exit is sound where its registers are at rest, whether or not an edge is latched. -/
theorem handlerSound_handlerExit (hrd : s.rdSw.ph = .none) (hcnt : s.swCnt = 0) (hdue : s.swDue = false)
    (hpoll : s.swPoll < s.params.releasePollMs) : HandlerSound (handlerExit s) := by
  cases hp : s.swPending <;> simp [HandlerSound, hp, hrd, hcnt, hdue, hpoll]

/-- A turn of FG keeps the handler's part: each state is entered with its registers at rest but for those it starts. -/
theorem fgMove_keeps_handlerSound (h : FgMove s t) : HandlerSound t := by
  have hsw := hs.handlerSound
  have hpoll := hs.sw_poll
  have hpend : s.swPending = true → s.params.edgePendingPolicy = .latchOne := fun h => (hs.sw_pending h).2
  cases h with
  | hostMore _ hr | hostMismatch _ hr | hostFrame _ _ hr | hostMeasured _ _ hr =>
    obtain ⟨m, r, q, v, rfl⟩ := receive_frame_host hr
    exact hsw
  | hostDigit _ _ hd | hostLastDigit _ _ hd =>
    obtain ⟨i, -, rfl⟩ := putDigit_cases hd
    exact hsw
  | startTone => simpa [HandlerSound, toneAndWait] using hsw
  | debounceAbort hq hcnt =>
    exact handlerSound_handlerExit (hs.rdSw_none (by simp [hq])) hcnt (hs.swDue_false (by simp [hq])) hpoll
  | releaseExit hq =>
    exact handlerSound_handlerExit (hs.rdSw_none (by simp [hq])) (hs.swCnt_zero (by simp [hq])) rfl hpoll
  | debouncePress hq hcnt =>
    have hrd := hs.rdSw_none (by simp [hq])
    have hdue := hs.swDue_false (by simp [hq])
    simpa [HandlerSound, hrd, hcnt, hdue, hpoll] using hpend
  | advance hq =>
    have hcnt := hs.swCnt_zero (by simp [hq])
    have hdue := hs.swDue_false (by simp [hq])
    simpa [HandlerSound, startRx, setRd, setFrameValid, hcnt, hdue, hpoll] using hpend
  | swMore hq hr =>
    have hrd : t.rdSw.ph ≠ .none := receive_goes_on hs hr rfl
    obtain ⟨hres, -, -, -, hcnt, hdeb, hdue, -, hpend⟩ := hsw
    obtain ⟨m, r, q, v, rfl⟩ := receive_frame_sw hr
    exact ⟨hres, iff_of_true hq hrd, by simp [hq], by simp [hq], hcnt, hdeb, hdue, hpoll, hpend⟩
  | swMismatch hq hr =>
    have hrd := receive_ends hs hr (by simp)
    obtain ⟨m, r, q, v, rfl⟩ := receive_frame_sw hr
    exact handlerSound_enterRelease hs rfl hrd (hs.swCnt_zero (by simp [hq])) rfl
  | swFrame hq hr =>
    have hcnt := hs.swCnt_zero (by simp [hq])
    have hdue := hs.swDue_false (by simp [hq])
    obtain ⟨m, r, q, v, rfl⟩ := receive_frame_sw hr
    have hrd : r.ph = .none := receive_ends hs hr (by simp)
    have hv : v = true := receive_validates hs hr rfl
    simpa [HandlerSound, hrd, hv, hcnt, hdue, hpoll] using hpend
  | swValue hq =>
    have hrd := hs.rdSw_none (by simp [hq])
    have hcnt := hs.swCnt_zero (by simp [hq])
    have hdue := hs.swDue_false (by simp [hq])
    simpa [HandlerSound, hrd, hcnt, hdue, hpoll] using hpend
  | swDigit hq hw hd =>
    obtain ⟨i, -, rfl⟩ := putDigit_cases hd
    obtain ⟨hres, hreads, hext, hk, hcnt, hdeb, hdue, -, hpend⟩ := hsw
    exact ⟨hres, hreads, hext, fun _ => succ_lt_four hs.params_wf (hk hq) hw, hcnt, hdeb, hdue, hpoll, hpend⟩
  | swLastDigit hq _ hd =>
    obtain ⟨i, -, rfl⟩ := putDigit_cases hd
    exact handlerSound_enterRelease hs rfl (hs.rdSw_none (by simp [hq])) (hs.swCnt_zero (by simp [hq])) rfl
  | releaseWait hq =>
    obtain ⟨hres, hreads, hext, hk, hcnt, hdeb, -, -, hpend⟩ := hsw
    exact ⟨hres, hreads, hext, hk, hcnt, hdeb, nofun, hpoll, hpend⟩
  | _ => exact hsw

/-! ## A turn of FG keeps the other parts -/

/-- A turn of FG keeps the receptions: a start clears FRAME_VALID, and each receive is sound. -/
theorem fgMove_keeps_receptionsSound (h : FgMove s t) : ReceptionsSound t := by
  have hrec := hs.receptionsSound
  obtain ⟨hq, hhost, hsw⟩ := id hrec
  cases h with
  | hostMore _ hr | hostMismatch _ hr | hostFrame _ _ hr | hostMeasured _ _ hr | swMore _ hr | swMismatch _ hr
  | swFrame _ hr =>
    have hrec := receive_keeps_receptionsSound hs hr
    exact hrec
  | hostDigit _ _ hd | hostLastDigit _ _ hd | swDigit _ _ hd | swLastDigit _ _ hd =>
    obtain ⟨i, -, rfl⟩ := putDigit_cases hd
    exact hrec
  | startRead => exact ⟨hq, receptionSound_start (receptionSound_wf hhost), hsw⟩
  | advance => exact ⟨hq, hhost, receptionSound_start (receptionSound_wf hsw)⟩
  | startTone => simpa [ReceptionsSound, toneAndWait] using hrec
  | debounceAbort | releaseExit => simpa [ReceptionsSound] using hrec
  | _ => exact hrec

end Turn

/-- A digit of R142 is decimal, and the first is 0: writing one keeps DIGITS so. -/
theorem digitsSound_set {d : Digits} (h : DigitsSound d) (i : Fin 4) (n : Nat) : DigitsSound (Digits.set d i (digitOf n i)) := by
  have hle : ∀ k : Nat, (BitVec.ofNat 4 (k % 10)).toNat ≤ 9 := by
    intro k; rw [BitVec.toNat_ofNat]; omega
  obtain ⟨h0, h1, h2, h3⟩ := h
  match i with
  | 0 => exact ⟨rfl, h1, h2, h3⟩
  | 1 => exact ⟨h0, hle _, h2, h3⟩
  | 2 => exact ⟨h0, h1, hle _, h3⟩
  | 3 => exact ⟨h0, h1, h2, hle _⟩

/-- A tone starts at its 2 x TONE_CYCLES half-periods, an even number, with the line high (R190). -/
theorem toneSound_start {p : Params} (h : toneHalfPeriods p ≠ 0) :
    toneSound p true (toneHalfPeriods p) true = true := by
  have hpos : 1 ≤ toneHalfPeriods p := by omega
  have heven : toneHalfPeriods p % 2 = 0 := Nat.mul_mod_right 2 _
  simp [toneSound, hpos, heven]

/-- A half-period before the last leaves one fewer, and turns the line over with the parity (R192). -/
theorem toneSound_half {p : Params} {active out : Bool} {left n : Nat} (ha : active = true) (hl : left = n + 2)
    (h : toneSound p active left out = true) : toneSound p active (n + 1) (!out) = true := by
  subst ha hl
  simp only [toneSound, if_true, Bool.and_eq_true, decide_eq_true_eq, beq_iff_eq] at h ⊢
  obtain ⟨⟨-, hle⟩, rfl⟩ := h
  refine ⟨⟨by omega, by omega⟩, ?_⟩
  rcases Nat.mod_two_eq_zero_or_one n with hn | hn <;> simp [Nat.add_mod, hn]

/-- A turn of FG keeps the invariant. -/
theorem fgStep_keeps_inv {s t : State} (hs : Inv s) (h : fgStep s = .next t) : Inv t := by
  have hmove := fgStep_cases h
  have hp : t.params = s.params := (fgStep_sameSetup h).1
  obtain ⟨hwf, -, -, -, hdig, hscan, hres, hind, htone⟩ := inv_iff.mp hs
  have w := hmove.writes
  refine inv_iff.mpr ⟨hp ▸ hwf, fgMove_keeps_hostSound hs hmove, fgMove_keeps_handlerSound hs hmove,
    fgMove_keeps_receptionsSound hs hmove, ?_, ?_, ?_, ?_, ?_⟩
  · obtain hd | ⟨-, i, n, hd⟩ := w.digits <;> rw [hd]
    · exact hdig
    · exact digitsSound_set hdig i n
  · obtain ⟨-, hseg, hsel⟩ := w.scanner
    rw [ScanSound, hseg, hsel]
    exact hscan
  · obtain ⟨hr, he⟩ | ⟨-, -, hr⟩ := w.result
    · rw [hr, he]; exact hres
    · exact hr
  · obtain ⟨hm, hi⟩ | ⟨-, hi⟩ := w.mode
    · rw [hm, hi]; exact hind
    · exact hi
  · obtain ⟨ha, hl, ho⟩ | ⟨-, hn, ha, hl, ho⟩ := w.tone <;> rw [hp, ha, hl, ho]
    · exact htone
    · exact toneSound_start hn

/-! ## Events and commands keep the invariant -/

theorem indicator_resetMode (p : Params) : indicator (resetModeBits p) = some (resetIndicator p) := by
  unfold resetModeBits resetIndicator
  generalize p.resetMode = r
  revert r
  decide

/-- The state RESET leaves is sound, whatever the parameters the block can have (R262). -/
theorem resetWith_sound {p : Params} (hp : p.wf = true) (b : Bool) (stim : List Stimulus) : Inv (State.resetWith p b stim) := by
  obtain ⟨-, -, -, hpoll⟩ := params_wf_counts hp
  refine inv_iff.mpr ⟨hp, ?_, ?_, ?_, ?_, .inl ⟨rfl, rfl⟩, ?_, indicator_resetMode p, rfl⟩
  · simp [HostSound, State.resetWith, phaseFitsCommand, CmdWord.imm16]
  · simp [HandlerSound, State.resetWith]; omega
  · simp [ReceptionsSound, State.resetWith, receptionSound]
  · simp [DigitsSound, State.resetWith]
  · simp [ResultSound, State.resetWith]

theorem debounceCount_le (s : State) : debounceCount s ≤ s.swCnt := by
  unfold debounceCount; split <;> omega

theorem waitCount_ne_zero {s : State} (h : waitCount s ≠ 0#16) : s.hostCnt ≠ 0#16 := by
  unfold waitCount at h
  split at h
  · next hc => exact hc.2.2
  · exact h

theorem releaseDue_release {s : State} (hs : Inv s) (h : releaseDue s = true) : s.swState = .release := by
  unfold releaseDue at h
  split at h
  · next hc => exact hc.1
  · exact hs.sw_due h

theorem pollCount_lt {s : State} (hs : Inv s) : pollCount s < s.params.releasePollMs := by
  have := hs.sw_poll
  unfold pollCount pollEnds
  split
  · split
    · omega
    · next hn => simpa using hn
  · exact this

/-- An event keeps the invariant. -/
theorem eventStep_keeps_inv {e : Event} {s t : State} (hs : Inv s) (h : eventStep e s = .next t) : Inv t := by
  obtain ⟨hwf, hhost, hsw, hrec, hdig, hscan, hres, hind, htone⟩ := inv_iff.mp hs
  cases eventStep_cases h with
  | reset b => exact resetWith_sound hwf b s.stim
  | ms hsel =>
    obtain ⟨hidle, hfits, hval, hreads, hext, hk, hcnt, hwait⟩ := hhost
    obtain ⟨hne, hsreads, hsext, hsk, hscnt, hsdeb, hsdue, hspoll, hspend⟩ := hsw
    have hle := debounceCount_le s
    exact inv_iff.mpr ⟨hwf, ⟨hidle, hfits, hval, hreads, hext, hk, fun h => hcnt (waitCount_ne_zero h), hwait⟩,
      ⟨hne, hsreads, hsext, hsk, hle.trans hscnt, fun (h : debounceCount s ≠ 0) => hsdeb (by omega), releaseDue_release hs,
        pollCount_lt hs, hspend⟩, hrec, hdig, hsel.imp And.right fun h => ⟨_, h.2.1⟩, hres, hind, htone⟩
  | toneRest => exact hs
  | toneEnd =>
    obtain ⟨hidle, hfits, hval, hreads, hext, hk, hcnt, -⟩ := hhost
    exact inv_iff.mpr ⟨hwf, ⟨hidle, hfits, hval, hreads, hext, hk, hcnt, nofun⟩, hsw, hrec, hdig, hscan, hres, hind, rfl⟩
  | toneHalf ha hl => exact inv_iff.mpr ⟨hwf, hhost, hsw, hrec, hdig, hscan, hres, hind, toneSound_half ha hl htone⟩
  | rxByte b =>
    obtain ⟨-, -, -, -, -, hdepth⟩ := params_wf_cases hwf
    have hlen := rxPush_length (policy := s.params.rxOverrunPolicy) b hdepth hrec.1
    exact inv_iff.mpr ⟨hwf, hhost, hsw, ⟨hlen, hrec.2⟩, hdig, hscan, hres, hind, htone⟩
  | @press l _ _ hq =>
    have hsw' : HandlerSound { s with btnLine := l, swState := .debounce, swCnt := s.params.debounceMs } := by
      have hrd := hs.rdSw_none (by simp [hq])
      have hdue := hs.swDue_false (by simp [hq])
      simpa [HandlerSound, hrd, hdue, hs.sw_poll] using fun h => (hs.sw_pending h).2
    exact inv_iff.mpr ⟨hwf, hhost, hsw', hrec, hdig, hscan, hres, hind, htone⟩
  | latch _ _ hq hlatch =>
    obtain ⟨hne, hsreads, hsext, hsk, hscnt, hsdeb, hsdue, hspoll, -⟩ := hsw
    exact inv_iff.mpr ⟨hwf, hhost, ⟨hne, hsreads, hsext, hsk, hscnt, hsdeb, hsdue, hspoll, fun _ => ⟨hq, hlatch⟩⟩,
      hrec, hdig, hscan, hres, hind, htone⟩
  | level => exact inv_iff.mpr ⟨hwf, hhost, hsw, hrec, hdig, hscan, hres, hind, htone⟩

/-- An accepted command finds the host's other registers at rest. -/
theorem presentCommand_keeps_inv {w : CmdWord} {s t : State} (hs : Inv s) (h : presentCommand w s = .next t) : Inv t := by
  unfold presentCommand at h
  split at h
  · simp at h
  · next hb =>
    injection h with h; subst h
    obtain ⟨hwf, -, hsw, hrec, hdig, hscan, hres, hind, htone⟩ := inv_iff.mp hs
    have hp : s.hostPhase = .idle := hs.idle_iff_not_busy.mpr (by simpa using hb)
    have hrd := hs.rdHost_none (by simp [hp])
    have hcnt := hs.hostCnt_zero (by simp [hp])
    have hta := hs.toneActive_false (by simp [hp])
    have hhost : HostSound (acceptCommand w s) := by
      simp [HostSound, phaseFitsCommand, hrd, hcnt, hta]
    exact inv_iff.mpr ⟨hwf, hhost, hsw, hrec, hdig, hscan, hres, hind, htone⟩

/-- Every move of a run keeps the invariant. -/
theorem moveStep_keeps_inv {x : Move} {s t : State} (hs : Inv s) (h : moveStep x s = .next t) : Inv t := by
  cases x with
  | fg => exact fgStep_keeps_inv hs h
  | event e => exact eventStep_keeps_inv hs h
  | command w => exact presentCommand_keeps_inv hs h

/-- The invariant does not speak of the schedule. -/
theorem Inv.withStim {s : State} (hs : Inv s) (xs : List Stimulus) : Inv { s with stim := xs } :=
  have h := inv_iff.mp hs
  inv_iff.mpr h

/-- A scheduled move that answers a state is a move of a run. -/
theorem stimulusStep_cases {x : Stimulus} {s t : State} (h : stimulusStep x s = .next t) : ∃ m, moveStep m s = .next t := by
  cases x with
  | foreground => exact ⟨.fg, h⟩
  | command w => exact ⟨.command w, h⟩
  | event w =>
    cases he : decodeEvent w with
    | none => simp [stimulusStep, eventWordStep_of_reserved he] at h
    | some e => exact ⟨.event e, (eventWordStep_of_decode he s).symm.trans h⟩

/-- Settles O49: a step is a turn of FG, an event or an acceptance, and each keeps the invariant part by part. -/
theorem stepKeepsTheInvariant : Obligations.StepKeepsTheInvariant := by
  intro s t hs h
  obtain ⟨-, hfg⟩ | ⟨x, rest, -, hx⟩ := step_cases h
  · exact fgStep_keeps_inv hs hfg
  · obtain ⟨m, hm⟩ := stimulusStep_cases hx
    exact moveStep_keeps_inv (hs.withStim rest) hm

end Sys2Proof.Machine
end

section
/-! PROOF. What a sound state excludes (R43, R234, R243): every extraction of it completes, every turn of FG answers a next state,
and an enabled one changes a register. -/

namespace Sys2Proof.Machine

/-! ## Extractions -/

/-- The outcome completes the command, with a result of R26 and R27: OK exactly when ERR is NONE, and no value without OK. -/
def Completes (out : Host.Outcome State Fault Refusal) (s : State) : Prop :=
  ∃ (r : Result) (e : BitVec 3), out = .next (complete r.ok r.value e s)
    ∧ (r.ok = true ↔ e = errNone) ∧ (r.ok = false → r.value = 0x0000#16)

theorem completes_ok (v : Half) (s : State) : Completes (.next (completeOk v s)) s :=
  ⟨{ ok := true, value := v }, errNone, rfl, by simp, nofun⟩

theorem completes_fail {e : BitVec 3} (he : e ≠ errNone) (s : State) : Completes (.next (completeFail e s)) s :=
  ⟨{ ok := false, value := 0x0000#16 }, e, rfl, by simp [he], fun _ => rfl⟩

theorem Completes.answers {out : Host.Outcome State Fault Refusal} {s : State} (h : Completes out s) : ∃ t, out = .next t := by
  obtain ⟨r, e, h, -⟩ := h
  exact ⟨_, h⟩

section Extract
variable {s : State} (hs : Inv s)
include hs

/-- Over a whole accepted frame an extraction completes: with the field, or with INVALID_MODE. -/
theorem finishExtraction_completes (m : ModeBits) (hv : s.frameValidHost = true) : Completes (finishExtraction m s) s := by
  by_cases hm : m = 3#2
  · subst hm
    exact completes_fail (e := errInvalidMode) (by decide) s
  · obtain ⟨v, hx⟩ := extractField_of_valid hs.params_wf (hs.reception .host) hv hm
    simp only [finishExtraction, hx]
    exact completes_ok v s

/-- EXTRACT completes: it reaches the buffer only for mode 3, which reads none of it, or over a whole accepted frame
(R123, R232). -/
theorem extractHost_completes (m : ModeBits) : Completes (extractHost m s) s := by
  unfold extractHost
  split
  · exact completes_fail (by decide) s
  · next h =>
    by_cases hm : m = 3#2
    · subst hm
      exact completes_fail (e := errInvalidMode) (by decide) s
    · exact finishExtraction_completes hs m (by simpa [frameValid, hm] using h)

theorem currentMode_eq : currentMode s = some s.mode := by
  simp [currentMode, hs.mode_ne_three]

end Extract

/-- Settles O18: every form of EXTRACT is `extractHost` of its effective mode, which completes. -/
theorem extractAlwaysCompletes : Obligations.ExtractAlwaysCompletes := by
  intro s i hs hi
  have hx : ∃ m, exec i s = extractHost m s := by
    obtain ⟨m, rfl⟩ | rfl := hi
    · exact ⟨m, rfl⟩
    · exact ⟨s.mode, by simp [exec, execExtractCur, currentMode_eq hs]⟩
  obtain ⟨m, hx⟩ := hx
  rw [hx]
  exact extractHost_completes hs m

/-! ## From a sound state every turn of FG answers a next state -/

/-- The cycle of at most three modes stays among the three that IND is given for (R31, R163). -/
theorem indicator_nextMode {p : Params} (hp : p.wf = true) (m : ModeBits) : ∃ ind, indicator (nextMode p m) = some ind := by
  obtain ⟨hr, h3, -, -⟩ := params_wf_counts hp
  have hlt : (m.toNat + 1) % p.numModes < 3 := (Nat.mod_lt _ (by omega)).trans_le h3
  unfold nextMode
  generalize (m.toNat + 1) % p.numModes = n at hlt
  match n, hlt with
  | 0, _ | 1, _ | 2, _ => exact ⟨_, rfl⟩

section Answers
variable {s : State} (hs : Inv s)
include hs

/-- A START micro-step answers, whatever the command. -/
theorem exec_answers (i : Instr) : ∃ t, exec i s = .next t := by
  cases i with
  | extract m => exact (extractHost_completes hs m).answers
  | extractCur =>
    simp only [exec, execExtractCur, currentMode_eq hs]
    exact (extractHost_completes hs s.mode).answers
  | alarmchk v => simp only [exec, execAlarmchk]; split <;> exact ⟨_, rfl⟩
  | waitms n => simp only [exec, execWaitms]; split <;> exact ⟨_, rfl⟩
  | _ => exact ⟨_, rfl⟩

/-- A host receive answers: the command whose frame ends is RDFRAME or MEASURE. -/
theorem hostRead_answers (hp : s.hostPhase = .read) : ∃ t, hostRead s = .next t := by
  unfold hostRead
  split
  · exact ⟨_, rfl⟩
  · exact ⟨_, rfl⟩
  · exact ⟨_, rfl⟩
  · next t hr =>
    obtain ⟨m, r, q, v, rfl⟩ := receive_frame_host hr
    have hop : s.cmd.op = opRdframe ∨ s.cmd.op = opMeasure := by
      simpa [hp, phaseFitsCommand] using hs.phase_fits
    split_ifs with h1 h2
    · exact ⟨_, rfl⟩
    · exact ⟨_, rfl⟩
    · exact absurd hop (not_or.mpr ⟨h1, h2⟩)

theorem hostExtract_answers (hp : s.hostPhase = .extract) : ∃ t, hostExtract s = .next t := by
  have hx : ∃ m, hostExtract s = finishExtraction m s := by
    unfold hostExtract
    rw [currentMode_eq hs]
    split <;> exact ⟨_, rfl⟩
  obtain ⟨m, hx⟩ := hx
  rw [hx]
  exact (finishExtraction_completes hs m (hs.host_extract_ready hp)).answers

theorem hostWrite_answers (hp : s.hostPhase = .write) : ∃ t, hostWrite s = .next t := by
  simp only [hostWrite, putDigit_of_lt _ s (hs.host_k hp)]
  split <;> exact ⟨_, rfl⟩

omit hs in
theorem swRead_answers (s : State) : ∃ t, swRead s = .next t := by
  unfold swRead
  split <;> exact ⟨_, rfl⟩

theorem modeAdvance_answers : ∃ t, modeAdvance s = .next t := by
  obtain ⟨ind, hi⟩ := indicator_nextMode hs.params_wf s.mode
  simp only [modeAdvance, currentMode_eq hs, hi]
  exact ⟨_, rfl⟩

theorem swExtract_answers (hq : s.swState = .extract) : ∃ t, swExtract s = .next t := by
  obtain ⟨v, hx⟩ := extractField_of_valid hs.params_wf (hs.reception .sw) (hs.sw_extract_ready hq) hs.mode_ne_three
  simp only [swExtract, hx]
  exact ⟨_, rfl⟩

theorem swWrite_answers (hq : s.swState = .write) : ∃ t, swWrite s = .next t := by
  simp only [swWrite, putDigit_of_lt _ s (hs.sw_k hq)]
  split <;> exact ⟨_, rfl⟩

/-- A turn of FG from a sound state raises no model fault (R234). -/
theorem fgStep_answers : ∃ t, fgStep s = .next t := by
  obtain ⟨hph, hsw, -⟩ := outsideRules_eq_none.mp hs.inside_rules
  cases hq : s.swState with
  | idle =>
    cases hb : s.busy with
    | false => exact ⟨_, fgStep_quiescent hq hb⟩
    | true =>
      cases hp : s.hostPhase with
      | idle => exact ⟨_, fgStep_busyIdle hq hb hp⟩
      | start => rw [fgStep_start hq hb hp]; exact exec_answers hs _
      | read => rw [fgStep_hostRead hq hb hp]; exact hostRead_answers hs hp
      | extract => rw [fgStep_hostExtract hq hb hp]; exact hostExtract_answers hs hp
      | write => rw [fgStep_hostWrite hq hb hp]; exact hostWrite_answers hs hp
      | toneWait => rw [fgStep_toneWait hq hb hp]; split <;> exact ⟨_, rfl⟩
      | count => rw [fgStep_count hq hb hp]; split <;> exact ⟨_, rfl⟩
      | reserved => exact absurd hp hph
  | debounce => rw [fgStep_debounce hq]; split <;> exact ⟨_, rfl⟩
  | actMode => rw [fgStep_actMode hq]; exact modeAdvance_answers hs
  | read => rw [fgStep_swRead hq]; exact swRead_answers s
  | extract => rw [fgStep_swExtract hq]; exact swExtract_answers hs hq
  | write => rw [fgStep_swWrite hq]; exact swWrite_answers hs hq
  | release => rw [fgStep_release hq]; split <;> exact ⟨_, rfl⟩
  | reserved => exact absurd hq hsw

end Answers

/-! ## An enabled micro-step changes a register -/

theorem count_succ_ne (k : BitVec 3) : k + 1#3 ≠ k := by
  revert k; decide

theorem receive_ne {c : Ctx} {s t : State} {o : RxOutcome} (h : receive c s = some (o, t)) : t.rxq ≠ s.rxq := by
  intro he
  have := receive_rxq h
  rw [he] at this
  omega

/-- The register by which an enabled micro-step's next state differs: the queue for a receive, the count for a digit write,
BUSY for a completion, the phase for every other; but a handler that ends into a new one has its latched edge gone, and a
release sample its due flag. -/
theorem FgMove.ne {s t : State} (h : FgMove s t) (he : fgEnabled s = true) : t ≠ s := by
  intro heq
  have hbusy := congrArg State.busy heq
  have hphase := congrArg State.hostPhase heq
  have hstate := congrArg State.swState heq
  have hrxq := congrArg State.rxq heq
  cases h with
  | stay hn => simp [hn] at he
  | complete hp =>
    have hb : s.busy = true := by obtain hp | hp | ⟨hp, -⟩ | ⟨hp, -⟩ := hp <;> exact hp.2.1
    simp [hb] at hbusy
  | startRead hp | startWrite hp | startTone hp | startCount hp =>
    simp [startHostRead, toneAndWait, hp.2.2] at hphase
  | hostMore _ hr | hostMismatch _ hr | hostFrame _ _ hr | hostMeasured _ _ hr | swMore _ hr | swMismatch _ hr
  | swFrame _ hr => exact receive_ne hr hrxq
  | hostDigit | hostLastDigit => exact count_succ_ne _ (congrArg State.hostK heq)
  | swDigit | swLastDigit => exact count_succ_ne _ (congrArg State.swK heq)
  | debounceAbort hq =>
    obtain ⟨-, h⟩ | ⟨hp, h⟩ := handlerExit_cases s
    · simp [h, hq] at hstate
    · have := congrArg State.swPending heq
      simp [hp] at this
  | releaseWait _ hd | releaseExit _ hd =>
    have := congrArg State.swDue heq
    simp [hd] at this
  | debouncePress hq | advance hq | swValue hq => simp [hq] at hstate

/-- Settles O12: a turn of FG from a sound state answers, and each micro-step writes a register. -/
theorem enabledMicroStepMakesProgress : Obligations.EnabledMicroStepMakesProgress := by
  intro s hs he
  obtain ⟨t, ht⟩ := fgStep_answers hs
  exact ⟨t, ht, (fgStep_cases ht).ne he⟩

end Sys2Proof.Machine
end

section
/-! PROOF. The enabling conditions of FG (R23) and the output pins (R33, R42). -/

namespace Sys2Proof.Machine

/-! ## The enabling conditions (R23) -/

theorem fgEnabled_none {s : State} (hq : s.swState = .idle) (hb : s.busy = false) : fgEnabled s = false := by
  simp [fgEnabled, runningContext, hq, hb]

theorem fgEnabled_host {s : State} (hq : s.swState = .idle) (hb : s.busy = true) : fgEnabled s = hostEnabled s := by
  simp [fgEnabled, runningContext, hq, hb]

theorem fgEnabled_sw {s : State} (hq : s.swState ≠ .idle) : fgEnabled s = swEnabled s := by
  simp [fgEnabled, runningContext, hq]

theorem receiveEnabled_iff {c : Ctx} {s : State} : receiveEnabled c s = true ↔ (rd c s).ph ≠ .none ∧ s.rxq ≠ [] := by
  simp [receiveEnabled]

/-- Settles O11: the running context's enabling condition, phase by phase. -/
theorem foregroundEnabling : Obligations.ForegroundEnabling := by
  intro s
  refine ⟨fgEnabled_none, ?_, ?_, ?_, ?_, ?_, ?_, ?_, ?_, ?_, ?_⟩
  · intro hq
    simp [fgEnabled_sw, swEnabled, hq]
  · intro hq
    simp [fgEnabled_sw, swEnabled, hq]
  · rintro (hq | hq | hq) <;> simp [fgEnabled_sw, swEnabled, hq]
  · intro hq
    simpa [fgEnabled_sw, swEnabled, hq, rd] using receiveEnabled_iff (c := .sw)
  · intro hq hb hp
    simp [fgEnabled_host hq hb, hostEnabled, hp]
  · rintro hq hb (hp | hp | hp) <;> simp [fgEnabled_host hq hb, hostEnabled, hp]
  · intro hq hb hp
    simpa [fgEnabled_host hq hb, hostEnabled, hp, rd] using receiveEnabled_iff (c := .host)
  · intro hq hb hp
    simp [fgEnabled_host hq hb, hostEnabled, hp]
  · intro hq hb hp
    simp [fgEnabled_host hq hb, hostEnabled, hp]
  · intro he
    simp [fgStep, he]

/-! ## The output pins (R33, R42) -/

@[simp] theorem drive_activeHigh (n : Nat) (v : BitVec n) : drive n .activeHigh v = v := rfl
@[simp] theorem drive_activeLow (n : Nat) (v : BitVec n) : drive n .activeLow v = ~~~v := rfl

/-- A single line under `active_high` is 1 when its value is. -/
theorem drive_line_activeHigh (b : Bool) : drive 1 .activeHigh (BitVec.ofBool b) = 1#1 ↔ b = true := by
  cases b <;> decide

theorem drive_line_activeLow (b : Bool) : drive 1 .activeLow (BitVec.ofBool b) = 1#1 ↔ b = false := by
  cases b <;> decide

/-- Settles O54: each pin is its register, each bus driven under its own level. -/
theorem outputsAreRegisterImages : Obligations.OutputsAreRegisterImages := by
  intro s
  refine ⟨?_, ?_, ?_, ?_, ?_, ?_, ?_, ?_, rfl, rfl, rfl, rfl⟩
  · intro h; simp [segPins, h]
  · intro h; simp [segPins, h]
  · intro h; simp [dselPins, h]
  · intro h; simp [dselPins, h]
  · intro h; simp [indPins, h]
  · intro h; simp [indPins, h]
  · intro h; rw [tonePin, h, drive_line_activeHigh]
  · intro h; rw [tonePin, h, drive_line_activeLow]

end Sys2Proof.Machine
end

section
/-! PROOF. The frame buffers (20_memory.md R60 to R62) and a SETDIG seen between its writes (R66, R70). -/

namespace Sys2Proof.Machine

/-! ## The frame buffer (R60 to R62, log 6) -/

/-- Settles O57: a read after a write, the canonical form after a write, and buffers told by their reads. -/
theorem frameBufferReadsWhatWasWritten : Obligations.FrameBufferReadsWhatWasWritten := by
  intro m m' a b
  refine ⟨fun k => ?_, fun hm ha => ?_, fun hm hm' h => ?_⟩
  · exact read_write m a k b
  · exact wf_write b ha hm
  · exact eq_of_read_eq hm hm' h

/-! ## A SETDIG between its writes (R66, R70) -/

/-- The START micro-step of a SETDIG (R140): no write is done yet. -/
theorem fgStep_setdigStart {s : State} {v : Half} (h : hostIn .start s) (hd : decode s.cmd = .setdig v) :
    fgStep s = .next { s with hostK := 0#3, hostPhase := .write } := by
  obtain ⟨hsw, hb, hp⟩ := h
  rw [fgStep_start hsw hb hp, hd]
  rfl

/-- A SETDIG's START micro-step and its first k writes, short of the fourth. -/
theorem fgRun_setdig {s : State} {v : Half} {k : Nat} (hn : s.params.numDigits = 4) (h : hostIn .start s)
    (hd : decode s.cmd = .setdig v) (hk : k < 4) :
    fgRun (1 + k) s = .next { s with
      digits := writeDigits s.params s.hostVal 0 k s.digits, hostK := BitVec.ofNat 3 k, hostPhase := .write } := by
  have hrun := hostK_run k (k := 0) (s := { s with hostK := 0#3, hostPhase := .write }) hn ⟨h.1, h.2.1, rfl⟩ rfl (by omega)
  rw [Nat.add_comm 1 k, fgRun_succ (fgStep_setdigStart h hd), hrun, Nat.zero_add]

/-- Settles O27: the first k writes go to the first k positions of DIGIT_WRITE_ORDER, which repeats none. -/
theorem setdigIsTornBetweenWrites : Obligations.SetdigIsTornBetweenWrites := by
  intro s v k hwf hsw hb hp hd hv hk
  obtain ⟨-, -, hn, -⟩ := params_wf_counts hwf
  refine ⟨writeDigits s.params v 0 k s.digits, ?_, fun j => ?_⟩
  · rw [fgRun_setdig hn ⟨hsw, hb, hp⟩ hd hk, hv]
  · simpa [saturate] using writeDigits_get hwf v k (k := 0) s.digits j (by omega)

end Sys2Proof.Machine
end

section
/-! PROOF. The command words (30_encoding.md R82 to R89, R95): the decoder and the encoder invert each other, the rows of the
opcode table are disjoint, the illegal words are R88's, and the pseudo-instructions (R94) expand as listed. The decoder
is taken by its pieces (`decode_pack`). -/

namespace Sys2Proof
open Machine

/-! ## Decode and encode invert each other (R83, R84, R87) -/

theorem illegalWord_iff_decode (w : CmdWord) : illegalWord w = true ↔ decode w = .illegal w := by
  rw [eq_pack w]
  exact illegalWord_pack _ _ _ _ _

/-- Each format's word is a pack of its operands, which lands in the command's own branch of the decoder; an illegal word
stands for itself. -/
theorem decode_encode {i : Instr} (h : i.wellFormed = true) : decode (encode i) = i := by
  cases i with
  | nop | rdframe | beep => simp [encode, encodeN_eq_pack, decode_pack]
  | extract | extractCur | measure | measureCur => simp [encode, encodeM_eq_pack, decode_pack]
  | setdig | alarmchk | waitms => simp [encode, encodeI_eq_pack, decode_pack]
  | illegal w => exact (illegalWord_iff_decode w).mp h

/-- Settles O1: the round trip, constructor by constructor. -/
theorem decodeInvertsEncode : Obligations.DecodeInvertsEncode :=
  fun _ => decode_encode

theorem encode_decode_pack (o : BitVec 4) (c z : BitVec 1) (m : BitVec 2) (v : BitVec 16) :
    encode (decode (pack o c z m v)) = pack o c z m v := by
  rw [decode_pack]
  repeat
    split
    · next h => simp [encode, encodeN_eq_pack, encodeM_eq_pack, encodeI_eq_pack, h]
  rfl

theorem encode_decode (w : CmdWord) : encode (decode w) = w := by
  rw [eq_pack w]
  exact encode_decode_pack _ _ _ _ _

/-- ILLEGAL carries the word it was decoded from. -/
theorem eq_of_decode_illegal {w v : CmdWord} (h : decode w = .illegal v) : v = w := by
  simpa [h, encode] using encode_decode w

theorem exists_decode_illegal_iff (w : CmdWord) : (∃ v, decode w = .illegal v) ↔ illegalWord w = true := by
  rw [illegalWord_iff_decode]
  exact ⟨fun ⟨v, h⟩ => eq_of_decode_illegal h ▸ h, fun h => ⟨w, h⟩⟩

theorem decode_wellFormed (w : CmdWord) : (decode w).wellFormed = true := by
  cases h : decode w with
  | illegal v =>
    obtain rfl := eq_of_decode_illegal h
    exact (illegalWord_iff_decode v).mpr h
  | _ => rfl

/-! ## The rows of the opcode table (R89) -/

/-- Two rows have no word in common when the bits that both masks keep differ in their values. -/
theorem Row.not_both_hit {r r' : Row} (h : r.value &&& r'.mask ≠ r'.value &&& r.mask) (w : CmdWord) :
    ¬ (r.hits w = true ∧ r'.hits w = true) := by
  simp only [Row.hits, beq_iff_eq]
  rintro ⟨hr, hr'⟩
  apply h
  rw [← hr, ← hr', BitVec.and_assoc, BitVec.and_comm r.mask, BitVec.and_assoc]

theorem rows_disjoint : rows.Pairwise (fun r r' => ∀ w, ¬ (r.hits w = true ∧ r'.hits w = true)) := by
  have hvalues : rows.Pairwise (fun r r' => r.value &&& r'.mask ≠ r'.value &&& r.mask) := by decide
  exact hvalues.imp Row.not_both_hit

/-- The first row that matches builds the command, and a word that no row matches is ILLEGAL. -/
theorem firstRow_cases (rs : List Row) (w : CmdWord) :
    (∃ r ∈ rs, r.hits w = true ∧ firstRow rs w = r.build w)
    ∨ ((∀ r ∈ rs, r.hits w = false) ∧ firstRow rs w = .illegal w) := by
  induction rs with
  | nil => exact .inr ⟨by simp, rfl⟩
  | cons r rest ih =>
    cases hr : r.hits w with
    | true => exact .inl ⟨r, by simp, hr, by simp [firstRow, hr]⟩
    | false => simpa [firstRow, hr] using ih

theorem build_ne_illegal {r : Row} (hr : r ∈ rows) (w v : CmdWord) : r.build w ≠ .illegal v := by
  revert r
  simp [rows]

theorem no_row_hits_iff (w : CmdWord) : (∀ r ∈ rows, r.hits w = false) ↔ decode w = .illegal w := by
  obtain ⟨r, hr, hw, hd⟩ | ⟨hno, hd⟩ := firstRow_cases rows w
  · have hhit : ¬ ∀ r ∈ rows, r.hits w = false := fun hno => by simp [hno r hr] at hw
    have hlegal : decode w ≠ .illegal w := by
      rw [decode, hd]
      exact build_ne_illegal hr w w
    exact iff_of_false hhit hlegal
  · exact iff_of_true hno hd

/-- Settles O2: the round trip from the word's side, the disjoint rows, and the search that ends in ILLEGAL. -/
theorem everyWordIsExactlyOneCommand : Obligations.EveryWordIsExactlyOneCommand :=
  ⟨fun w => ⟨decode_wellFormed w, encode_decode w⟩, rows_disjoint, no_row_hits_iff⟩

/-! ## The illegal words (R88) -/

theorem formatOf_eq_none_iff (o : BitVec 4) : formatOf o = none ↔ 8 ≤ o.toNat := by revert o; decide
theorem formatOf_eq_n_iff (o : BitVec 4) : formatOf o = some .n ↔ o ∈ [0x0#4, 0x1#4, 0x6#4] := by revert o; decide
theorem formatOf_eq_m_iff (o : BitVec 4) : formatOf o = some .m ↔ o ∈ [0x2#4, 0x3#4] := by revert o; decide
theorem formatOf_eq_i_iff (o : BitVec 4) : formatOf o = some .i ↔ o ∈ [0x4#4, 0x5#4, 0x7#4] := by revert o; decide

/-- R88 (a) to (e) are one clause for the reserved operations, one each for formats N and I, and two for format M. -/
theorem illegalWord_iff (w : CmdWord) : illegalWord w = true ↔
      (8 ≤ (w.extractLsb' 20 4).toNat
      ∨ (w.extractLsb' 20 4 ∈ [0x0#4, 0x1#4, 0x6#4] ∧ w.extractLsb' 0 20 ≠ 0#20)
      ∨ (w.extractLsb' 20 4 ∈ [0x2#4, 0x3#4] ∧ (w.extractLsb' 18 1 ≠ 0#1 ∨ w.extractLsb' 0 16 ≠ 0#16))
      ∨ (w.extractLsb' 20 4 ∈ [0x2#4, 0x3#4] ∧ w.extractLsb' 19 1 = 1#1 ∧ w.extractLsb' 16 2 ≠ 0#2)
      ∨ (w.extractLsb' 20 4 ∈ [0x4#4, 0x5#4, 0x7#4] ∧ w.extractLsb' 16 4 ≠ 0#4)) := by
  rw [← formatOf_eq_none_iff, ← formatOf_eq_n_iff, ← formatOf_eq_m_iff, ← formatOf_eq_i_iff, illegalWord]
  cases formatOf (w.extractLsb' 20 4) with
  | none => simp
  | some f =>
    cases f with
    | n => simp
    | m => simp [or_assoc]
    | i => simp

/-- The START micro-step of ILLEGAL is a failed completion with ILLEGAL_CMD (R214). -/
theorem exec_illegal (v : CmdWord) (s : State) : exec (.illegal v) s = .next { s with
    result := { ok := false, value := 0x0000#16 }, status := 4#3, busy := false, hostPhase := .idle } := rfl

/-- Settles O3: R88's clauses by format, and the failed completion. -/
theorem illegalWordsAreThoseNamed : Obligations.IllegalWordsAreThoseNamed := by
  intro w
  refine ⟨(exists_decode_illegal_iff w).trans (illegalWord_iff w), ?_⟩
  rintro s ⟨v, h⟩
  rw [h, exec_illegal]

/-! ## The examples and the pseudo-instructions (R94, R95) -/

/-- Settles O4: each example is well-formed and has the word given, so the word decodes to it. -/
theorem specWordsDecode : Obligations.SpecWordsDecode := by
  intro x hx
  obtain ⟨hwf, henc⟩ : x.1.wellFormed = true ∧ encode x.1 = x.2 := by revert x; decide
  exact ⟨henc ▸ decode_encode hwf, henc⟩

/-- Settles O6: a pseudo-instruction assembles to the command it stands for, whose word is evaluated. -/
theorem pseudoInstructionsExpand : Obligations.PseudoInstructionsExpand := by
  intro p
  have hmeasure : encode .measureCur = 0x380000#24 := by decide
  have hextract : encode .extractCur = 0x280000#24 := by decide
  have hclear : encode (.setdig 0#16) = 0x400000#24 := by decide
  have hwait : encode (.waitms 500#16) = 0x7001F4#24 := by decide
  refine ⟨rfl, congrArg some hmeasure, rfl, congrArg some hextract, rfl, congrArg some hclear, rfl, fun h => ?_⟩
  simp [assembleWord, assemble, assembleImm, h, hwait]

end Sys2Proof
end

section
/-! PROOF. The event words (30_encoding.md R90, R91): a word is its KIND and its DATA, the decoder has one equation for each
KIND, and words and events correspond. -/

namespace Sys2Proof

/-! ## The fields of an event word (R90) -/

theorem kind_append_data (w : EventWord) : w.extractLsb' 8 4 ++ w.extractLsb' 0 8 = w :=
  BitVec.extractLsb'_append_extractLsb' (w := 4)

theorem kind_append_sbz_append_level (w : EventWord) :
    w.extractLsb' 8 4 ++ w.extractLsb' 1 7 ++ BitVec.ofBool (w.getLsbD 0) = w := by
  apply BitVec.eq_of_getLsbD_eq
  intro i hi
  simp only [BitVec.getLsbD_append, BitVec.getLsbD_extractLsb']
  interval_cases i <;> simp

theorem eventKind_cases (k : BitVec 4) : k = 0 ∨ k = 1 ∨ k = 2 ∨ k = 3 ∨ k = 4 ∨ 5 ≤ k.toNat := by revert k; decide

/-! ## The decoder, KIND by KIND (R90, R91) -/

section Kinds
variable {w : EventWord}

theorem decodeEvent_kind_reset (hk : w.extractLsb' 8 4 = 0x0#4) :
    decodeEvent w = if w.extractLsb' 1 7 = 0#7 then some (.reset (w.getLsbD 0)) else none := by
  simp [decodeEvent, hk]

theorem decodeEvent_kind_ms (hk : w.extractLsb' 8 4 = 0x1#4) :
    decodeEvent w = if w.extractLsb' 0 8 = 0#8 then some .ms else none := by
  simp [decodeEvent, hk]

theorem decodeEvent_kind_tone (hk : w.extractLsb' 8 4 = 0x2#4) :
    decodeEvent w = if w.extractLsb' 0 8 = 0#8 then some .tone else none := by
  simp [decodeEvent, hk]

theorem decodeEvent_kind_rxByte (hk : w.extractLsb' 8 4 = 0x3#4) :
    decodeEvent w = some (.rxByte (w.extractLsb' 0 8)) := by
  simp [decodeEvent, hk]

theorem decodeEvent_kind_btn (hk : w.extractLsb' 8 4 = 0x4#4) :
    decodeEvent w = if w.extractLsb' 1 7 = 0#7 then some (.btn (w.getLsbD 0)) else none := by
  simp [decodeEvent, hk]

theorem decodeEvent_kind_reserved (hk : 5 ≤ (w.extractLsb' 8 4).toNat) : decodeEvent w = none := by
  have hne : ∀ k : BitVec 4, k.toNat < 5 → w.extractLsb' 8 4 ≠ k := by
    intro k hlt heq
    rw [heq] at hk
    omega
  simp [decodeEvent, hne]

end Kinds

/-! ## Words and events correspond -/

theorem decodeEvent_encodeEvent (e : Event) : decodeEvent (encodeEvent e) = some e := by
  cases e with
  | reset b => cases b <;> decide
  | ms => decide
  | tone => decide
  | rxByte b =>
    have hk : (encodeEvent (.rxByte b)).extractLsb' 8 4 = 0x3#4 := BitVec.extractLsb'_append_eq_left
    have hd : (encodeEvent (.rxByte b)).extractLsb' 0 8 = b := BitVec.extractLsb'_append_eq_right
    rw [decodeEvent_kind_rxByte hk, hd]
  | btn l => cases l <;> decide

/-- A word that names an event has its KIND, and its SBZ bits clear, so its fields are the event's. -/
theorem encodeEvent_of_decodeEvent {w : EventWord} {e : Event} (h : decodeEvent w = some e) : encodeEvent e = w := by
  have hdata := kind_append_data w
  have hlevel := kind_append_sbz_append_level w
  rcases eventKind_cases (w.extractLsb' 8 4) with hk | hk | hk | hk | hk | hk
  · rw [decodeEvent_kind_reset hk, Option.ite_none_right_eq_some, Option.some.injEq] at h
    obtain ⟨hsbz, rfl⟩ := h
    rwa [hk, hsbz] at hlevel
  · rw [decodeEvent_kind_ms hk, Option.ite_none_right_eq_some, Option.some.injEq] at h
    obtain ⟨hzero, rfl⟩ := h
    rwa [hk, hzero] at hdata
  · rw [decodeEvent_kind_tone hk, Option.ite_none_right_eq_some, Option.some.injEq] at h
    obtain ⟨hzero, rfl⟩ := h
    rwa [hk, hzero] at hdata
  · rw [decodeEvent_kind_rxByte hk, Option.some.injEq] at h
    subst h
    rwa [hk] at hdata
  · rw [decodeEvent_kind_btn hk, Option.ite_none_right_eq_some, Option.some.injEq] at h
    obtain ⟨hsbz, rfl⟩ := h
    rwa [hk, hsbz] at hlevel
  · simp [decodeEvent_kind_reserved hk] at h

theorem decodeEvent_eq_none_iff (w : EventWord) : decodeEvent w = none ↔
      (5 ≤ (w.extractLsb' 8 4).toNat
      ∨ (w.extractLsb' 8 4 ∈ [0x0#4, 0x4#4] ∧ w.extractLsb' 1 7 ≠ 0#7)
      ∨ (w.extractLsb' 8 4 ∈ [0x1#4, 0x2#4] ∧ w.extractLsb' 0 8 ≠ 0#8)) := by
  rcases eventKind_cases (w.extractLsb' 8 4) with hk | hk | hk | hk | hk | hk
  · simp [decodeEvent_kind_reset, hk]
  · simp [decodeEvent_kind_ms, hk]
  · simp [decodeEvent_kind_tone, hk]
  · simp [decodeEvent_kind_rxByte, hk]
  · simp [decodeEvent_kind_btn, hk]
  · exact iff_of_true (decodeEvent_kind_reserved hk) (.inl hk)

/-- Settles O5: both directions of the correspondence, and the words the decoder refuses. -/
theorem eventWordsNameEvents : Obligations.EventWordsNameEvents :=
  ⟨decodeEvent_encodeEvent, fun _ _ => encodeEvent_of_decodeEvent, decodeEvent_eq_none_iff⟩

end Sys2Proof
end

section
/-! PROOF. Extraction (40_frame_decoder.md section 4, R123 to R125): a field lies at its mode's offset, and EXTRACT and
MEASURE's last micro-step are `finishExtraction` of the effective mode, each in one equation per case. -/

namespace Sys2Proof.Machine

/-! ## A mode's field (R124) -/

/-- The modes that have a field, with its offset (R80, R124). -/
theorem fieldOffset_of_mem {p : Params} {m : ModeBits} {off : Nat}
    (h : (m, off) ∈ [(0#2, p.offPm1_0), (1#2, p.offPm2_5), (2#2, p.offPm10)]) : fieldOffset p m = some off := by
  simp only [List.mem_cons, Prod.mk.injEq, List.not_mem_nil, or_false] at h
  obtain ⟨rfl, rfl⟩ | ⟨rfl, rfl⟩ | ⟨rfl, rfl⟩ := h <;> rfl

theorem fieldOffset_three (p : Params) : fieldOffset p 3#2 = none := rfl

theorem ne_three_of_fieldOffset {p : Params} {m : ModeBits} {off : Nat} (h : fieldOffset p m = some off) : m ≠ 3#2 := by
  rintro rfl
  rw [fieldOffset_three] at h
  cases h

theorem exists_fieldOffset (p : Params) {m : ModeBits} (hm : m ≠ 3#2) : ∃ off, fieldOffset p m = some off := by
  have hcases : m = 0#2 ∨ m = 1#2 ∨ m = 2#2 ∨ m = 3#2 := by revert m; decide
  obtain rfl | rfl | rfl | rfl := hcases
  · exact ⟨p.offPm1_0, rfl⟩
  · exact ⟨p.offPm2_5, rfl⟩
  · exact ⟨p.offPm10, rfl⟩
  · exact absurd rfl hm

/-! ## A host extraction's end (R123, R125) -/

section Finish
variable {s : State} {m : ModeBits} {off : Nat}

theorem finishExtraction_three (s : State) : finishExtraction 3#2 s = .next (completeFail errInvalidMode s) := rfl

theorem finishExtraction_of_read {hi lo : Byte} (ho : fieldOffset s.params m = some off)
    (h1 : Memory.read s.frameHost off = some hi) (h2 : Memory.read s.frameHost (off + 1) = some lo) :
    finishExtraction m s = .next (completeOk (bigEndian hi lo) s) := by
  have hx := extractField_of_read (c := .host) ho h1 h2
  simp only [finishExtraction, hx]

theorem finishExtraction_unwritten (ho : fieldOffset s.params m = some off)
    (h : Memory.read s.frameHost off = none ∨ Memory.read s.frameHost (off + 1) = none) :
    finishExtraction m s = .fault .unwrittenFrameByte := by
  have h16 : Memory.read16 (frame .host s) off = none := by
    unfold Memory.read16
    obtain h | h := h
    · simp [frame, h]
    · cases hr : Memory.read s.frameHost off <;> simp [frame, h, hr]
  simp [finishExtraction, extractField, ho, h16]

end Finish

/-! ## EXTRACT (R123, R232) -/

section Extract
variable {s : State} {m : ModeBits}

theorem extractHost_three (s : State) : extractHost 3#2 s = .next (completeFail errInvalidMode s) := by
  simp [extractHost, finishExtraction_three]

theorem extractHost_noFrame (hm : m ≠ 3#2) (hv : s.frameValidHost = false) :
    extractHost m s = .next (completeFail errNoFrame s) := by
  simp [extractHost, frameValid, hm, hv]

theorem extractHost_of_valid (hv : s.frameValidHost = true) : extractHost m s = finishExtraction m s := by
  simp [extractHost, frameValid, hv]

theorem exec_extractCur (hm : s.mode ≠ 3#2) : exec .extractCur s = extractHost s.mode s := by
  simp [exec, execExtractCur, currentMode, hm]

end Extract

/-- Settles O16: `extractHost` case by case, in the order of R232. -/
theorem extractResult : Obligations.ExtractResult := by
  intro s m
  refine ⟨?_, fun hm hv => ?_, fun off hi lo hmem hv h1 h2 => ?_, fun off hmem hv h => ?_⟩
  · rintro rfl
    exact extractHost_three s
  · exact extractHost_noFrame hm hv
  · exact (extractHost_of_valid hv).trans (finishExtraction_of_read (fieldOffset_of_mem hmem) h1 h2)
  · exact (extractHost_of_valid hv).trans (finishExtraction_unwritten (fieldOffset_of_mem hmem) h)

/-- Settles O17: EXTRACT CUR is EXTRACT of MODE, and MODE = 3 stops it before that. -/
theorem extractCurReadsMode : Obligations.ExtractCurReadsMode := by
  intro s
  refine ⟨fun hm => ?_, fun hm hv => ?_, fun off hi lo hmem hv h1 h2 => ?_⟩
  · simp [exec, execExtractCur, currentMode, hm]
  · rw [exec_extractCur hm, extractHost_noFrame hm hv]
    rfl
  · have ho := fieldOffset_of_mem hmem
    rw [exec_extractCur (ne_three_of_fieldOffset ho), extractHost_of_valid hv, finishExtraction_of_read ho h1 h2]
    rfl

/-! ## MEASURE's extraction (R125, R85) -/

/-- With C = 0 the effective mode is CMD's MODE field. -/
theorem hostExtract_of_modeField {s : State} (hc : s.cmd.c = false) : hostExtract s = finishExtraction s.cmd.modeField s := by
  simp [hostExtract, hc]

/-- With C = 1 the effective mode is the MODE register's. -/
theorem hostExtract_of_modeRegister {s : State} (hc : s.cmd.c = true) (hm : s.mode ≠ 3#2) :
    hostExtract s = finishExtraction s.mode s := by
  simp [hostExtract, currentMode, hc, hm]

/-- Settles O32: the two effective modes, each over the equations of a host extraction's end. -/
theorem measureExtraction : Obligations.MeasureExtraction := by
  intro s m off hi lo hsw hb hp hm
  rw [fgStep_hostExtract hsw hb hp]
  refine ⟨fun h3 hc => ?_, fun hmem h1 h2 => ?_⟩
  · have hfield : s.cmd.modeField = 3#2 := by
      rw [← h3, hm, hc]
      rfl
    rw [hostExtract_of_modeField hc, hfield, finishExtraction_three]
    rfl
  · have ho := fieldOffset_of_mem hmem
    have hx : hostExtract s = finishExtraction m s := by
      cases hc : s.cmd.getLsbD 19 with
      | false =>
        obtain rfl : m = s.cmd.modeField := by rw [hm, hc]; rfl
        exact hostExtract_of_modeField hc
      | true =>
        obtain rfl : m = s.mode := by rw [hm, hc]; rfl
        exact hostExtract_of_modeRegister hc (ne_three_of_fieldOffset ho)
    rw [hx, finishExtraction_of_read ho h1 h2]
    rfl

end Sys2Proof.Machine
end

section
/-! PROOF. The receive FIFO and one reception's micro-steps (40_frame_decoder.md sections 2, 3, 5 and 6): a byte's arrival, the
START micro-step of RDFRAME and MEASURE, each receive as a turn of FG, and a bad header. -/

namespace Sys2Proof.Machine

/-! ## Arrival (R111) -/

section Arrival
variable {depth : Nat} {q : List Byte}

theorem rxPush_of_room (policy : OverrunPolicy) (b : Byte) (h : q.length < depth) : rxPush depth policy q b = q ++ [b] := by
  simp [rxPush, h]

theorem rxPush_full_dropNew (b : Byte) (h : q.length = depth) : rxPush depth .dropNew q b = q := by
  simp [rxPush, h]

theorem rxPush_full_dropOldest (b : Byte) (h : q.length = depth) : rxPush depth .dropOldest q b = q.tail ++ [b] := by
  simp [rxPush, h]

end Arrival

/-- Settles O37: `rxPush` by room and policy, and the bound it keeps. -/
theorem byteArrival : Obligations.ByteArrival := by
  intro s b c q hdepth hle
  refine ⟨fun h => ?_, fun h hp => ?_, fun h hp hq => ?_, fun t ht => ?_⟩
  · simp only [eventStep, rxByteEvent, rxPush_of_room _ _ h]
  · simp only [eventStep, rxByteEvent, hp, rxPush_full_dropNew _ h]
  · simp only [eventStep, rxByteEvent, hp, rxPush_full_dropOldest _ h]
    rw [hq, List.tail_cons]
  · cases ht
    exact rxPush_length b hdepth hle

/-! ## The start of a reception (R120, R126, R127) -/

/-- Settles O15: the three forms start alike. -/
theorem receptionCommandsStart : Obligations.ReceptionCommandsStart := by
  rintro s i (rfl | ⟨m, rfl⟩ | rfl)
  · rfl
  · rfl
  · rfl

/-- The turn of FG that starts a host reception. -/
theorem fgStep_startRead {s : State} (h : hostIn .start s)
    (hd : decode s.cmd = .rdframe ∨ (∃ m, decode s.cmd = .measure m) ∨ decode s.cmd = .measureCur) :
    fgStep s = .next (startHostRead s) := by
  obtain ⟨hsw, hb, hp⟩ := h
  rw [fgStep_start hsw hb hp]
  exact receptionCommandsStart s _ hd

theorem reading_startHostRead {s : State} (hsw : s.swState = .idle) (hb : s.busy = true) : reading .host (startHostRead s) :=
  ⟨hsw, hb, rfl⟩

/-- A word of either form of MEASURE has MEASURE's OP (R84, R87). -/
theorem op_of_measure {w : CmdWord} (h : (∃ m, decode w = .measure m) ∨ decode w = .measureCur) : w.op = opMeasure := by
  obtain ⟨m, h⟩ | h := h <;> exact op_of_decode (by rw [h]; rfl)

theorem op_of_rdframe {w : CmdWord} (h : decode w = .rdframe) : w.op = opRdframe := op_of_decode (by rw [h]; rfl)

/-! ## Single receives (R121, R122) -/

section Received
variable (m : Memory) (r : Rd) (q : List Byte) (v : Bool) (s : State)

/-- What a receive leaves, as one update of the state before. -/
theorem received_host : received .host m r q s = { s with frameHost := m, rdHost := r, rxq := q } := rfl

theorem received_sw : received .sw m r q s = { s with frameSw := m, rdSw := r, rxq := q } := rfl

theorem setFrameValid_received_host : setFrameValid .host v (received .host m r q s)
    = { s with frameHost := m, frameValidHost := v, rdHost := r, rxq := q } := by
  simp only [setFrameValid, received_host]

theorem setFrameValid_received_sw : setFrameValid .sw v (received .sw m r q s)
    = { s with frameSw := m, frameValidSw := v, rdSw := r, rxq := q } := by
  simp only [setFrameValid, received_sw]

end Received

/-- Settles O58: each receive is the turn of FG that its outcome gives. -/
theorem receiveMicroStep : Obligations.ReceiveMicroStep := by
  intro s b q hq
  refine ⟨fun hsw hb hp => ?_, fun hsw => ?_⟩
  · have h : reading .host s := ⟨hsw, hb, hp⟩
    refine ⟨fun hr he => ?_, fun hr he => ?_, fun hr hl => ?_, fun hr hl hd => ?_, fun hr hl hd => ?_, fun hr he => ?_,
      fun hr he => ?_⟩
    · exact fgStep_more h (receive_h0_good hq hr he)
    · exact fgStep_more h (receive_h1_good hq hr he)
    · exact fgStep_more h (receive_pay_more hq hr hl)
    · rw [fgStep_hostFrame h (receive_pay_last hq hr hl) (op_of_rdframe hd), setFrameValid_received_host]
      rfl
    · rw [fgStep_hostMeasured h (receive_pay_last hq hr hl) (op_of_measure hd), setFrameValid_received_host]
      rfl
    · rw [fgStep_hostMismatch h (receive_h0_bad hq hr he), setFrameValid_received_host]
      rfl
    · rw [fgStep_hostMismatch h (receive_h1_bad hq hr he), setFrameValid_received_host]
      rfl
  · have h : reading .sw s := hsw
    refine ⟨fun hr he => ?_, fun hr he => ?_, fun hr hl => ?_, fun hr hl => ?_⟩
    · exact fgStep_more h (receive_h0_good hq hr he)
    · exact fgStep_more h (receive_h1_good hq hr he)
    · exact fgStep_more h (receive_pay_more hq hr hl)
    · rw [fgStep_swFrame h (receive_pay_last hq hr hl), setFrameValid_received_sw]
      rfl

/-! ## A bad header (R121, R129) -/

/-- Settles O25: START, then one or two receives, the last of which fails the command. -/
theorem headerMismatchConsumesOneOrTwo : Obligations.HeaderMismatchConsumesOneOrTwo := by
  rintro s i b0 b1 rest hsw hb hp rfl hi
  have hstart := fgStep_startRead ⟨hsw, hb, hp⟩ hi
  have h := reading_startHostRead hsw hb
  refine ⟨fun h0 hq => ?_, fun h0 h1 hq => ?_⟩
  · rw [fgRun_succ hstart, fgRun_succ (fgStep_hostMismatch h (receive_h0_bad hq rfl h0)), setFrameValid_received_host]
    rfl
  · have hfirst := receive_h0_good (c := .host) (s := startHostRead s) hq rfl h0
    have hsecond := receive_h1_bad (c := .host) (s := received .host (Memory.write (frame .host (startHostRead s)) 0 b0)
      { ph := .h1, idx := 0#5 } (b1 :: rest) (startHostRead s)) (rxq_received ..) rfl h1
    rw [fgRun_succ hstart, fgRun_succ (fgStep_more h hfirst),
      fgRun_succ (fgStep_hostMismatch (reading_received _ _ _ h) hsecond), received_received, setFrameValid_received_host]
    rfl

end Sys2Proof.Machine
end

section
/-! PROOF. Whole frames (40_frame_decoder.md sections 5 and 6, R126, R127, R130): a good frame that waits in RXQ, and one that
arrives byte by byte. The second is the first: a turn of FG that takes a byte does not look at the bytes behind it. -/

namespace Sys2Proof.Machine

/-! ## A good frame that waits in RXQ (R130) -/

/-- A whole frame whose header bytes are the required ones (R80, R81). -/
structure GoodFrame (p : Params) (bytes : List Byte) : Prop where
  length : bytes.length = p.frameLen
  first : bytes[0]? = some p.hdr0
  second : bytes[1]? = some p.hdr1

/-- The buffer m holds the frame, byte k at offset k, and reads as `old` past the frame's end (R62). -/
def FrameStored (p : Params) (bytes : List Byte) (old m : Memory) : Prop :=
  (∀ k, k < p.frameLen → Memory.read m k = bytes[k]?) ∧ ∀ k, p.frameLen ≤ k → Memory.read m k = Memory.read old k

/-- What a turn of FG comes to from the state u that its receive leaves, by the receive's outcome (R126, R127, R164). -/
def readTurn (c : Ctx) (o : RxOutcome) (u : State) : Host.Outcome State Fault Refusal :=
  match c, o with
  | _, .more => .next u
  | .host, .hdrMismatch => .next (completeFail errHdrMismatch u)
  | .host, .ok =>
    if u.cmd.op = opRdframe then .next (completeOk 0x0000#16 u)
    else if u.cmd.op = opMeasure then .next { u with hostPhase := .extract }
    else .fault .noRule
  | .sw, .hdrMismatch => .next (enterRelease u)
  | .sw, .ok => .next { u with swState := .extract }

theorem fgStep_eq_readTurn {c : Ctx} {o : RxOutcome} {s u : State} (h : reading c s) (hr : receive c s = some (o, u)) :
    fgStep s = readTurn c o u := by
  cases c with
  | host =>
    obtain ⟨hsw, hb, hp⟩ := h
    rw [fgStep_hostRead hsw hb hp, hostRead, hr]
    cases o <;> rfl
  | sw =>
    rw [fgStep_swRead h, swRead, hr]
    cases o <;> rfl

/-- A turn whose receive is not enabled changes nothing (R112). -/
theorem fgStep_of_receive_none {c : Ctx} {s : State} (h : reading c s) (hr : receive c s = none) : fgStep s = .next s := by
  cases c with
  | host =>
    obtain ⟨hsw, hb, hp⟩ := h
    rw [fgStep_hostRead hsw hb hp, hostRead, hr]
  | sw => rw [fgStep_swRead h, swRead, hr]

theorem readTurn_rdframe {u : State} (h : u.cmd.op = opRdframe) :
    readTurn .host .ok u = .next (completeOk 0x0000#16 u) := by
  simp [readTurn, h]

theorem readTurn_measure {u : State} (h : u.cmd.op = opMeasure) :
    readTurn .host .ok u = .next { u with hostPhase := .extract } := by
  have hne : opMeasure ≠ opRdframe := by decide
  simp [readTurn, h, hne]

theorem fgRun_one (s : State) : fgRun 1 s = fgStep s := by
  simp only [fgRun, List.replicate_one, moveRun, moveStep]
  cases fgStep s <;> rfl

/-- FRAME_LEN turns of FG from the start of a reception over a good frame: the frame is taken and stored, the rest of RXQ stays,
and the reception ends with OK. -/
theorem fgRun_goodFrame {c : Ctx} {s : State} {bytes rest : List Byte} (hwf : s.params.wf = true) (h : reading c s)
    (hrd : rd c s = { ph := .h0, idx := 0#5 }) (hq : s.rxq = bytes ++ rest) (hg : GoodFrame s.params bytes) :
    ∃ m, FrameStored s.params bytes (frame c s) m
      ∧ fgRun s.params.frameLen s
          = readTurn c .ok (setFrameValid c true (received c m { ph := .none, idx := 0#5 } rest s)) := by
  obtain ⟨hf3, hf32, -⟩ := params_wf_cases hwf
  obtain ⟨t, m, hrun, ht, hr, hin, hout⟩ := reception_run bytes rest h hrd hq hg.length hf3 hf32 hg.first hg.second
  refine ⟨m, ⟨hin, hout⟩, ?_⟩
  calc fgRun s.params.frameLen s
      = fgRun (s.params.frameLen - 1 + 1) s := by rw [Nat.sub_add_cancel (by omega)]
    _ = fgRun 1 t := fgRun_add hrun
    _ = _ := by rw [fgRun_one, fgStep_eq_readTurn ht hr]

/-- START and FRAME_LEN receives of RDFRAME or MEASURE over a good frame. -/
theorem fgRun_startGoodFrame {s : State} {bytes rest : List Byte} (hwf : s.params.wf = true) (h : hostIn .start s)
    (hd : decode s.cmd = .rdframe ∨ (∃ m, decode s.cmd = .measure m) ∨ decode s.cmd = .measureCur)
    (hq : s.rxq = bytes ++ rest) (hg : GoodFrame s.params bytes) :
    ∃ m, FrameStored s.params bytes s.frameHost m
      ∧ fgRun (1 + s.params.frameLen) s = readTurn .host .ok { s with
          frameHost := m, frameValidHost := true, rdHost := { ph := .none, idx := 0#5 }, rxq := rest, hostPhase := .read } := by
  have ⟨hsw, hb, _⟩ := h
  obtain ⟨m, hst, hrun⟩ := fgRun_goodFrame (c := .host) (s := startHostRead s) (rest := rest) hwf
    (reading_startHostRead hsw hb) rfl hq hg
  rw [setFrameValid_received_host] at hrun
  refine ⟨m, hst, ?_⟩
  rw [Nat.add_comm, fgRun_succ (fgStep_startRead h hd)]
  exact hrun

/-- Settles O23: START, then the whole frame. -/
theorem rdframeReceivesTheFrame : Obligations.RdframeReceivesTheFrame := by
  intro s bytes rest hwf hsw hb hp hd hq hlen h0 h1
  obtain ⟨m, ⟨hin, hout⟩, hrun⟩ := fgRun_startGoodFrame hwf ⟨hsw, hb, hp⟩ (.inl hd) hq ⟨hlen, h0, h1⟩
  exact ⟨m, hrun.trans (readTurn_rdframe (op_of_rdframe hd)), hin, hout⟩

/-! ## MEASURE over a good frame (R125, R127) -/

theorem c_encodeM_measure (m : ModeBits) : CmdWord.c (encodeM 0x3#4 0#1 m) = false := by revert m; decide

/-- C and MODE of a MEASURE's word (R84, R87). -/
theorem fields_of_measure {w : CmdWord} {m : ModeBits} (h : decode w = .measure m) : w.c = false ∧ w.modeField = m := by
  obtain rfl : encodeM 0x3#4 0#1 m = w := by rw [← encode_decode w, h]; rfl
  exact ⟨c_encodeM_measure m, by rw [encodeM_eq_pack]; exact pack_m _ _ _ _ _⟩

theorem c_of_measureCur {w : CmdWord} (h : decode w = .measureCur) : w.c = true := by
  obtain rfl : encodeM 0x3#4 1#1 0#2 = w := by rw [← encode_decode w, h]; rfl
  decide

/-- MEASURE's extraction takes the effective mode (R85). -/
theorem hostExtract_measure {s : State} {m : ModeBits}
    (h : decode s.cmd = .measure m ∨ (decode s.cmd = .measureCur ∧ s.mode = m ∧ m ≠ 3#2)) :
    hostExtract s = finishExtraction m s := by
  obtain h | ⟨h, rfl, hm⟩ := h
  · obtain ⟨hc, rfl⟩ := fields_of_measure h
    exact hostExtract_of_modeField hc
  · exact hostExtract_of_modeRegister (c_of_measureCur h) hm

/-- An extraction over a stored frame completes: with INVALID_MODE for mode 3, else with the field of the frame's bytes. -/
theorem finishExtraction_of_stored {s : State} {bytes : List Byte} {old : Memory} (m : ModeBits) (hwf : s.params.wf = true)
    (hlen : bytes.length = s.params.frameLen) (hst : FrameStored s.params bytes old s.frameHost) :
    ∃ (r : Result) (e : BitVec 3), finishExtraction m s = .next (complete r.ok r.value e s)
      ∧ (m = 3#2 → r = { ok := false, value := 0x0000#16 } ∧ e = errInvalidMode)
      ∧ ∀ off hi lo, fieldOffset s.params m = some off → bytes[off]? = some hi → bytes[off + 1]? = some lo →
          r.ok = true ∧ r.value.toNat = hi.toNat * 256 + lo.toNat ∧ e = errNone := by
  obtain ⟨hin, -⟩ := hst
  by_cases hm : m = 3#2
  · subst hm
    exact ⟨{ ok := false, value := 0x0000#16 }, errInvalidMode, finishExtraction_three s, fun _ => ⟨rfl, rfl⟩,
      fun off hi lo ho => absurd rfl (ne_three_of_fieldOffset ho)⟩
  · obtain ⟨off, ho⟩ := exists_fieldOffset s.params hm
    have hlt := fieldOffset_lt hwf ho
    obtain ⟨hi, h1⟩ : ∃ hi, bytes[off]? = some hi := ⟨_, List.getElem?_eq_getElem (by omega)⟩
    obtain ⟨lo, h2⟩ : ∃ lo, bytes[off + 1]? = some lo := ⟨_, List.getElem?_eq_getElem (by omega)⟩
    have hx := finishExtraction_of_read ho ((hin off (by omega)).trans h1) ((hin (off + 1) hlt).trans h2)
    refine ⟨{ ok := true, value := bigEndian hi lo }, errNone, hx, fun h3 => absurd h3 hm, fun off' hi' lo' ho' h1' h2' => ?_⟩
    obtain rfl : off = off' := Option.some.inj (ho.symm.trans ho')
    obtain rfl : hi = hi' := Option.some.inj (h1.symm.trans h1')
    obtain rfl : lo = lo' := Option.some.inj (h2.symm.trans h2')
    exact ⟨rfl, bigEndian_toNat hi lo, rfl⟩

/-- Settles O24: START, the whole frame, then the extraction over it. -/
theorem measureReturnsTheField : Obligations.MeasureReturnsTheField := by
  intro s bytes rest m hwf hsw hb hp hd hq hlen h0 h1
  have hmeasure : (∃ n, decode s.cmd = .measure n) ∨ decode s.cmd = .measureCur := hd.imp (⟨m, ·⟩) And.left
  obtain ⟨f, hst, hrun⟩ := fgRun_startGoodFrame hwf ⟨hsw, hb, hp⟩ (.inr hmeasure) hq ⟨hlen, h0, h1⟩
  have htaken := hrun.trans (readTurn_measure (op_of_measure hmeasure))
  set u : State := { s with
    frameHost := f, frameValidHost := true, rdHost := { ph := .none, idx := 0#5 }, rxq := rest, hostPhase := .extract }
  obtain ⟨r, e, hx, hbad, hgood⟩ := finishExtraction_of_stored (s := u) m hwf hlen hst
  have hlast : fgStep u = .next (complete r.ok r.value e u) := by
    rw [fgStep_hostExtract (s := u) hsw hb rfl, hostExtract_measure (s := u) hd, hx]
  obtain ⟨hin, hout⟩ := hst
  refine ⟨f, r, e, ?_, hin, hout, hbad, fun off hi lo hmem => hgood off hi lo (fieldOffset_of_mem hmem)⟩
  calc fgRun (2 + s.params.frameLen) s
      = fgRun (1 + s.params.frameLen + 1) s := by congr 1; omega
    _ = fgRun 1 u := fgRun_add htaken
    _ = _ := fgRun_succ hlast

/-! ## A frame that arrives byte by byte (R111, R112) -/

/-- s with q waiting in RXQ. -/
def withRxq (q : List Byte) (s : State) : State := { s with rxq := q }

section WithRxq
variable (c : Ctx) (q q' : List Byte) (s : State)

@[simp] theorem rxq_withRxq : (withRxq q s).rxq = q := rfl
@[simp] theorem params_withRxq : (withRxq q s).params = s.params := rfl
@[simp] theorem rd_withRxq : rd c (withRxq q s) = rd c s := rd_setRxq c q s
@[simp] theorem frame_withRxq : frame c (withRxq q s) = frame c s := frame_setRxq c q s
@[simp] theorem withRxq_self : withRxq s.rxq s = s := rfl

@[simp] theorem received_withRxq (m : Memory) (r : Rd) : received c m r q (withRxq q' s) = received c m r q s := by
  cases c <;> rfl

@[simp] theorem withRxq_received (m : Memory) (r : Rd) : withRxq q' (received c m r q s) = received c m r q' s := by
  cases c <;> rfl

@[simp] theorem withRxq_setFrameValid (v : Bool) : withRxq q (setFrameValid c v s) = setFrameValid c v (withRxq q s) := by
  cases c <;> rfl

theorem reading_withRxq (h : reading c s) : reading c (withRxq q s) := by cases c <;> exact h

end WithRxq

section Turn
variable {c : Ctx} {o : RxOutcome} {s t u : State}

/-- A receive takes the head of RXQ and does not look at the bytes behind it. -/
theorem receive_withRxq {b : Byte} {q : List Byte} (hq : s.rxq = b :: q) (h : receive c s = some (o, u)) (q' : List Byte) :
    u.rxq = q ∧ receive c (withRxq (b :: q') s) = some (o, withRxq q' u) := by
  have hq' : (withRxq (b :: q') s).rxq = b :: q' := rfl
  obtain ⟨_, _, hb, hc⟩ := receive_cases h
  cases hq.symm.trans hb
  obtain ⟨hp, hb, rfl, rfl⟩ | ⟨hp, hb, rfl, rfl⟩ | ⟨hp, hb, rfl, rfl⟩ | ⟨hp, hb, rfl, rfl⟩ | ⟨hp, hl, rfl, rfl⟩
    | ⟨hp, hl, rfl, rfl⟩ := hc <;> rw [← rd_withRxq c (b :: q') s] at hp
  · simp [receive_h0_good hq' hp hb]
  · simp [receive_h0_bad hq' hp hb]
  · simp [receive_h1_good hq' hp hb]
  · simp [receive_h1_bad hq' hp hb]
  · simp [receive_pay_more hq' hp (by rwa [rd_withRxq])]
  · simp [receive_pay_last hq' hp (by rwa [rd_withRxq])]

/-- What a turn does after its receive neither looks at RXQ nor changes it. -/
theorem readTurn_withRxq (h : readTurn c o u = .next t) (q : List Byte) :
    t.rxq = u.rxq ∧ readTurn c o (withRxq q u) = .next (withRxq q t) := by
  cases c <;> cases o
  case host.ok =>
    have hcmd : (withRxq q u).cmd = u.cmd := rfl
    simp only [readTurn, hcmd] at h ⊢
    split_ifs at h ⊢ <;> (cases h; exact ⟨rfl, rfl⟩)
  all_goals (cases h; exact ⟨rfl, rfl⟩)

/-- A turn of FG that changes RXQ takes one byte, and takes it alike whatever bytes are behind it. -/
theorem fgStep_takes (h : fgStep s = .next t) (hne : t.rxq ≠ s.rxq) :
    ∃ b, s.rxq = b :: t.rxq ∧ ∀ q, fgStep (withRxq (b :: q) s) = .next (withRxq q t) := by
  obtain ⟨c, hc⟩ : ∃ c, reading c s := by
    obtain hsw | hhost := (fgStep_cases h).writes.rxq.resolve_left hne
    · exact ⟨.sw, hsw⟩
    · exact ⟨.host, hhost⟩
  cases hr : receive c s with
  | none =>
    rw [fgStep_of_receive_none hc hr] at h
    cases h
    exact absurd rfl hne
  | some p =>
    obtain ⟨o, u⟩ := p
    have hturn : readTurn c o u = .next t := (fgStep_eq_readTurn hc hr).symm.trans h
    obtain ⟨b, q, hq, -⟩ := receive_cases hr
    obtain ⟨htail, -⟩ := receive_withRxq hq hr []
    obtain ⟨hkeep, -⟩ := readTurn_withRxq hturn []
    refine ⟨b, by rw [hq, hkeep, htail], fun q' => ?_⟩
    obtain ⟨-, hr'⟩ := receive_withRxq hq hr q'
    obtain ⟨-, hturn'⟩ := readTurn_withRxq hturn q'
    rw [fgStep_eq_readTurn (reading_withRxq _ _ _ hc) hr', hturn']

end Turn

/-- A run of n + 1 turns is one turn and a run of n. -/
theorem exists_of_fgRun_succ {n : Nat} {s t : State} (h : fgRun (n + 1) s = .next t) :
    ∃ u, fgStep s = .next u ∧ fgRun n u = .next t := by
  cases hs : fgStep s with
  | next u => exact ⟨u, rfl, by rw [← fgRun_succ hs, h]⟩
  | fault f => simp [fgRun, List.replicate_succ, moveRun, moveStep, hs] at h
  | refused r => simp [fgRun, List.replicate_succ, moveRun, moveStep, hs] at h

/-- A run of n turns takes at most n bytes. -/
theorem rxq_length_le_of_fgRun {n : Nat} {s t : State} (h : fgRun n s = .next t) : s.rxq.length ≤ n + t.rxq.length := by
  induction n generalizing s with
  | zero =>
    cases h
    omega
  | succ n ih =>
    obtain ⟨u, hu, hrun⟩ := exists_of_fgRun_succ h
    have hle := ih hrun
    have hone : s.rxq.length ≤ u.rxq.length + 1 := by
      by_cases hne : u.rxq = s.rxq
      · rw [hne]
        omega
      · obtain ⟨b, hb, -⟩ := fgStep_takes hu hne
        simp [hb]
    omega

theorem eventStep_rxByte_empty {s : State} (b : Byte) (hdepth : 1 ≤ s.params.rxFifoDepth) :
    eventStep (.rxByte b) (withRxq [] s) = .next (withRxq [b] s) := by
  obtain ⟨hroom, -⟩ := byteArrival (withRxq [] s) b b [] hdepth (Nat.zero_le _)
  exact hroom hdepth

/-- A run of FG that takes all of RXQ, a byte in each turn, is the same run when each byte arrives just before its turn: an RXQ
of one byte's room is enough. -/
theorem moveRun_arrivals (bs : List Byte) {s t : State} (hdepth : 1 ≤ s.params.rxFifoDepth)
    (h : fgRun bs.length (withRxq bs s) = .next t) (ht : t.rxq = []) :
    moveRun (bs.flatMap fun b => [.event (.rxByte b), .fg]) (withRxq [] s) = .next t := by
  induction bs generalizing s with
  | nil => exact h
  | cons b bs ih =>
    obtain ⟨u, hu, hrun⟩ := exists_of_fgRun_succ h
    have hlen := rxq_length_le_of_fgRun hrun
    have hne : u.rxq ≠ b :: bs := fun he => by simp [he, ht] at hlen
    obtain ⟨b', hb, hturn⟩ := fgStep_takes hu hne
    obtain ⟨rfl, hbs⟩ := List.cons.inj hb
    have harrive : moveStep (.event (.rxByte b)) (withRxq [] s) = .next (withRxq [b] s) := eventStep_rxByte_empty b hdepth
    have htake : moveStep .fg (withRxq [b] s) = .next (withRxq [] u) := hturn []
    obtain ⟨hparams, -⟩ := fgStep_sameSetup hu
    have hbehind : withRxq bs u = u := by rw [hbs, withRxq_self]
    have hrest : moveRun (bs.flatMap fun b => [.event (.rxByte b), .fg]) (withRxq [] u) = .next t :=
      ih (by rwa [hparams]) (by rwa [hbehind])
    rw [List.flatMap_cons, List.cons_append, moveRun_cons harrive, List.cons_append, moveRun_cons htake]
    exact hrest

/-- A good frame that arrives byte by byte from the start of a reception ends it as one that waits in RXQ does. -/
theorem moveRun_goodFrame {c : Ctx} {s : State} {bytes : List Byte} (hwf : s.params.wf = true) (h : reading c s)
    (hrd : rd c s = { ph := .h0, idx := 0#5 }) (hq : s.rxq = []) (hg : GoodFrame s.params bytes) :
    ∃ m, FrameStored s.params bytes (frame c s) m
      ∧ ∀ t, readTurn c .ok (setFrameValid c true (received c m { ph := .none, idx := 0#5 } s.rxq s)) = .next t →
          moveRun (bytes.flatMap fun b => [.event (.rxByte b), .fg]) s = .next t := by
  obtain ⟨-, -, -, -, -, hdepth⟩ := params_wf_cases hwf
  obtain ⟨m, hst, hrun⟩ := fgRun_goodFrame (s := withRxq bytes s) (rest := []) hwf (reading_withRxq _ _ _ h)
    (by rwa [rd_withRxq]) (by simp) hg
  rw [frame_withRxq] at hst
  refine ⟨m, hst, fun t ht => ?_⟩
  obtain ⟨hrxq, -⟩ := readTurn_withRxq ht []
  rw [received_withRxq, params_withRxq, ← hq, ht] at hrun
  have hall := moveRun_arrivals bytes hdepth (hg.length ▸ hrun) (by rw [hrxq]; simp [hq])
  rwa [← hq, withRxq_self] at hall

/-- Settles O59: the reception of either context, and the turn its last byte ends it with. -/
theorem frameArrivesByteByByte : Obligations.FrameArrivesByteByByte := by
  intro s bytes hwf hq hlen h0 h1
  refine ⟨fun hsw hb hp hrd => ?_, fun hsw hrd => ?_⟩
  · obtain ⟨m, ⟨hin, hout⟩, hrun⟩ := moveRun_goodFrame (c := .host) hwf ⟨hsw, hb, hp⟩ hrd hq ⟨hlen, h0, h1⟩
    rw [setFrameValid_received_host] at hrun
    exact ⟨m, hin, hout, fun hd => hrun _ (readTurn_rdframe (op_of_rdframe hd)),
      fun hd => hrun _ (readTurn_measure (op_of_measure hd))⟩
  · obtain ⟨m, ⟨hin, hout⟩, hrun⟩ := moveRun_goodFrame (c := .sw) hwf hsw hrd hq ⟨hlen, h0, h1⟩
    rw [setFrameValid_received_sw] at hrun
    exact ⟨m, hin, hout, hrun _ rfl⟩

end Sys2Proof.Machine
end

section
/-! PROOF. The display (41_display.md): a whole SETDIG (R140 to R142), the scan tick (R145 to R147, R150), and what MS events
show and visit whatever FG does (R144, R148). -/

namespace Sys2Proof.Machine

/-! ## SETDIG (R140 to R142) -/

/-- Settles O19: START is the dispatch's SETDIG arm, which clears HOST_K and enters WRITE. -/
theorem setdigStarts : Obligations.SetdigStarts := fun _ _ => rfl

/-- Settles O26: after START the four writes run to the end, and in any order that visits each digit once they leave the
digits of s. -/
theorem setdigWritesSaturatedDigits : Obligations.SetdigWritesSaturatedDigits := by
  intro s v hwf hsw hb hp hd hv
  obtain ⟨-, -, hn, -⟩ := params_wf_counts hwf
  have hwrites := hostK_finish (k := 0) (s := { s with hostK := 0#3, hostPhase := .write }) hn ⟨hsw, hb, rfl⟩ rfl (by decide)
  rw [fgRun_succ (fgStep_setdigStart ⟨hsw, hb, hp⟩ hd), hwrites, writeDigits_all hwf, hv]
  rfl

/-! ## The scan tick (R145 to R147, R150) -/

section ScanTick
variable {s : State}

theorem blankPosition_iff :
    blankPosition s = true ↔ s.pos = 0 ∧ s.digits.d0 = 0#4 ∧ s.digits.d1 = 0#4 ∧ s.digits.d2 = 0#4 := by
  simp [blankPosition, and_assoc]

theorem blankPosition_of_pos_ne_zero (h : s.pos ≠ 0) : blankPosition s = false := by
  simp [blankPosition, h]

theorem scanTick_of_blank (h : blankPosition s = true) :
    scanTick s = some { s with segOut := 0x00#8, dselOut := 0b0000#4, pos := nextPosition s.params s.pos } := by
  simp [scanTick, h]

theorem scanTick_of_segCode {i : Fin 4} {code : Byte} (hpos : s.pos = i) (h : blankPosition s = false)
    (hc : segCode s.params (Digits.get s.digits i) = some code) :
    scanTick s = some { s with segOut := code, dselOut := selectLine i, pos := nextPosition s.params s.pos } := by
  subst hpos; simp [scanTick, h, hc]

/-- A digit over 9 has no code (R150), and its position is not blanked: a blanked one shows DIGITS[0] = 0. -/
theorem scanTick_of_digit_gt_nine (h : 9 < (Digits.get s.digits s.pos).toNat) : scanTick s = none := by
  have hlit : blankPosition s = false := by
    refine Bool.eq_false_iff.mpr fun hb => ?_
    obtain ⟨hpos, h0, -⟩ := blankPosition_iff.mp hb
    simp [hpos, Digits.get, h0] at h
  have hcode : segCode s.params (Digits.get s.digits s.pos) = none :=
    Option.eq_none_iff_forall_ne_some.mpr fun code hc => absurd (segCode_isSome.mpr ⟨code, hc⟩) (by omega)
  simp [scanTick, hlit, hcode]

end ScanTick

/-- Settles O33: a blanked position 0, each position that is lit, the position after, SEGTAB's domain, and a digit over 9. -/
theorem scanTickDrivesOneDigit : Obligations.ScanTickDrivesOneDigit := by
  intro s after
  refine ⟨fun hpos h0 h1 h2 => scanTick_of_blank (blankPosition_iff.mpr ⟨hpos, h0, h1, h2⟩), fun hpos hd code => ?_,
    fun hpos code => ?_, fun hpos code => ?_, fun hpos code => ?_, fun hn => ?_, fun d => ⟨rfl, segCode_isSome⟩,
    scanTick_of_digit_gt_nine⟩
  · refine scanTick_of_segCode hpos (Bool.eq_false_iff.mpr fun hb => ?_)
    obtain ⟨-, h0, h1, h2⟩ := blankPosition_iff.mp hb
    simp [h0, h1, h2] at hd
  · exact scanTick_of_segCode hpos (blankPosition_of_pos_ne_zero (by simp [hpos]))
  · exact scanTick_of_segCode hpos (blankPosition_of_pos_ne_zero (by simp [hpos]))
  · exact scanTick_of_segCode hpos (blankPosition_of_pos_ne_zero (by simp [hpos]))
  · have hafter : after.val = (s.pos.val + 1) % 4 := nextPosition_val hn s.pos
    exact Fin.ext (by rw [hafter, Fin.val_add]; rfl)

/-! ## The scanner and the foreground (R144, R237) -/

/-- The scan tick reads POS, DIGITS, SEGTAB and NUM_DIGITS alone. -/
theorem scanTick_congr {s s' t : State} (hpos : s.pos = s'.pos) (hdig : s.digits = s'.digits)
    (hseg : s.params.segTab = s'.params.segTab) (hnum : s.params.numDigits = s'.params.numDigits)
    (h : scanTick s = some t) :
    scanTick s' = some { s' with segOut := t.segOut, dselOut := t.dselOut, pos := t.pos } := by
  have hblank : blankPosition s = blankPosition s' := by simp [blankPosition, hpos, hdig]
  have hcode (d : BitVec 4) : segCode s.params d = segCode s'.params d := by simp [segCode, hseg]
  have hnext (i : Fin 4) : nextPosition s.params i = nextPosition s'.params i := by simp [nextPosition, hnum]
  obtain ⟨seg, sel, rfl, ⟨hb, rfl, rfl⟩ | ⟨hb, rfl, hc⟩⟩ := scanTick_cases h
  · rw [scanTick_of_blank (hblank ▸ hb), hnext, hpos]
  · rw [hcode, hdig] at hc
    rw [scanTick_of_segCode hpos.symm (hblank ▸ hb) hc, hnext, hpos]

/-- An MS event drives what its scan tick does (R240). -/
theorem eventStep_ms_of_scanTick {s t : State} (h : scanTick s = some t) : eventStep .ms s = .next { t with
    swCnt := debounceCount s, swDue := releaseDue s, swPoll := pollCount s, hostCnt := waitCount s } := by
  simp [eventStep, msEvent, h]

/-- Settles O35: inside the rules the scan tick always happens, and it reads only what the two states agree on. -/
theorem scannerIgnoresTheForeground : Obligations.ScannerIgnoresTheForeground := by
  intro s s' hin _ hpos hdig hseg hnum
  obtain ⟨t, ht⟩ := scanTick_exists hin
  have ht' := scanTick_congr hpos hdig hseg hnum ht
  exact ⟨_, _, eventStep_ms_of_scanTick ht, eventStep_ms_of_scanTick ht', rfl, rfl, rfl⟩

/-! ## Rotation (R148) -/

/-- One MS event inside the rules, as the scanner sees it: it stays inside them, advances POS, and selects the position it
found, which DIGITS[1] not 0 keeps from being blanked. -/
theorem msEvent_scans {s : State} (hin : outsideRules s = none) :
    ∃ t, eventStep .ms s = .next t ∧ outsideRules t = none ∧ t.params = s.params ∧ t.digits = s.digits
      ∧ t.pos = nextPosition s.params s.pos ∧ (s.digits.d1 ≠ 0#4 → t.dselOut = selectLine s.pos) := by
  obtain ⟨seg, sel, hstep, hsel⟩ := msEvent_eq hin
  refine ⟨_, hstep, outsideRules_congr hin rfl rfl rfl rfl rfl, rfl, rfl, rfl, fun h1 => ?_⟩
  obtain ⟨hb, -⟩ | ⟨-, hline, -⟩ := hsel
  · obtain ⟨-, -, h, -⟩ := blankPosition_iff.mp hb
    exact absurd h h1
  · exact hline

/-- k MS events: each advances POS by one, and the last one selects the position before. -/
theorem eventRun_ms_rotates {s : State} (hin : outsideRules s = none) (hn : s.params.numDigits = 4) (k : Nat) :
    ∃ t, eventRun (List.replicate k .ms) s = .next t ∧ outsideRules t = none ∧ t.params = s.params ∧ t.digits = s.digits
      ∧ t.pos.val = (s.pos.val + k) % 4
      ∧ (1 ≤ k → s.digits.d1 ≠ 0#4 → t.dselOut = 1#4 <<< ((s.pos.val + k - 1) % 4)) := by
  induction k with
  | zero => exact ⟨s, rfl, hin, rfl, rfl, (Nat.mod_eq_of_lt s.pos.isLt).symm, by omega⟩
  | succ k ih =>
    obtain ⟨u, hrun, huin, hup, hud, hupos, -⟩ := ih
    obtain ⟨t, hstep, htin, htp, htd, htpos, hline⟩ := msEvent_scans huin
    refine ⟨t, ?_, htin, htp.trans hup, htd.trans hud, ?_, fun _ h1 => ?_⟩
    · rw [List.replicate_succ', eventRun_append hrun, eventRun_cons hstep, eventRun_nil]
    · rw [htpos, nextPosition_val (hup ▸ hn), hupos]; omega
    · rw [hline (hud ▸ h1), selectLine, hupos, ← Nat.add_assoc, Nat.add_sub_cancel]

/-- Settles O36: the rotation, but for what its induction also carries. -/
theorem rotationVisitsEveryPosition : Obligations.RotationVisitsEveryPosition := by
  intro s k hin hn
  obtain ⟨t, hrun, -, -, hdig, hpos, hline⟩ := eventRun_ms_rotates hin hn k
  exact ⟨t, hrun, hpos, hdig, hline⟩

end Sys2Proof.Machine
end

section
/-! PROOF. The button and the debounce (42_mode_switch.md sections 2, 3 and 6): a level event in each of its cases (R160,
R161), and the one sample at the end of the debounce (R162, R167, R169). -/

namespace Sys2Proof.Machine

/-! ## A level event (R160, R161) -/

/-- Settles O38: each case of `btnEvent_cases` excludes the others by the line, the handler's state or the policy. -/
theorem buttonEvent : Obligations.ButtonEvent := by
  intro s l
  have heq : eventStep (.btn l) s = .next (btnEvent l s) := rfl
  rw [heq]
  obtain ⟨hb, rfl, hsw, he⟩ | ⟨hb, rfl, hsw, hp, he⟩ | ⟨hn, he⟩ := btnEvent_cases l s
  · simp [he, hb, hsw]
  · simp [he, hb, hsw, hp]
  · refine ⟨fun hb hl hsw => ?_, fun hb hl hsw hp => ?_, fun hb hl hsw hp => ?_, fun _ => by rw [he]⟩
    · simp [hb, hl, hsw] at hn
    · simp [hb, hl, hp] at hn
    · rw [he, hl]

/-! ## The debounce (R162) -/

/-- t is s in the debounce with n MS events counted since the fall: the count has n fewer to go, and what an aborted
handler leaves alone (R169) is as in s. -/
structure Debouncing (s : State) (n : Nat) (t : State) : Prop where
  inside : outsideRules t = none
  state : t.swState = .debounce
  count : t.swCnt = s.params.debounceMs - n
  params : t.params = s.params
  mode : t.mode = s.mode ∧ t.indOut = s.indOut
  digits : t.digits = s.digits
  rxq : t.rxq = s.rxq
  frames : t.frameHost = s.frameHost ∧ t.frameSw = s.frameSw ∧ t.frameValidSw = s.frameValidSw

/-- A fall in IDLE starts the debounce (R161). -/
theorem eventStep_fall {s : State} (hin : outsideRules s = none) (hsw : s.swState = .idle) (hb : s.btnLine = true) :
    ∃ t, eventStep (.btn false) s = .next t ∧ Debouncing s 0 t := by
  obtain ⟨hphase, -, hrest⟩ := outsideRules_eq_none.mp hin
  obtain ⟨hpress, -⟩ := buttonEvent s false
  exact ⟨_, hpress hb rfl hsw, outsideRules_eq_none.mpr ⟨hphase, nofun, hrest⟩, rfl, rfl, rfl, ⟨rfl, rfl⟩, rfl, rfl, rfl,
    rfl, rfl⟩

theorem debounceCount_of_debounce {s : State} (h : s.swState = .debounce) : debounceCount s = s.swCnt - 1 := by
  unfold debounceCount
  split
  · rfl
  · next hn =>
    have : ¬ 0 < s.swCnt := fun hpos => hn ⟨h, hpos⟩
    omega

section Debounce
variable {s t : State} {n : Nat} (h : Debouncing s n t)
include h

/-- An MS event counts. -/
theorem Debouncing.ms : ∃ u, eventStep .ms t = .next u ∧ Debouncing s (n + 1) u := by
  obtain ⟨hin, hstate, hcount, hparams, hmode, hdigits, hrxq, hframes⟩ := h
  obtain ⟨seg, sel, hstep, -⟩ := msEvent_eq hin
  have hnext : debounceCount t = s.params.debounceMs - (n + 1) := by
    rw [debounceCount_of_debounce hstate, hcount, Nat.sub_sub]
  exact ⟨_, hstep, outsideRules_congr hin rfl rfl rfl rfl rfl, hstate, hnext, hparams, hmode, hdigits, hrxq, hframes⟩

/-- A button event moves the line, and latches an edge at most. -/
theorem Debouncing.btn (l : Bool) : ∃ u, eventStep (.btn l) t = .next u ∧ Debouncing s n u := by
  obtain ⟨hin, hstate, hcount, hparams, hmode, hdigits, hrxq, hframes⟩ := h
  refine ⟨btnEvent l t, rfl, ?_⟩
  obtain ⟨-, -, hidle, -⟩ | ⟨-, -, -, -, he⟩ | ⟨-, he⟩ := btnEvent_cases l t
  · simp [hstate] at hidle
  all_goals
    rw [he]
    exact ⟨outsideRules_congr hin rfl rfl rfl rfl rfl, hstate, hcount, hparams, hmode, hdigits, hrxq, hframes⟩

/-- Any run of MS and button events counts its MS events. -/
theorem Debouncing.run {es : List Event} (hes : ∀ e ∈ es, e = .ms ∨ ∃ l, e = .btn l) :
    ∃ u, eventRun es t = .next u ∧ Debouncing s (n + es.count .ms) u := by
  induction es generalizing t n with
  | nil => exact ⟨t, rfl, h⟩
  | cons e es ih =>
    have htail : ∀ e ∈ es, e = .ms ∨ ∃ l, e = .btn l := fun e he => hes e (List.mem_cons_of_mem _ he)
    obtain rfl | ⟨l, rfl⟩ := hes e List.mem_cons_self
    · obtain ⟨u, hstep, hu⟩ := h.ms
      obtain ⟨v, hrun, hv⟩ := ih hu htail
      rw [eventRun_cons hstep, List.count_cons_self, Nat.add_comm (es.count .ms), ← Nat.add_assoc]
      exact ⟨v, hrun, hv⟩
    · obtain ⟨u, hstep, hu⟩ := h.btn l
      obtain ⟨v, hrun, hv⟩ := ih hu htail
      rw [eventRun_cons hstep, List.count_cons_of_ne (by simp)]
      exact ⟨v, hrun, hv⟩

/-- Before DEBOUNCE_MS strobes there is no sample. -/
theorem Debouncing.waits (hn : n < s.params.debounceMs) : fgStep t = .next t := by
  have hne : t.swCnt ≠ 0 := by rw [h.count]; omega
  rw [fgStep_debounce h.state, if_neg hne]

/-- From DEBOUNCE_MS strobes on the line is sampled. -/
theorem Debouncing.samples (hn : s.params.debounceMs ≤ n) : fgStep t = .next (debounceSample t) := by
  have hzero : t.swCnt = 0 := by rw [h.count]; omega
  rw [fgStep_debounce h.state, if_pos hzero]

end Debounce

/-- Settles O40: the fall starts the debounce, the events count it down, and the sample goes by the line's level then. -/
theorem debounceSamplesOnce : Obligations.DebounceSamplesOnce := by
  intro s es hin hsw hb hes
  obtain ⟨t, hfall, ht⟩ := eventStep_fall hin hsw hb
  obtain ⟨u, hrun, hu⟩ := ht.run hes
  rw [Nat.zero_add] at hu
  refine ⟨u, (eventRun_cons hfall).trans hrun, hu.state, hu.waits, fun hn hline => ?_, fun hn hline => ?_⟩
  · rw [hu.samples hn, debounceSample, hline]
    rfl
  · have hexit : fgStep u = .next (handlerExit u) := by
      rw [hu.samples hn, debounceSample, hline]
      rfl
    obtain ⟨-, -, -, hparams, ⟨hmode, hind⟩, hdigits, hrxq, hhost, hfsw, hvalid⟩ := hu
    refine ⟨handlerExit u, hexit, fun hp => ?_, fun hp => ?_, ?_⟩
    · simp [hp]
    · simp [hp, hparams]
    · simp [hmode, hind, hdigits, hrxq, hhost, hfsw, hvalid]

end Sys2Proof.Machine
end

section
/-! PROOF. The handler (42_mode_switch.md sections 4 to 6): what it leaves alone (R168), the mode advance (R163), its
reception with the display refresh or without (R164), and the release (R165 to R167). -/

namespace Sys2Proof.Machine

/-! ## What the handler leaves alone (R168) -/

/-- Settles O13: the writers of those registers are host micro-steps, which run only while the handler is idle. -/
theorem handlerLeavesTheHostAlone : Obligations.HandlerLeavesTheHostAlone := by
  intro s t hsw h
  have w := (fgStep_cases h).writes
  have hnot (p : HostPhase) : ¬ hostIn p s := fun hp => hsw hp.1
  obtain ⟨hpos, hseg, hsel⟩ := w.scanner
  obtain ⟨hcmd, hval⟩ := w.port
  obtain ⟨hresult, hstatus⟩ := w.result.resolve_right fun hr => hsw hr.1
  obtain ⟨hbusy, hphase, hk, hcnt⟩ := w.host.resolve_right hsw
  obtain ⟨hframe, hvalid, hrd⟩ := w.hostReception.resolve_right (not_or.mpr ⟨hnot _, hnot _⟩)
  obtain ⟨hactive, hleft, hout⟩ := w.tone.resolve_right fun ht => hnot _ ht.1
  exact ⟨hresult, hstatus, hcmd, hbusy, hphase, hcnt, hval, hk, hrd, hframe, hvalid, hactive, hleft, hout, hpos, hseg,
    hsel, w.line⟩

/-! ## The mode advance (R163) -/

/-- The modes that IND is given for, with their patterns (R31). -/
theorem indicator_of_mem {m : ModeBits} {ind : BitVec 3}
    (h : (m, ind) ∈ [(0#2, 0b001#3), (1#2, 0b011#3), (2#2, 0b111#3)]) : indicator m = some ind := by
  simp only [List.mem_cons, Prod.mk.injEq, List.not_mem_nil, or_false] at h
  obtain ⟨rfl, rfl⟩ | ⟨rfl, rfl⟩ | ⟨rfl, rfl⟩ := h <;> rfl

/-- With at most three modes the next one is one of those (R6, R163). -/
theorem exists_nextMode_mem {p : Params} (m : ModeBits) (h1 : 1 ≤ p.numModes) (h3 : p.numModes ≤ 3) :
    ∃ ind, (nextMode p m, ind) ∈ [(0#2, 0b001#3), (1#2, 0b011#3), (2#2, 0b111#3)] := by
  have hlt : (m.toNat + 1) % p.numModes < 3 := (Nat.mod_lt _ h1).trans_le h3
  unfold nextMode
  generalize (m.toNat + 1) % p.numModes = n at hlt
  match n, hlt with
  | 0, _ | 1, _ | 2, _ => simp

theorem toNat_nextMode {p : Params} (m : ModeBits) (h1 : 1 ≤ p.numModes) (h3 : p.numModes ≤ 3) :
    (nextMode p m).toNat = (m.toNat + 1) % p.numModes := by
  have hlt : (m.toNat + 1) % p.numModes < p.numModes := Nat.mod_lt _ h1
  rw [nextMode, BitVec.toNat_ofNat, Nat.mod_eq_of_lt (by omega)]

/-- The mode advance where MODE is one of the three modes and the next mode m is too. -/
theorem fgStep_advance {s : State} {m : ModeBits} {ind : BitVec 3} (h : s.swState = .actMode) (hm : s.mode ≠ 3#2)
    (hnext : nextMode s.params s.mode = m) (hind : (m, ind) ∈ [(0#2, 0b001#3), (1#2, 0b011#3), (2#2, 0b111#3)]) :
    fgStep s = .next { s with
      mode := m, indOut := ind, frameValidSw := false, rdSw := { ph := .h0, idx := 0#5 }, swState := .read } := by
  subst hnext
  have hcur : currentMode s = some s.mode := if_neg hm
  simp only [fgStep_actMode h, modeAdvance, hcur, indicator_of_mem hind]
  rfl

/-- Settles O41: the advance at each mode of R163's cycle, and at any count of modes up to three. -/
theorem modeAdvanceCycles : Obligations.ModeAdvanceCycles := by
  intro s h
  refine ⟨fun hn hm => ?_, fun hn hm => ?_, fun hn hm => ?_, fun hm h1 h3 => ?_⟩
  · exact fgStep_advance h (by simp [hm]) (by simp [nextMode, hn, hm]) (by simp)
  · exact fgStep_advance h (by simp [hm]) (by simp [nextMode, hn, hm]) (by simp)
  · exact fgStep_advance h (by simp [hm]) (by simp [nextMode, hn, hm]) (by simp)
  · obtain ⟨ind, hind⟩ := exists_nextMode_mem s.mode h1 h3
    exact ⟨_, ind, toNat_nextMode s.mode h1 h3, hind, fgStep_advance h hm rfl hind⟩

/-! ## The reception and the refresh (R164) -/

/-- Settles O43: either bad header byte ends the reception in RELEASE. -/
theorem handlerMismatchSkipsTheRefresh : Obligations.HandlerMismatchSkipsTheRefresh := by
  intro s b rest h hq
  refine ⟨fun hr hb => ?_, fun hr hb => ?_⟩
  · rw [fgStep_swMismatch h (receive_h0_bad hq hr hb), setFrameValid_received_sw]
    rfl
  · rw [fgStep_swMismatch h (receive_h1_bad hq hr hb), setFrameValid_received_sw]
    rfl

/-- The handler's extraction of a field whose two bytes are there (R125). -/
theorem fgStep_swExtract_of_read {s : State} {off : Nat} {hi lo : Byte} (h : s.swState = .extract)
    (ho : fieldOffset s.params s.mode = some off) (h1 : Memory.read s.frameSw off = some hi)
    (h2 : Memory.read s.frameSw (off + 1) = some lo) :
    fgStep s = .next { s with swVal := bigEndian hi lo, swK := 0#3, swState := .write } := by
  have hx := extractField_of_read (c := .sw) ho h1 h2
  simp only [fgStep_swExtract h, swExtract, hx]

/-- The handler's four digit writes leave the digits of the saturated SW_VAL and enter RELEASE (R141, R165). -/
theorem fgRun_swWrites {s : State} (hwf : s.params.wf = true) (h : s.swState = .write) (hk : s.swK = 0#3) :
    fgRun 4 s = .next (enterRelease { s with digits := digitsOf (saturate s.params s.swVal), swK := 4#3 }) := by
  obtain ⟨-, -, hn, -⟩ := params_wf_counts hwf
  have hwrites := swK_finish (k := 0) hn h hk (by decide)
  rwa [writeDigits_all hwf] at hwrites

/-- Settles O42: the whole frame, the extraction over it, the four digit writes. -/
theorem handlerRefreshesTheDisplay : Obligations.HandlerRefreshesTheDisplay := by
  intro s bytes rest off hi lo hwf hsw hrd hq hlen h0 h1 hmem hhi hlo
  have ho := fieldOffset_of_mem hmem
  have hlt := fieldOffset_lt hwf ho
  obtain ⟨m, ⟨hin, hout⟩, hframe⟩ := fgRun_goodFrame (c := .sw) hwf hsw hrd hq ⟨hlen, h0, h1⟩
  rw [setFrameValid_received_sw] at hframe
  set u : State := { s with
    frameSw := m, frameValidSw := true, rdSw := { ph := .none, idx := 0#5 }, rxq := rest, swState := .extract }
  have hextract : fgStep u = .next { u with swVal := bigEndian hi lo, swK := 0#3, swState := .write } :=
    fgStep_swExtract_of_read rfl ho ((hin off (by omega)).trans hhi) ((hin (off + 1) hlt).trans hlo)
  have hwrites := fgRun_swWrites (s := { u with swVal := bigEndian hi lo, swK := 0#3, swState := .write }) hwf rfl rfl
  have hsat : saturate s.params (bigEndian hi lo) = min (hi.toNat * 256 + lo.toNat) s.params.displayMax := by
    rw [saturate, bigEndian_toNat]
  refine ⟨m, ?_, hin, hout⟩
  calc fgRun (s.params.frameLen + 1 + 4) s
      = fgRun (1 + 4) u := by rw [Nat.add_assoc]; exact fgRun_add hframe
    _ = fgRun 4 _ := fgRun_add ((fgRun_one u).trans hextract)
    _ = _ := hwrites
    _ = _ := by rw [← hsat]; rfl

/-! ## The release (R165 to R167) -/

/-- Settles O44: with no sample due FG stays; the sample waits on a low line and exits on a high one. -/
theorem releaseSampleExits : Obligations.ReleaseSampleExits := by
  intro s h
  refine ⟨fun hd => ?_, fun hd hb => ?_, fun hd hb hp => ?_, fun hd hb hp => ?_⟩
  · simp [fgStep_release h, hd]
  · simp [fgStep_release h, hd, releaseSample, hb]
  · simp [fgStep_release h, hd, releaseSample, hb, handlerExit, hp]
  · simp [fgStep_release h, hd, releaseSample, hb, handlerExit, handlerEntry, hp]

/-- A strobe in RELEASE makes a sample due where it ends the poll period, and else counts (R165, log 23). -/
theorem eventStep_ms_release {s : State} (hin : outsideRules s = none) (hsw : s.swState = .release) :
    ∃ t, eventStep .ms s = .next t ∧ outsideRules t = none ∧ t.params = s.params ∧ t.swState = .release
      ∧ t.swDue = (pollEnds s || s.swDue) ∧ t.swPoll = if pollEnds s then 0 else s.swPoll + 1 := by
  obtain ⟨seg, sel, hstep, -⟩ := msEvent_eq hin
  refine ⟨_, hstep, outsideRules_congr hin rfl rfl rfl rfl rfl, rfl, hsw, ?_, ?_⟩
  · simp [releaseDue, hsw]
  · simp [pollCount, hsw]

/-- k strobes into a release wait: a sample is due from the RELEASE_POLL_MS-th on, and until then the poll count is k
(log 23). -/
theorem eventRun_ms_release {s : State} (hin : outsideRules s = none) (hsw : s.swState = .release) (hpoll : s.swPoll = 0)
    (hdue : s.swDue = false) (hp : 1 ≤ s.params.releasePollMs) (k : Nat) :
    ∃ t, eventRun (List.replicate k .ms) s = .next t ∧ outsideRules t = none ∧ t.params = s.params
      ∧ t.swState = .release ∧ t.swDue = decide (s.params.releasePollMs ≤ k) ∧ (k < s.params.releasePollMs → t.swPoll = k) := by
  induction k with
  | zero => exact ⟨s, rfl, hin, rfl, hsw, by rw [hdue, decide_eq_false (by omega)], fun _ => hpoll⟩
  | succ k ih =>
    obtain ⟨t, hrun, htin, htp, htsw, htdue, htpoll⟩ := ih
    obtain ⟨u, hstep, huin, hup, husw, hudue, hupoll⟩ := eventStep_ms_release htin htsw
    have hends (hk : k < s.params.releasePollMs) : pollEnds t = decide (s.params.releasePollMs ≤ k + 1) := by
      rw [pollEnds, htp, htpoll hk]
    refine ⟨u, ?_, huin, hup.trans htp, husw, ?_, fun hk => ?_⟩
    · rw [List.replicate_succ', eventRun_append hrun, eventRun_cons hstep, eventRun_nil]
    · rw [hudue, htdue]
      by_cases hk : k < s.params.releasePollMs
      · rw [hends hk, decide_eq_false (by omega : ¬ s.params.releasePollMs ≤ k), Bool.or_false]
      · rw [decide_eq_true (by omega : s.params.releasePollMs ≤ k), Bool.or_true, decide_eq_true (by omega)]
    · have hgoes : pollEnds t = false := by rw [hends (by omega), decide_eq_false (by omega)]
      simp [hupoll, hgoes, htpoll (by omega)]

/-- Settles O60: the wait, but for what its induction also carries. -/
theorem releasePollClock : Obligations.ReleasePollClock := by
  intro s k hin hsw hpoll hdue hp
  obtain ⟨t, hrun, -, -, htsw, htdue, -⟩ := eventRun_ms_release hin hsw hpoll hdue hp k
  exact ⟨t, hrun, htsw, htdue⟩

end Sys2Proof.Machine
end

section
/-! PROOF. The tone (43_alarm_tone.md): its start by BEEP and ALARMCHK (R190, R191, R194), its waveform (R192, R195), the end
of the wait for it (R193), and the host's MainLoop as what starts it (R196, R216). -/

namespace Sys2Proof.Machine

/-! ## Starting the tone (R190, R191, R194) -/

section Start
variable {s : State}

theorem exec_beep (s : State) : exec .beep s = .next (toneAndWait s) := rfl

theorem toneAndWait_of_tone (h : toneHalfPeriods s.params ≠ 0) : toneAndWait s = { s with
    toneActive := true, toneLeft := toneHalfPeriods s.params, toneOut := true, hostPhase := .toneWait } := by
  rw [toneAndWait, toneStart, if_neg h]

theorem toneAndWait_of_no_tone (h : toneHalfPeriods s.params = 0) : toneAndWait s = { s with hostPhase := .toneWait } := by
  rw [toneAndWait, toneStart, if_pos h]

theorem exec_alarmchk_fires {v : Half} (hv : s.hostVal = v) (h : s.params.alarmThreshold ≤ saturate s.params v) :
    exec (.alarmchk v) s = .next (toneAndWait s) :=
  if_pos (decide_eq_true (hv ▸ h))

theorem exec_alarmchk_silent {v : Half} (hv : s.hostVal = v) (h : saturate s.params v < s.params.alarmThreshold) :
    exec (.alarmchk v) s = .next (completeOk 0x0000#16 s) :=
  if_neg fun hf => (of_decide_eq_true hf).not_gt (hv ▸ h)

end Start

/-- Settles O21: BEEP starts the tone in every state, and R190's start has the two cases. -/
theorem beepStarts : Obligations.BeepStarts := by
  intro s
  refine ⟨fun h => ?_, fun h => ?_⟩
  · rw [exec_beep, toneAndWait_of_tone h]
    rfl
  · rw [exec_beep, toneAndWait_of_no_tone h]

/-- Settles O20: the saturated operand is at the threshold or under it, and at it the tone has a half-period or none. -/
theorem alarmCheckCompares : Obligations.AlarmCheckCompares := by
  intro s v hv
  refine ⟨fun hfires htone => ?_, fun hfires hnone => ?_, fun hunder => ?_⟩
  · rw [exec_alarmchk_fires hv hfires, toneAndWait_of_tone htone]
  · rw [exec_alarmchk_fires hv hfires, toneAndWait_of_no_tone hnone]
  · exact exec_alarmchk_silent hv hunder

/-! ## The TONE event and the waveform (R192, R195) -/

section ToneEvent
variable {s : State}

theorem eventStep_tone_silent (h : s.toneActive = false) : eventStep .tone s = .next s := by
  simp [eventStep, toneEvent, h]

theorem eventStep_tone_last (ha : s.toneActive = true) (hl : s.toneLeft = 1) :
    eventStep .tone s = .next { s with toneActive := false, toneLeft := 0, toneOut := false } := by
  simp [eventStep, toneEvent, ha, hl]

theorem eventStep_tone_half {n : Nat} (ha : s.toneActive = true) (hl : s.toneLeft = n + 2) :
    eventStep .tone s = .next { s with toneLeft := n + 1, toneOut := !s.toneOut } := by
  simp [eventStep, toneEvent, ha, hl]

end ToneEvent

/-- s with k of a tone's half-periods gone: the tone goes on while some are left, its line high after an even number. -/
def toneAfter (s : State) (k : Nat) : State := { s with
  toneActive := decide (k < toneHalfPeriods s.params), toneLeft := toneHalfPeriods s.params - k,
  toneOut := decide (k < toneHalfPeriods s.params ∧ k % 2 = 0) }

theorem toneStart_eq_toneAfter {s : State} (h : toneHalfPeriods s.params ≠ 0) : toneStart s = toneAfter s 0 := by
  have hpos : 0 < toneHalfPeriods s.params := by omega
  simp [toneStart, toneAfter, h, hpos]

/-- A TONE event ends one half-period, and with the last one the tone (R192). -/
theorem eventStep_tone_toneAfter {s : State} {k : Nat} (hk : k < toneHalfPeriods s.params) :
    eventStep .tone (toneAfter s k) = .next (toneAfter s (k + 1)) := by
  have hactive : (toneAfter s k).toneActive = true := decide_eq_true hk
  obtain ⟨n, hn⟩ := Nat.exists_eq_add_of_lt hk
  cases n with
  | zero =>
    have hlast : (toneAfter s k).toneLeft = 1 := show toneHalfPeriods s.params - k = 1 by omega
    rw [eventStep_tone_last hactive hlast]
    simp [toneAfter, hn]
  | succ n =>
    have hleft : (toneAfter s k).toneLeft = n + 2 := show toneHalfPeriods s.params - k = n + 2 by omega
    have hleft' : toneHalfPeriods s.params - (k + 1) = n + 1 := by omega
    have hmore : k + 1 < toneHalfPeriods s.params := by omega
    have hflip : (!decide (k % 2 = 0)) = decide ((k + 1) % 2 = 0) := by
      rw [← decide_not, decide_eq_decide]
      omega
    rw [eventStep_tone_half hactive hleft]
    simp [toneAfter, hk, hmore, hleft', hflip]

theorem eventRun_tone_toneAfter (s : State) {k : Nat} (hk : k ≤ toneHalfPeriods s.params) :
    eventRun (List.replicate k .tone) (toneAfter s 0) = .next (toneAfter s k) := by
  induction k with
  | zero => rfl
  | succ k ih =>
    rw [List.replicate_succ', eventRun_append (ih (by omega)), eventRun_cons (eventStep_tone_toneAfter hk), eventRun_nil]

/-- Settles O29: the tone starts with all its half-periods left, and each TONE event ends one. -/
theorem toneWaveform : Obligations.ToneWaveform := by
  intro s k hc hk
  have hne : toneHalfPeriods s.params ≠ 0 := by
    rw [toneHalfPeriods]
    omega
  rw [toneStart_eq_toneAfter hne]
  exact eventRun_tone_toneAfter s hk

/-! ## The wait for the tone's end (R193) -/

/-- Settles O30: a TONE event needs a tone, and a turn in TONE_WAIT goes by TONE_ACTIVE. -/
theorem toneWaitEnds : Obligations.ToneWaitEnds := by
  refine fun s => ⟨eventStep_tone_silent, fun hsw hb hp => ⟨fun ha => ?_, fun ha => ?_⟩⟩
  · rw [fgStep_toneWait hsw hb hp, if_pos ha]
  · rw [fgStep_toneWait hsw hb hp, if_neg (by simp [ha])]
    rfl

/-! ## The MainLoop (R196, R216) -/

/-- The saturated value fits the 16 bits that hold it (R7). -/
theorem toNat_saturated (p : Params) (v : Half) : (saturated p v).toNat = min v.toNat p.displayMax := by
  rw [saturated, BitVec.toNat_ofNat]
  exact Nat.mod_eq_of_lt ((Nat.min_le_left _ _).trans_lt v.isLt)

/-- Saturating a saturated value changes nothing. -/
theorem saturate_saturated (p : Params) (v : Half) : saturate p (saturated p v) = saturate p v := by
  rw [saturate, toNat_saturated, saturate, min_assoc, min_self]

theorem hostCommand_wait (p : Params) : hostCommand p .wait
    = if p.pollIntervalMs < 65536 then some (.waitms (BitVec.ofNat 16 p.pollIntervalMs)) else none := rfl

/-- Where no tone sounds and a tone has a half-period, ALARMCHK answers a state in which one sounds exactly at or over the
threshold (R194). -/
theorem exec_alarmchk_toneActive_iff {s : State} {v : Half} (hv : s.hostVal = v) (hsilent : s.toneActive = false)
    (htone : toneHalfPeriods s.params ≠ 0) :
    ∃ t, exec (.alarmchk v) s = .next t ∧ (t.toneActive = true ↔ s.params.alarmThreshold ≤ saturate s.params v) := by
  obtain h | h := Nat.lt_or_ge (saturate s.params v) s.params.alarmThreshold
  · exact ⟨_, exec_alarmchk_silent hv h, by simp [completeOk, hsilent, h]⟩
  · exact ⟨_, exec_alarmchk_fires hv h, by simp [toneAndWait_of_tone htone, h]⟩

/-- Settles O55: the loop's branches by its definition, and its ALARMCHK compares a value saturated already. -/
theorem mainLoopAlarmLaw : Obligations.MainLoopAlarmLaw := by
  intro p r r'
  refine ⟨rfl, fun h => ?_, fun h => ?_, rfl, fun hbad => ?_, fun hok => ?_⟩
  · rw [hostCommand_wait, if_pos h]
  · rw [hostCommand_wait, if_neg h.not_gt]
  · simp [hostNext, hbad]
  · refine ⟨saturated p r.value, toNat_saturated p r.value, by simp [hostNext, hok], rfl, rfl, rfl, rfl, ?_⟩
    rintro s rfl hv hsilent htone
    obtain ⟨t, hexec, hiff⟩ := exec_alarmchk_toneActive_iff hv hsilent htone
    rw [saturate_saturated] at hiff
    exact ⟨t, hexec, hiff⟩

end Sys2Proof.Machine
end

section
/-! PROOF. Host control (44_host_control.md): the step that runs a command (R219), command acceptance (R211), NOP and ILLEGAL
(R213, R214), and WAITMS from its start to the end of its count (R215). -/

namespace Sys2Proof.Machine

/-! ## The wait for WAITMS's count (R215, R240) -/

/-- An MS event with the handler idle takes one off the count, and leaves a count of 0. -/
theorem toNat_waitCount_of_idle {s : State} (hp : s.hostPhase = .count) (hsw : s.swState = .idle) :
    (waitCount s).toNat = s.hostCnt.toNat - 1 := by
  by_cases h0 : s.hostCnt = 0#16
  · simp [waitCount, h0]
  · rw [waitCount, if_pos ⟨hp, hsw, h0⟩]
    bv_omega

/-- While the handler runs the count stands still. -/
theorem waitCount_of_handler {s : State} (hsw : s.swState ≠ .idle) : waitCount s = s.hostCnt :=
  if_neg fun h => hsw h.2.1

/-- t is s, waiting in COUNT, with k MS events taken: k off the count where the handler is idle, none where it runs. -/
structure Waiting (s : State) (k : Nat) (t : State) : Prop where
  inside : outsideRules t = none
  busy : t.busy = true
  phase : t.hostPhase = .count
  handler : t.swState = s.swState
  digits : t.digits = s.digits
  result : t.result = s.result
  counted : s.swState = .idle → t.hostCnt.toNat = s.hostCnt.toNat - k
  frozen : s.swState ≠ .idle → t.hostCnt = s.hostCnt

section Wait
variable {s t : State} {k : Nat}

/-- An MS event counts. -/
theorem Waiting.ms (h : Waiting s k t) : ∃ u, eventStep .ms t = .next u ∧ Waiting s (k + 1) u := by
  obtain ⟨hin, hb, hp, hsw, hdigits, hresult, hcounted, hfrozen⟩ := h
  obtain ⟨seg, sel, hstep, -⟩ := msEvent_eq hin
  refine ⟨_, hstep, outsideRules_congr hin rfl rfl rfl rfl rfl, hb, hp, hsw, hdigits, hresult,
    fun hidle => ?_, fun hruns => ?_⟩
  · calc (waitCount t).toNat = t.hostCnt.toNat - 1 := toNat_waitCount_of_idle hp (hsw.trans hidle)
      _ = s.hostCnt.toNat - (k + 1) := by rw [hcounted hidle, Nat.sub_sub]
  · exact (waitCount_of_handler (hsw ▸ hruns)).trans (hfrozen hruns)

/-- A run of MS events counts them all. -/
theorem exists_waiting_of_ms_run (hin : outsideRules s = none) (hb : s.busy = true) (hp : s.hostPhase = .count) (k : Nat) :
    ∃ t, eventRun (List.replicate k .ms) s = .next t ∧ Waiting s k t := by
  induction k with
  | zero => exact ⟨s, rfl, hin, hb, hp, rfl, rfl, rfl, fun _ => rfl, fun _ => rfl⟩
  | succ k ih =>
    obtain ⟨t, hrun, ht⟩ := ih
    obtain ⟨u, hstep, hu⟩ := ht.ms
    refine ⟨u, ?_, hu⟩
    rw [List.replicate_succ', eventRun_append hrun, eventRun_cons hstep, eventRun_nil]

/-- With the handler idle, a turn of FG ends the wait when all of the count has gone by. -/
theorem Waiting.ends (h : Waiting s k t) (hsw : s.swState = .idle) (hk : s.hostCnt.toNat ≤ k) :
    fgStep t = .next (waitEnd t) := by
  have hzero : t.hostCnt = 0#16 := BitVec.eq_of_toNat_eq ((h.counted hsw).trans (Nat.sub_eq_zero_of_le hk))
  rw [fgStep_count (h.handler.trans hsw) h.busy h.phase, if_pos hzero]

/-- With the handler idle, a turn of FG before that changes nothing (log 2). -/
theorem Waiting.waits (h : Waiting s k t) (hsw : s.swState = .idle) (hk : k < s.hostCnt.toNat) : fgStep t = .next t := by
  have hne : t.hostCnt ≠ 0#16 := by
    intro hzero
    have hleft := h.counted hsw
    simp [hzero] at hleft
    omega
  rw [fgStep_count (h.handler.trans hsw) h.busy h.phase, if_neg hne]

end Wait

/-- Settles O31: k MS events leave the wait with k counted, and the turn after them goes by what is left. -/
theorem waitmsCountsMsEvents : Obligations.WaitmsCountsMsEvents := by
  intro s k hin hb hp
  obtain ⟨t, hrun, ht⟩ := exists_waiting_of_ms_run hin hb hp k
  exact ⟨t, hrun, ht.busy, ht.phase, ht.handler, ht.digits, ht.result, ht.frozen,
    fun hsw => ⟨ht.counted hsw, ht.ends hsw, ht.waits hsw⟩⟩

/-! ## The step that runs a command (R219) -/

/-- Settles O7: such a step is a turn of FG, with the handler idle a host micro-step, and that one is exec. -/
theorem stepRunsTheDecodedCommand : Obligations.StepRunsTheDecodedCommand := by
  rintro s i hin hsw hb hp rfl
  refine ⟨fun hs => ?_, fun rest hs => ?_⟩
  · rw [step_of_nil hin hs, fgStep_start hsw hb hp]
  · rw [step_of_cons hin hs]
    exact fgStep_start (s := { s with stim := rest }) hsw hb hp

/-- A 24-bit word placed as a number is the word. -/
theorem withFetchWord_toNat (s : State) (w : CmdWord) :
    s.withFetchWord 24 w.toNat = { acceptCommand w s with swState := .idle, stim := .foreground :: s.stim } := by
  rw [State.withFetchWord, Nat.mod_eq_of_lt w.isLt, BitVec.ofNat_toNat, BitVec.setWidth_eq]

/-- Placing a command leaves a state inside the rules inside them: START and IDLE are phases of R24 and R25. -/
theorem outsideRules_withFetchWord {s : State} (hin : outsideRules s = none) (nbits n : Nat) :
    outsideRules (s.withFetchWord nbits n) = none := by
  obtain ⟨-, -, hrest⟩ := outsideRules_eq_none.mp hin
  exact outsideRules_eq_none.mpr ⟨nofun, nofun, hrest⟩

/-- Settles O8: the placed state is one of O7's, with a turn of FG scheduled. -/
theorem placedCommandRunsNext : Obligations.PlacedCommandRunsNext := by
  intro s w hin
  have hin' := outsideRules_withFetchWord hin 24 w.toNat
  rw [withFetchWord_toNat] at hin' ⊢
  obtain ⟨-, hturn⟩ := stepRunsTheDecodedCommand _ (decode w) hin' rfl rfl rfl rfl
  exact hturn s.stim rfl

/-! ## Command acceptance (R211, R217) -/

/-- Settles O10: BUSY alone decides. -/
theorem commandAcceptance : Obligations.CommandAcceptance := by
  intro s w
  refine ⟨fun hb => ?_, fun hb => ?_⟩
  · simp [moveStep, presentCommand, hb, acceptCommand, CmdWord.imm16]
  · simp [moveStep, presentCommand, hb]

/-! ## The START micro-steps of NOP, ILLEGAL and WAITMS (R213 to R215) -/

theorem exec_nop (s : State) : exec .nop s = .next (completeOk 0x0000#16 s) := rfl

/-- Settles O14: NOP is a successful completion, ILLEGAL a failed one. -/
theorem nopAndIllegalComplete : Obligations.NopAndIllegalComplete :=
  fun s w => ⟨exec_nop s, exec_illegal w s⟩

/-- WAITMS reads its operand from HOST_VAL, whatever the decoded one is (R211, log 9). -/
theorem exec_waitms (n : Half) (s : State) : exec (.waitms n) s =
    if s.hostVal = 0#16 then .next (completeOk 0x0000#16 s)
    else .next { s with hostCnt := s.hostVal, hostPhase := .count } := rfl

/-- Settles O22: the two branches of `exec_waitms`. -/
theorem waitmsStarts : Obligations.WaitmsStarts := by
  rintro s n rfl
  refine ⟨fun h0 => ?_, fun hne => ?_⟩
  · rw [exec_waitms, if_pos h0]
    rfl
  · rw [exec_waitms, if_neg hne]

end Sys2Proof.Machine
end

section
/-! PROOF. Exceptions (60_exceptions.md): no run from a sound state reaches a model fault (R234, R43), the MS event's four parts
(R240), and the counters that fit their widths and do not wrap (R247). -/

namespace Sys2Proof.Machine

/-! ## No run from a sound state faults (R234) -/

/-- The half-periods left never exceed a whole tone's, and while the tone sounds at least one is left (R190, R192). -/
theorem toneSound_left {p : Params} {active out : Bool} {left : Nat} (h : toneSound p active left out = true) :
    left ≤ toneHalfPeriods p ∧ (active = true → 1 ≤ left) := by
  unfold toneSound at h
  split at h
  · simp only [Bool.and_eq_true, decide_eq_true_eq] at h
    obtain ⟨⟨hpos, hle⟩, -⟩ := h
    exact ⟨hle, fun _ => hpos⟩
  · next hsilent =>
    simp only [Bool.and_eq_true, beq_iff_eq] at h
    obtain ⟨hzero, -⟩ := h
    exact ⟨hzero ▸ Nat.zero_le _, fun ha => absurd ha hsilent⟩

section NeverFault
variable {s : State} (hs : Inv s)
include hs

/-- A sounding tone has a half-period left, so the TONE event has a rule (R192, log 8). -/
theorem eventStep_tone_answers : ∃ t, eventStep .tone s = .next t := by
  cases ha : s.toneActive with
  | false => exact ⟨s, eventStep_tone_silent ha⟩
  | true =>
    obtain ⟨-, hleft⟩ := toneSound_left hs.tone_sound
    match hl : s.toneLeft, hleft ha with
    | 1, _ => exact ⟨_, eventStep_tone_last ha hl⟩
    | n + 2, _ => exact ⟨_, eventStep_tone_half ha hl⟩

theorem eventStep_answers (e : Event) : ∃ t, eventStep e s = .next t := by
  cases e with
  | reset b => exact ⟨_, rfl⟩
  | ms =>
    obtain ⟨_, _, hstep, -⟩ := msEvent_eq hs.inside_rules
    exact ⟨_, hstep⟩
  | tone => exact eventStep_tone_answers hs
  | rxByte b => exact ⟨_, rfl⟩
  | btn l => exact ⟨_, rfl⟩

/-- A scheduled move answers or is refused (R91, R217). -/
theorem stimulusStep_ne_fault (x : Stimulus) (f : Fault) : stimulusStep x s ≠ .fault f := by
  cases x with
  | foreground =>
    obtain ⟨t, ht⟩ := fgStep_answers hs
    simp [stimulusStep, ht]
  | command w => cases hb : s.busy <;> simp [stimulusStep, presentCommand, hb]
  | event w =>
    cases he : decodeEvent w with
    | none => simp [stimulusStep, eventWordStep_of_reserved he]
    | some e =>
      obtain ⟨t, ht⟩ := eventStep_answers hs e
      simp [stimulusStep, eventWordStep_of_decode he, ht]

theorem step_ne_fault (f : Fault) : step s ≠ .fault f := by
  cases hstim : s.stim with
  | nil =>
    obtain ⟨t, ht⟩ := fgStep_answers hs
    simp [step_of_nil hs.inside_rules hstim, ht]
  | cons x rest =>
    rw [step_of_cons hs.inside_rules hstim]
    exact stimulusStep_ne_fault (hs.withStim rest) x f

end NeverFault

/-- A run that faults does so at its first step, or goes on from the state that step answers. -/
theorem run_succ_fault {M : Host.Core} {n : Nat} {s : M.State} {f : M.Fault} (h : M.run (n + 1) s = .fault f) :
    M.step s = .fault f ∨ ∃ t, M.step s = .next t ∧ M.run n t = .fault f := by
  simp only [Host.Core.run] at h
  split at h
  · next t ht => exact .inr ⟨t, ht, h⟩
  · next g hg => injection h with h; subst h; exact .inl hg
  · simp at h

/-- Settles O50, by induction on the number of steps: a step from a sound state does not fault, and the state it answers is
sound again. -/
theorem soundRunsNeverFault : Obligations.SoundRunsNeverFault := by
  intro s n hs
  induction n generalizing s with
  | zero => exact fun f h => nomatch h
  | succ n ih =>
    intro f h
    obtain hstep | ⟨t, hstep, hrun⟩ := run_succ_fault h
    · exact step_ne_fault hs f hstep
    · exact ih t (stepKeepsTheInvariant s t hs hstep) f hrun

/-! ## The MS event's four parts (R240) -/

section EveryStrobe
variable {s : State} (h : s.params.releasePollMs = 1)
include h

/-- At RELEASE_POLL_MS = 1 each strobe ends a poll period (R165). -/
theorem pollEnds_every_strobe : pollEnds s = true := by
  simp [pollEnds, h]

theorem releaseDue_every_strobe : releaseDue s = if s.swState = .release then true else s.swDue := by
  simp [releaseDue, pollEnds_every_strobe h]

theorem pollCount_every_strobe : pollCount s = if s.swState = .release then 0 else s.swPoll := by
  simp [pollCount, pollEnds_every_strobe h]

end EveryStrobe

/-- Settles O34: the scan tick writes the scanner's three registers alone, and with a period of one strobe the release clock
is as R240 writes it. -/
theorem msEventParts : Obligations.MsEventParts := by
  intro s hin hperiod
  obtain ⟨t, htick⟩ := scanTick_exists hin
  refine ⟨t, htick, ?_⟩
  rw [eventStep_ms_of_scanTick htick, releaseDue_every_strobe hperiod, pollCount_every_strobe hperiod]
  obtain ⟨seg, sel, rfl, -⟩ := scanTick_cases htick
  rfl

/-! ## The counters' widths (R247) -/

/-- In PAY, IDX is past the header and inside the frame, so it fits its five bits after any payload byte but the last (R35). -/
theorem payloadIndex_counts {p : Params} {r : Rd} {v : Bool} {m : Memory} (hp : p.wf = true)
    (h : receptionSound p r v m = true) (hpay : r.ph = .pay) :
    2 ≤ r.idx.toNat ∧ r.idx.toNat < p.frameLen
      ∧ (r.idx.toNat + 1 ≠ p.frameLen → (r.idx + 1#5).toNat = r.idx.toNat + 1) := by
  obtain ⟨-, hlen, -⟩ := params_wf_cases hp
  simp only [receptionSound, hpay, Bool.and_eq_true, decide_eq_true_eq] at h
  obtain ⟨⟨-, ⟨⟨⟨hlo, hhi⟩, -⟩, -⟩, -⟩, -⟩ := h
  exact ⟨hlo, hhi, fun hne => BitVec.toNat_add_of_lt (show r.idx.toNat + 1 < 2 ^ 5 by omega)⟩

/-- The WAITMS count stays or falls by one, and never from 0 (R215). -/
theorem waitCount_stays_or_falls (s : State) : waitCount s = s.hostCnt ∨ (waitCount s).toNat + 1 = s.hostCnt.toNat := by
  unfold waitCount
  split
  · next hc =>
    obtain ⟨-, -, hne⟩ := hc
    right; bv_omega
  · exact .inl rfl

/-- The debounce count stays or falls by one, and never from 0 (R162). -/
theorem debounceCount_stays_or_falls (s : State) : debounceCount s = s.swCnt ∨ debounceCount s + 1 = s.swCnt := by
  unfold debounceCount
  split
  · next hc => exact .inr (Nat.sub_add_cancel hc.2)
  · exact .inl rfl

/-- Settles O53, from the invariant's bounds on each counter, and for an MS event from what its two counts can do. -/
theorem nominalCountsFitTheirWidths : Obligations.NominalCountsFitTheirWidths := by
  intro s hs
  refine ⟨fun hms => ?_, fun hcycles => ?_, payloadIndex_counts hs.params_wf hs.host_reception,
    payloadIndex_counts hs.params_wf hs.sw_reception, fun hp => ?_, fun hq => ?_, fun t ht => ?_⟩
  · obtain ⟨hcnt, -⟩ := hs.sw_cnt
    omega
  · obtain ⟨hleft, -⟩ := toneSound_left hs.tone_sound
    exact (hleft.trans hcycles).trans_lt (by decide)
  · have hk := hs.host_k hp
    exact BitVec.toNat_add_of_lt (show s.hostK.toNat + 1 < 2 ^ 3 by omega)
  · have hk := hs.sw_k hq
    exact BitVec.toNat_add_of_lt (show s.swK.toNat + 1 < 2 ^ 3 by omega)
  · cases eventStep_cases ht
    exact ⟨waitCount_stays_or_falls s, debounceCount_stays_or_falls s⟩

end Sys2Proof.Machine
end

section
/-! PROOF. Reset and hazards (70_reset_and_hazards.md): the state after reset (R261, R262), byte theft (R271), a handler's
SETDIG inside a host's (R273), the held button (R274) and the sensor stall (R275). -/

namespace Sys2Proof.Machine

/-! ## Reset (R261, R262) -/

/-- Settles O39: RESET answers `State.resetWith` of the parameters and the schedule alone, whose fields are the reset values. -/
theorem resetEventResetsEverything : Obligations.ResetEventResetsEverything := by
  intro s s' b
  have hreset (u : State) : eventStep (.reset b) u = .next (State.resetWith u.params b u.stim) := rfl
  refine ⟨⟨_, hreset s, ?_⟩, fun hparams hstim => by rw [hreset, hreset, hparams, hstim]⟩
  have hind : indicator (resetModeBits s.params) = some (resetIndicator s.params) := indicator_resetMode s.params
  simpa [State.resetWith, resetModeBits, Memory.read] using hind

/-- The parameters that State.reset carries are ones a block can have: R6's defaults with room for a byte in RXQ (log 3). -/
theorem platform_wf : Config.platform.wf = true := by
  simp [Params.wf, Config.platform]

/-- Settles O48: every reset state is sound, and State.reset is one of them. -/
theorem resetIsSound : Obligations.ResetIsSound :=
  ⟨fun _ b stim hp => resetWith_sound hp b stim, resetWith_sound platform_wf true []⟩

/-! ## Byte theft (R271) -/

/-- A host receive of a payload byte before the last, with IDX = k (R122). -/
theorem fgStep_hostPayload {s : State} {b : Byte} {q : List Byte} {k : Nat} (h : reading .host s)
    (hrd : s.rdHost = { ph := .pay, idx := BitVec.ofNat 5 k }) (hk : k + 1 < s.params.frameLen)
    (hlen : s.params.frameLen ≤ 32) (hq : s.rxq = b :: q) :
    fgStep s = .next { s with
      frameHost := Memory.write s.frameHost k b, rdHost := { ph := .pay, idx := BitVec.ofNat 5 (k + 1) }, rxq := q } := by
  have hidx : (BitVec.ofNat 5 k).toNat = k := by
    rw [BitVec.toNat_ofNat]
    exact Nat.mod_eq_of_lt (by omega)
  have hr := receive_pay_more (c := .host) hq (by simp [rd, hrd]) (by simp only [rd, hrd, hidx]; omega)
  rw [fgStep_more h hr, received_host]
  simp only [rd, frame, hrd, hidx, BitVec.ofNat_add]

/-- Settles O45: the handler's failed header receive, the release sample that exits, and the host's receive of the byte
after. -/
theorem handlerStealsTheHostsByte : Obligations.HandlerStealsTheHostsByte := by
  intro s b b' rest k hb hp hrd _ hk hlen hsw hrdSw hq hne hline hpend
  obtain ⟨hsteal, -⟩ := handlerMismatchSkipsTheRefresh s b (b' :: rest) hsw hq
  have htheft := hsteal (by rw [hrdSw]) hne
  set u : State := { s with
    frameSw := Memory.write s.frameSw 0 b, frameValidSw := false, rdSw := { ph := .none, idx := 0#5 }, rxq := b' :: rest,
    swState := .release, swDue := true, swPoll := 0 }
  obtain ⟨-, -, hexit, -⟩ := releaseSampleExits u rfl
  have hhost := fgStep_hostPayload (s := { u with swDue := false, swState := .idle }) ⟨rfl, hb, hp⟩ hrd hk hlen rfl
  rw [fgRun_succ htheft, fgRun_succ (hexit rfl hline hpend), fgRun_one, hhost]

/-! ## A handler's SETDIG inside a host's (R273) -/

/-- Settles O28: the handler's writes leave the digits of w whatever was there, its release sample exits, and the host's
remaining writes go to the positions from k on. -/
theorem handlerInsideSetdigMixesDigits : Obligations.HandlerInsideSetdigMixesDigits := by
  intro s v w k hwf hb hp _ hk hhostK hv hsw hswK hw hline hpend
  subst hv hw
  obtain ⟨-, -, hn, -⟩ := params_wf_counts hwf
  have hwrites := fgRun_swWrites hwf hsw hswK
  set u : State := enterRelease { s with digits := digitsOf (saturate s.params s.swVal), swK := 4#3 }
  obtain ⟨-, -, hexit, -⟩ := releaseSampleExits u rfl
  have hsample : fgStep u = .next { u with swDue := false, swState := .idle } := hexit rfl hline hpend
  have hfinish := hostK_finish (k := k) (s := { u with swDue := false, swState := .idle }) hn ⟨rfl, hb, hp⟩ hhostK (by omega)
  refine ⟨writeDigits s.params s.hostVal k (4 - k) (digitsOf (saturate s.params s.swVal)), ?_, fun j => ?_⟩
  · calc fgRun (4 + 1 + (4 - k)) s
        = fgRun (1 + (4 - k)) u := by rw [Nat.add_assoc]; exact fgRun_add hwrites
      _ = fgRun (4 - k) _ := fgRun_add ((fgRun_one u).trans hsample)
      _ = _ := hfinish
  · rw [writeDigits_get hwf _ _ _ j (by omega), digitsOf_get]
    by_cases hj : j.val < k
    · rw [if_neg (by omega), if_pos hj, saturate]
    · rw [if_pos (by omega), if_neg hj, saturate]

/-! ## Runs in which FG gets nowhere (R274, R275) -/

/-- A property of a state and of the number of MS events taken, which each move of a run keeps as it counts, holds at the run's
end with all of them counted. -/
theorem moveRun_counts_ms {P : Nat → State → Prop} {xs : List Move} {n : Nat} {s : State} (hs : P n s)
    (hstep : ∀ x ∈ xs, ∀ n t, P n t → ∃ u, moveStep x t = .next u ∧ P (n + [x].count (.event .ms)) u) :
    ∃ t, moveRun xs s = .next t ∧ P (n + xs.count (.event .ms)) t := by
  induction xs generalizing n s with
  | nil => exact ⟨s, rfl, hs⟩
  | cons x xs ih =>
    obtain ⟨u, hu, hpu⟩ := hstep x List.mem_cons_self n s hs
    obtain ⟨t, ht, hpt⟩ := ih hpu fun y hy => hstep y (List.mem_cons_of_mem _ hy)
    refine ⟨t, by rw [moveRun_cons hu, ht], ?_⟩
    rwa [← List.singleton_append, List.count_append, ← Nat.add_assoc]

/-- With RXQ empty no receive is enabled (R112). -/
theorem receive_of_rxq_nil (c : Ctx) {s : State} (hq : s.rxq = []) : receive c s = none := by
  cases hr : receive c s with
  | none => rfl
  | some a =>
    obtain ⟨b, q, hcons, -⟩ := receive_cases hr
    simp [hq] at hcons

/-- t is s, sound, with n MS events taken and FG where it was: the scanner is n positions on (R148), and while the handler
runs WAITMS has not counted (R240). -/
structure Standing (s : State) (n : Nat) (t : State) : Prop where
  inv : Inv t
  swState : t.swState = s.swState
  btnLine : t.btnLine = s.btnLine
  cmd : t.cmd = s.cmd
  busy : t.busy = s.busy
  result : t.result = s.result
  status : t.status = s.status
  hostPhase : t.hostPhase = s.hostPhase
  hostVal : t.hostVal = s.hostVal
  hostK : t.hostK = s.hostK
  hostCnt : s.swState ≠ .idle → t.hostCnt = s.hostCnt
  rdHost : t.rdHost = s.rdHost
  rdSw : t.rdSw = s.rdSw
  frameHost : t.frameHost = s.frameHost
  frameValidHost : t.frameValidHost = s.frameValidHost
  digits : t.digits = s.digits
  mode : t.mode = s.mode
  pos : t.pos.val = (s.pos.val + n) % 4

theorem Standing.refl {s : State} (hs : Inv s) : Standing s 0 s :=
  ⟨hs, rfl, rfl, rfl, rfl, rfl, rfl, rfl, rfl, rfl, fun _ => rfl, rfl, rfl, rfl, rfl, rfl, rfl,
    (Nat.mod_eq_of_lt s.pos.isLt).symm⟩

section Standing
variable {s t : State} {n : Nat} (h : Standing s n t)
include h

/-- The scanner goes on, whatever FG is doing (R144). -/
theorem Standing.ms : ∃ u, eventStep .ms t = .next u ∧ Standing s (n + 1) u ∧ u.rxq = t.rxq := by
  obtain ⟨seg, sel, hstep, -⟩ := msEvent_eq h.inv.inside_rules
  obtain ⟨-, -, hn, -⟩ := params_wf_counts h.inv.params_wf
  have hcnt (hruns : s.swState ≠ .idle) : waitCount t = s.hostCnt :=
    (waitCount_of_handler (h.swState ▸ hruns)).trans (h.hostCnt hruns)
  have hpos : (nextPosition t.params t.pos).val = (s.pos.val + (n + 1)) % 4 := by
    rw [nextPosition_val hn, h.pos]
    omega
  exact ⟨_, hstep, { h with inv := eventStep_keeps_inv h.inv hstep, hostCnt := hcnt, pos := hpos }, rfl⟩

/-- A TONE event writes the tone's registers alone (R192). -/
theorem Standing.tone : ∃ u, eventStep .tone t = .next u ∧ Standing s n u ∧ u.rxq = t.rxq := by
  obtain ⟨u, hstep⟩ := eventStep_tone_answers h.inv
  have hinv := eventStep_keeps_inv h.inv hstep
  refine ⟨u, hstep, ?_⟩
  cases eventStep_cases hstep with
  | toneRest => exact ⟨h, rfl⟩
  | toneEnd => exact ⟨{ h with inv := hinv }, rfl⟩
  | toneHalf => exact ⟨{ h with inv := hinv }, rfl⟩

/-- An arrival writes RXQ alone (R111). -/
theorem Standing.rxByte (b : Byte) : ∃ u, eventStep (.rxByte b) t = .next u ∧ Standing s n u :=
  ⟨_, rfl, { h with inv := eventStep_keeps_inv (e := .rxByte b) h.inv rfl }⟩

/-- With the line low a turn of FG in RELEASE takes the sample, if one is due, and stays (R166). -/
theorem Standing.held (hsw : s.swState = .release) (hline : s.btnLine = false) : ∃ u, fgStep t = .next u ∧ Standing s n u := by
  obtain ⟨hstay, hwait, -⟩ := releaseSampleExits t (h.swState.trans hsw)
  cases hdue : t.swDue with
  | false => exact ⟨t, hstay hdue, h⟩
  | true =>
    have hstep := hwait hdue (h.btnLine.trans hline)
    exact ⟨_, hstep, { h with inv := fgStep_keeps_inv h.inv hstep }⟩

/-- A turn of FG in a reception waits while RXQ is empty (R112, R132). -/
theorem Standing.stalled {c : Ctx} (hread : reading c s) (hq : t.rxq = []) : fgStep t = .next t := by
  have hread' : reading c t := by
    cases c <;> simpa [reading, h.swState, h.busy, h.hostPhase] using hread
  exact fgStep_of_receive_none hread' (receive_of_rxq_nil c hq)

end Standing

/-! ## The held button (R274) -/

/-- Settles O46: every move of such a run leaves FG standing. -/
theorem heldButtonFreezesTheHost : Obligations.HeldButtonFreezesTheHost := by
  intro s xs hs hsw hline hxs
  obtain ⟨t, hrun, ht⟩ := moveRun_counts_ms (P := Standing s) (Standing.refl hs) fun x hx n u hu => by
    obtain rfl | rfl | rfl | ⟨b, rfl⟩ := hxs x hx
    · exact hu.held hsw hline
    · obtain ⟨v, hv, hstands, -⟩ := hu.ms
      exact ⟨v, hv, hstands⟩
    · obtain ⟨v, hv, hstands, -⟩ := hu.tone
      exact ⟨v, hv, hstands⟩
    · exact hu.rxByte b
  exact ⟨t, hrun, ht.swState.trans hsw, ht.cmd, ht.busy, ht.result, ht.status, ht.hostPhase, ht.hostCnt (by simp [hsw]),
    ht.hostVal, ht.hostK, ht.rdHost, ht.frameHost, ht.frameValidHost, ht.digits, ht.mode, by simpa using ht.pos⟩

/-! ## The sensor stall (R275) -/

/-- The context that receives. -/
theorem exists_reading {s : State} (hs : Inv s) (h : s.swState = .read ∨ (s.swState = .idle ∧ s.hostPhase = .read)) :
    ∃ c, reading c s := by
  obtain hsw | ⟨hsw, hp⟩ := h
  · exact ⟨.sw, hsw⟩
  · have hb : s.busy = true := by
      simpa [hp] using hs.idle_iff_not_busy
    exact ⟨.host, hsw, hb, hp⟩

/-- Settles O47: every move of such a run leaves FG standing and RXQ empty. -/
theorem sensorStallNeverEnds : Obligations.SensorStallNeverEnds := by
  intro s xs hs hq hreads hxs
  obtain ⟨c, hread⟩ := exists_reading hs hreads
  obtain ⟨t, hrun, ht, htq⟩ := moveRun_counts_ms (P := fun n t => Standing s n t ∧ t.rxq = []) ⟨Standing.refl hs, hq⟩
    fun x hx n u ⟨hu, huq⟩ => by
      obtain rfl | rfl | rfl := hxs x hx
      · exact ⟨u, hu.stalled hread huq, hu, huq⟩
      · obtain ⟨v, hv, hstands, hvq⟩ := hu.ms
        exact ⟨v, hv, hstands, hvq.trans huq⟩
      · obtain ⟨v, hv, hstands, hvq⟩ := hu.tone
        exact ⟨v, hv, hstands, hvq.trans huq⟩
  exact ⟨t, hrun, ht.stalled hread htq, ht.swState, ht.hostPhase, ht.busy, ht.rdHost, ht.rdSw, htq, ht.digits,
    by simpa using ht.pos⟩

end Sys2Proof.Machine
end
